-- ==== Sys2Proof/Word.lean ====
section
/-! DEFINITION. The word types of BFPE (00_scope.md R9, R10). -/

namespace Sys2Proof

/-- A register, a command word, a word of a table: 32 bits (R9). -/
abbrev Word := BitVec 32

/-- One byte of a process-data buffer (R80). -/
abbrev Byte := BitVec 8

/-- One slot of the value store (R51). -/
abbrev Slot := BitVec 64

end Sys2Proof
end

