-- ==== Sys2Proof/Syntax.lean ====
section
/-! DEFINITION. The commands of BFPE: one constructor for each row of spec/opcode_table.json
(30_encoding.md R111 to R117). -/

namespace Sys2Proof

/-- The BUF field (R111): 0 selects RDPD, 1 selects WRPD. -/
inductive Buf where
  | rd
  | wr
  deriving DecidableEq, Repr

/-- A command (R117). Operands are the fields of the command word (R111); the other operands are
registers, tables and the layout. -/
inductive Instr where
  /-- Read a bit field at an explicit position (40_codec.md R143). -/
  | rdb (buf : Buf) (width : BitVec 6) (bitOff : BitVec 3) (byteOff : BitVec 16)
  /-- Write a bit field at an explicit position (R146). -/
  | wrb (buf : Buf) (width : BitVec 6) (bitOff : BitVec 3) (byteOff : BitVec 16)
  /-- Read a bit field at the cursor (R150). -/
  | rdc (buf : Buf) (width : BitVec 6)
  /-- Write a bit field at the cursor (R153). -/
  | wrc (buf : Buf) (width : BitVec 6)
  /-- Advance the cursor without access (R156). -/
  | skip (n : BitVec 16)
  /-- Set the process-data buffer sizes (41_config_and_compile.md R180). -/
  | setsz
  /-- Check the registry and compile the map list (R186). -/
  | compile
  /-- Copy every write-direction item into WRPD (42_pack_unpack.md R240). -/
  | pack
  /-- Copy every read-direction item into VS and queue the notifications (R248). -/
  | unpack
  deriving DecidableEq, Repr

end Sys2Proof
end

