-- ==== Sys2Proof/WellFormed.lean ====
section
/-! DEFINITION. Which commands have an encoding: the codec width is at most 32
(30_encoding.md R117, R118; 92_eei_decisions.md D5). Every other operand fits its field by type. -/

namespace Sys2Proof

/-- WIDTH is legal: 0 to 32 (R111). -/
def widthLegal (width : BitVec 6) : Bool := decide (width.toNat ≤ 32)

/-- The command has an encoding (R118). -/
def Instr.wellFormed : Instr → Bool
  | .rdb _ width _ _ => widthLegal width
  | .wrb _ width _ _ => widthLegal width
  | .rdc _ width => widthLegal width
  | .wrc _ width => widthLegal width
  | .skip _ => true
  | .setsz => true
  | .compile => true
  | .pack => true
  | .unpack => true

end Sys2Proof
end

