-- ==== Sys2Proof/Decode.lean ====
section
/-! DEFINITION. The command words (30_encoding.md R110 to R119): the decoder, total on every word and
rejecting by name, and the encoder. One word is one command; there is no other length (R110). -/

namespace Sys2Proof

/-- Why a word is illegal (R118). -/
inductive IllegalWord where
  /-- OP is 0x0, 0x7 or 0xB to 0xF. -/
  | unassignedOpcode
  /-- RSV is not 0. -/
  | reservedBitsSet
  /-- WIDTH is 33 to 63 in format C or K. -/
  | widthAbove32
  /-- A field its format marks must-be-zero is not 0. -/
  | mustBeZeroBitsSet
  deriving DecidableEq, Repr

/-- OP, bits [3:0] (R111). -/
def opField (c : Word) : BitVec 4 := c.extractLsb' 0 4

/-- BUF, bit [4] (R111). -/
def bufField (c : Word) : Buf := if c.getLsbD 4 then .wr else .rd

/-- WIDTH, bits [10:5] (R111). -/
def widthField (c : Word) : BitVec 6 := c.extractLsb' 5 6

/-- BITOFF, bits [13:11] (R111). -/
def bitOffField (c : Word) : BitVec 3 := c.extractLsb' 11 3

/-- RSV, bits [15:14] (R111). -/
def rsvField (c : Word) : BitVec 2 := c.extractLsb' 14 2

/-- BYTEOFF or N, bits [31:16] (R111). -/
def highField (c : Word) : BitVec 16 := c.extractLsb' 16 16

/-- Format C (R112): every field but RSV is used. -/
def decodeFormatC (mk : Buf → BitVec 6 → BitVec 3 → BitVec 16 → Instr) (c : Word) :
    Except IllegalWord Instr :=
  if rsvField c ≠ 0 then .error .reservedBitsSet
  else if widthLegal (widthField c) then
    .ok (mk (bufField c) (widthField c) (bitOffField c) (highField c))
  else .error .widthAbove32

/-- Format K (R113): OP, BUF and WIDTH are used. -/
def decodeFormatK (mk : Buf → BitVec 6 → Instr) (c : Word) : Except IllegalWord Instr :=
  if rsvField c ≠ 0 then .error .reservedBitsSet
  else if bitOffField c ≠ 0 ∨ highField c ≠ 0 then .error .mustBeZeroBitsSet
  else if widthLegal (widthField c) then .ok (mk (bufField c) (widthField c))
  else .error .widthAbove32

/-- Format S (R114): OP and N are used. -/
def decodeFormatS (mk : BitVec 16 → Instr) (c : Word) : Except IllegalWord Instr :=
  if rsvField c ≠ 0 then .error .reservedBitsSet
  else if bufField c ≠ .rd ∨ widthField c ≠ 0 ∨ bitOffField c ≠ 0 then .error .mustBeZeroBitsSet
  else .ok (mk (highField c))

/-- Format Z (R115): bits [31:4] must be 0. -/
def decodeFormatZ (i : Instr) (c : Word) : Except IllegalWord Instr :=
  if rsvField c ≠ 0 then .error .reservedBitsSet
  else if bufField c ≠ .rd ∨ widthField c ≠ 0 ∨ bitOffField c ≠ 0 ∨ highField c ≠ 0 then
    .error .mustBeZeroBitsSet
  else .ok i

/-- The opcode map of R117. -/
def decode (c : Word) : Except IllegalWord Instr :=
  match (opField c).toNat with
  | 1 => decodeFormatC .rdb c
  | 2 => decodeFormatC .wrb c
  | 3 => decodeFormatK .rdc c
  | 4 => decodeFormatK .wrc c
  | 5 => decodeFormatS .skip c
  | 6 => decodeFormatZ .setsz c
  | 8 => decodeFormatZ .compile c
  | 9 => decodeFormatZ .pack c
  | 10 => decodeFormatZ .unpack c
  | _ => .error .unassignedOpcode

/-- One row of the match and mask table of R117. -/
structure OpcodeRow where
  mnemonic : String
  pattern : Word
  mask : Word
  /-- The further condition WIDTH ≤ 32 of formats C and K. -/
  codec : Bool
  deriving DecidableEq, Repr

/-- The match and mask table of R117. -/
def opcodeRows : List OpcodeRow :=
  [ ⟨"RDB", 0x00000001#32, 0x0000C00F#32, true⟩,
    ⟨"WRB", 0x00000002#32, 0x0000C00F#32, true⟩,
    ⟨"RDC", 0x00000003#32, 0xFFFFF80F#32, true⟩,
    ⟨"WRC", 0x00000004#32, 0xFFFFF80F#32, true⟩,
    ⟨"SKIP", 0x00000005#32, 0x0000FFFF#32, false⟩,
    ⟨"SETSZ", 0x00000006#32, 0xFFFFFFFF#32, false⟩,
    ⟨"COMPILE", 0x00000008#32, 0xFFFFFFFF#32, false⟩,
    ⟨"PACK", 0x00000009#32, 0xFFFFFFFF#32, false⟩,
    ⟨"UNPACK", 0x0000000A#32, 0xFFFFFFFF#32, false⟩ ]

/-- The word selects the row's command (R117). -/
def OpcodeRow.selects (r : OpcodeRow) (c : Word) : Bool :=
  decide (c &&& r.mask = r.pattern) && (!r.codec || widthLegal (widthField c))

/-- The row of R117 an instruction belongs to, by its mnemonic. -/
def Instr.mnemonic : Instr → String
  | .rdb .. => "RDB"
  | .wrb .. => "WRB"
  | .rdc .. => "RDC"
  | .wrc .. => "WRC"
  | .skip _ => "SKIP"
  | .setsz => "SETSZ"
  | .compile => "COMPILE"
  | .pack => "PACK"
  | .unpack => "UNPACK"

/-- BUF as a bit (R111). -/
def Buf.bit : Buf → BitVec 1
  | .rd => 0
  | .wr => 1

/-- A command word from its fields, most significant first (R111). -/
def assemble (high : BitVec 16) (bitOff : BitVec 3) (width : BitVec 6) (buf : BitVec 1)
    (op : BitVec 4) : Word :=
  high ++ (0 : BitVec 2) ++ bitOff ++ width ++ buf ++ op

/-- The word of a command (R111 to R117). -/
def encode : Instr → Word
  | .rdb buf width bitOff byteOff => assemble byteOff bitOff width buf.bit 1
  | .wrb buf width bitOff byteOff => assemble byteOff bitOff width buf.bit 2
  | .rdc buf width => assemble 0 0 width buf.bit 3
  | .wrc buf width => assemble 0 0 width buf.bit 4
  | .skip n => assemble n 0 0 0 5
  | .setsz => assemble 0 0 0 0 6
  | .compile => assemble 0 0 0 0 8
  | .pack => assemble 0 0 0 0 9
  | .unpack => assemble 0 0 0 0 10

/-- The command word that the low `nbits` bits of `w` spell, the bits above them 0. A command word
is written to CMD whole (R110), so no byte order enters
(log entry 21). -/
def tableWord (nbits w : Nat) : Word := BitVec.ofNat 32 (w % 2 ^ nbits)

/-- What the decoder reads from a row's word numbered as spec/opcode_table.json numbers its bits. -/
def decodeTableWord (nbits w : Nat) : Option Instr :=
  match decode (tableWord nbits w) with
  | .ok i => some i
  | .error _ => none

end Sys2Proof
end

