-- ==== Sys2Proof/Config.lean ====
section
/-! DEFINITION. What an integration fixes (the parameters of 00_scope.md R9) and the free values the
spec leaves open (93_implementation_defined.md items 6 to 8). -/

namespace Sys2Proof.Config

/-- BOOL_BITS, the width of type BOOL: 1 or 8 (R9, 92_eei_decisions.md D16). -/
inductive BoolBits where
  | one
  | eight
  deriving DecidableEq, Repr

/-- BOOL_BITS as a number. -/
def BoolBits.toNat : BoolBits → Nat
  | .one => 1
  | .eight => 8

/-- The parameters of R9. They are arguments of the model: no step changes them. -/
structure Params where
  /-- PD_MAX_BYTES, capacity in bytes of RDPD and of WRPD. -/
  pdMaxBytes : Nat
  /-- VS_SLOTS, number of slots of the value store. -/
  vsSlots : Nat
  /-- DESC_MAX, number of entries of DESC. -/
  descMax : Nat
  /-- MEMB_MAX, number of entries of MEMB. -/
  membMax : Nat
  /-- MAP_MAX, number of entries of MAP. -/
  mapMax : Nat
  /-- LAYOUT_MAX, number of entries of LAYOUT. -/
  layoutMax : Nat
  /-- NOTIFY_DEPTH, depth of NQ. -/
  notifyDepth : Nat
  /-- BOOL_BITS. -/
  boolBits : BoolBits
  /-- BFPE_BASE, the place of the block in a system address map. No rule computes with it
  (20_memory.md R91; log entry 8). -/
  bfpeBase : Nat
  deriving DecidableEq, Repr

/-- The legal ranges of R9 (92_eei_decisions.md D46). -/
abbrev Params.Legal (p : Params) : Prop :=
  (1 ≤ p.pdMaxBytes ∧ p.pdMaxBytes ≤ 65535) ∧
  (1 ≤ p.vsSlots ∧ p.vsSlots ≤ 65536) ∧
  (1 ≤ p.descMax ∧ p.descMax ≤ 65535) ∧
  (1 ≤ p.membMax ∧ p.membMax ≤ 65536) ∧
  (1 ≤ p.mapMax ∧ p.mapMax ≤ 65536) ∧
  (1 ≤ p.layoutMax ∧ p.layoutMax ≤ 65535) ∧
  (1 ≤ p.notifyDepth ∧ p.notifyDepth ≤ 255)

/-- The parameter values `State.reset` carries: those of 95_test_vectors.md section 0.
DESIGN CHOICE (log entry 1): R9 leaves them OPEN. -/
def params : Params where
  pdMaxBytes := 16
  vsSlots := 64
  descMax := 16
  membMax := 16
  mapMax := 16
  layoutMax := 64
  notifyDepth := 4
  boolBits := .one
  bfpeBase := 0

/-- What slot `i` of VS holds after the reset number `draw` (10_state.md R51, R64): free, log entry 2. -/
opaque vsDraw : (draw i : Nat) → Slot

/-- What word `j` of DESC entry `i` holds after the reset number `draw` (R56, R64): free, log entry 2. -/
opaque descDraw : (draw i j : Nat) → Word

/-- What word `j` of MEMB entry `i` holds after the reset number `draw` (R58, R64): free, log entry 2. -/
opaque membDraw : (draw i j : Nat) → Word

/-- What word `j` of MAP entry `i` holds after the reset number `draw` (R59, R64): free, log entry 2. -/
opaque mapDraw : (draw i j : Nat) → Word

/-- What a host reads as word `j` of LAYOUT entry `n` where no layout defines it (R61,
93_implementation_defined.md item 8): free, log entry 4. -/
opaque layoutDraw : (draw n j : Nat) → Word

end Sys2Proof.Config
end

