-- ==== Sys2Proof/Machine/State.lean ====
section
/-! DEFINITION. The state of BFPE (10_state.md), the events that move it (20_memory.md R88, R92;
70_reset_and_hazards.md R300), its faults and refusals, and the state after reset (R301). -/

namespace Sys2Proof.Machine

open Sys2Proof.Config

/-- A byte memory: the bytes that are not 0, as (address, byte) pairs with rising addresses (log entry 6). -/
abbrev Memory := List Host.Cell

/-- DIR of a layout entry (10_state.md R61): read is module to host, write is host to module. -/
inductive Dir where
  | read
  | write
  deriving DecidableEq, Repr

/-- KIND of a layout entry (R61): data is copied, noop is never accessed. -/
inductive Kind where
  | data
  | noop
  deriving DecidableEq, Repr

/-- HOOK (R56): 0 none, 1 notify-on-get, 2 notify-on-set, 3 validate-on-set. -/
inductive Hook where
  | none
  | notifyOnGet
  | notifyOnSet
  | validateOnSet
  deriving DecidableEq, Repr

/-- One entry of DESC, MEMB or MAP: two 32-bit words (R56, R58, R59). -/
structure TableEntry where
  w0 : Word
  w1 : Word
  deriving DecidableEq, Repr

/-- One entry of LAYOUT (R61). `inst` is the field INSTANCE. -/
structure LayoutEntry where
  dir : Dir
  kind : Kind
  byte : BitVec 16
  bit : BitVec 3
  width : BitVec 8
  stride : BitVec 16
  span : BitVec 8
  slot : BitVec 16
  origin : BitVec 16
  inst : BitVec 16
  elem : BitVec 8
  hook : Hook
  deriving DecidableEq, Repr

/-- The three host-written tables (R57). -/
inductive Table where
  | desc
  | memb
  | map
  deriving DecidableEq, Repr

/-- A port access by HOST or TRANSPORT (20_memory.md R88). Indices and offsets are unbounded here:
what an access outside its space does is part of R88. -/
inductive Access where
  /-- RegRead(off). -/
  | regRead (off : Nat)
  /-- RegWrite(off, v). -/
  | regWrite (off : Nat) (v : Word)
  /-- PortRead(RDPD or WRPD, i). -/
  | bufRead (buf : Buf) (i : Nat)
  /-- PortWrite(RDPD or WRPD, i, v). -/
  | bufWrite (buf : Buf) (i : Nat) (v : Byte)
  /-- PortRead(VS, i). -/
  | vsRead (i : Nat)
  /-- PortWrite(VS, i, v). -/
  | vsWrite (i : Nat) (v : Slot)
  /-- PortRead(DESC or MEMB or MAP, i, j). -/
  | tableRead (t : Table) (i j : Nat)
  /-- PortWrite(DESC or MEMB or MAP, i, j, v). -/
  | tableWrite (t : Table) (i j : Nat) (v : Word)
  /-- PortRead(LAYOUT, i, j). -/
  | layoutRead (i j : Nat)
  /-- A write to LAYOUT, which is ignored (10_state.md R62). -/
  | layoutWrite (i j : Nat) (v : Word)
  deriving DecidableEq, Repr

/-- One event of the total order of 20_memory.md R92: a step of one of the agents of 00_scope.md R18,
or an assertion of reset (70_reset_and_hazards.md R300). -/
inductive Event where
  | host (a : Access)
  | transport (a : Access)
  | engine
  | reset
  deriving DecidableEq, Repr

/-- The state. The first group is the complete state of R30; `params`, `draws`, `sched` and
`replies` are the model's own (INVENTORY.md, State). -/
structure State where
  /-- PENDING, the latch of CMD (R33). -/
  pending : Word
  /-- STATUS.BUSY (R33). -/
  busy : Bool
  /-- ARG (R34). -/
  arg : Word
  /-- RESULT (R35). -/
  result : Word
  /-- STATUS.ERRCODE (R37). -/
  errcode : BitVec 8
  /-- STATUS.FATAL (R38). -/
  fatal : Bool
  /-- STATUS.LAYOUT_VALID (R39), also the lock of R57. -/
  layoutValid : Bool
  /-- ERRINFO (R40). -/
  errinfo : Word
  /-- CURSOR (R41). -/
  cursor : Word
  /-- PDSIZE.RD_SIZE (R42). -/
  rdSize : BitVec 16
  /-- PDSIZE.WR_SIZE (R42). -/
  wrSize : BitVec 16
  /-- DESC_COUNT (R43). -/
  descCount : BitVec 16
  /-- LAYOUT_COUNT (R44). -/
  layoutCount : BitVec 16
  /-- RD_BITS (R45). -/
  rdBits : Word
  /-- WR_BITS (R45). -/
  wrBits : Word
  /-- NOTIFY_NEED (R46). -/
  notifyNeed : BitVec 8
  /-- RDPD, the read process-data buffer (R49). -/
  rdpd : Memory
  /-- WRPD, the write process-data buffer (R50). -/
  wrpd : Memory
  /-- VS, the value store, slot 0 first (R51). -/
  vs : List Slot
  /-- DESC, entry 0 first (R56). -/
  desc : List TableEntry
  /-- MEMB, entry 0 first (R58). -/
  memb : List TableEntry
  /-- MAP, entry 0 first (R59). -/
  map : List TableEntry
  /-- LAYOUT, the entries a layout defines, entry 0 first (R61, log entry 4). -/
  layout : List LayoutEntry
  /-- NQ, the head of the queue first (R60). -/
  nq : List Word
  /-- The parameters of R9 (log entry 1). -/
  params : Params
  /-- Selects the free values (log entries 2 and 4). -/
  draws : Nat
  /-- The events still to come (log entry 3). -/
  sched : List Event
  /-- What port reads returned, newest first (log entry 5). -/
  replies : List (BitVec 64)
  deriving DecidableEq, Repr

/-- How a run stops. -/
inductive Fault where
  /-- A port access other than RegRead(STATUS) while BUSY = 1 (70_reset_and_hazards.md R306,
  92_eei_decisions.md D37). Raised by the access event. Safe: the spec gives the access no result
  and says the run ends in this fault. -/
  | hostHazard
  deriving DecidableEq, Repr

/-- What has no meaning in the model. -/
inductive Refusal where
  /-- An instruction without a meaning. Safe: nothing can be proved of it. No arm of `exec` raises it:
  every instruction of the opcode table has its meaning. -/
  | notModelled (mnemonic : String)
  deriving DecidableEq, Repr

/-- A table of `n` entries whose words a reset draws (R64). -/
def drawnTable (draw : Nat → Nat → Word) (n : Nat) : List TableEntry :=
  (List.range n).map fun i => ⟨draw i 0, draw i 1⟩

/-- The reset state of R301 for the parameters `p`, the unspecified contents being those of the reset
number `draw`. The events to come and the replies so far are not the block's and stay. -/
def State.resetWith (p : Params) (draw : Nat) (sched : List Event) (replies : List (BitVec 64)) :
    State where
  pending := 0
  busy := false
  arg := 0
  result := 0
  errcode := 0
  fatal := false
  layoutValid := false
  errinfo := 0
  cursor := 0
  rdSize := 0
  wrSize := 0
  descCount := 0
  layoutCount := 0
  rdBits := 0
  wrBits := 0
  notifyNeed := 0
  rdpd := []
  wrpd := []
  vs := (List.range p.vsSlots).map (vsDraw draw)
  desc := drawnTable (descDraw draw) p.descMax
  memb := drawnTable (membDraw draw) p.membMax
  map := drawnTable (mapDraw draw) p.mapMax
  layout := []
  nq := []
  params := p
  draws := draw
  sched := sched
  replies := replies

/-- The machine right after reset (R300, R301), with nothing scheduled. -/
def State.reset : State := State.resetWith Config.params 0 [] []

end Sys2Proof.Machine
end

