-- ==== Sys2Proof/Machine/Ops.lean ====
section
/-! DEFINITION. The shared operations: byte memory and bit fields (20_memory.md R81 to R85, R88),
error reports, which are this block's exceptions (60_exceptions.md R270 to R275), and the access of
buffers, value store, tables and layout entries. -/

namespace Sys2Proof.Machine

/-! ### Byte memory -/

/-- Byte `i` (R88). A byte the list does not name is 0 (10_state.md R49, R50). -/
def Memory.read : Memory → Nat → Byte
  | [], _ => 0
  | (a, b) :: rest, i => if i = a then b else Memory.read rest i

/-- Write byte `i` (R88), keeping addresses rising and no zero byte listed (log entry 6). -/
def Memory.write : Memory → Nat → Byte → Memory
  | [], i, v => if v = 0 then [] else [(i, v)]
  | (a, b) :: rest, i, v =>
    if i < a then (if v = 0 then (a, b) :: rest else (i, v) :: (a, b) :: rest)
    else if i = a then (if v = 0 then rest else (i, v) :: rest)
    else (a, b) :: Memory.write rest i v

/-- The canonical form: addresses strictly rising, no listed byte 0. -/
abbrev Memory.wf (m : Memory) : Prop :=
  m.Pairwise (fun x y => x.1 < y.1) ∧ ∀ c ∈ m, c.2 ≠ 0

/-- Every listed byte lies below `n`. -/
abbrev Memory.below (m : Memory) (n : Nat) : Prop := ∀ c ∈ m, c.1 < n

/-- bit(SPACE, q) of R81: bit q mod 8 of byte q div 8. -/
def Memory.bitAt (m : Memory) (q : Nat) : Bool := (Memory.read m (q / 8)).getLsbD (q % 8)

/-- `x` with its bit `k` set to `b`. -/
def byteWithBit (x : Byte) (k : Nat) (b : Bool) : Byte :=
  if b then x ||| BitVec.twoPow 8 k else x &&& ~~~ BitVec.twoPow 8 k

/-- bit(SPACE, q) <- b, every other bit of the byte kept (R83). -/
def Memory.setBit (m : Memory) (q : Nat) (b : Bool) : Memory :=
  Memory.write m (q / 8) (byteWithBit (Memory.read m (q / 8)) (q % 8) b)

/-- FieldRead(SPACE, p, w) of R82: value bit i is bit(SPACE, p + i). -/
def fieldRead (m : Memory) (p : Nat) : (w : Nat) → BitVec w
  | 0 => 0
  | w + 1 => BitVec.cons (Memory.bitAt m (p + w)) (fieldRead m p w)

/-- FieldWrite(SPACE, p, w, v) of R83: bit(SPACE, p + i) <- v[i] for i below w, and nothing else. -/
def fieldWrite {n : Nat} (m : Memory) (p : Nat) (v : BitVec n) : Nat → Memory
  | 0 => m
  | w + 1 => Memory.setBit (fieldWrite m p v w) (p + w) (v.getLsbD w)

/-! ### Error reports -/

/-- The error names of 60_exceptions.md R270, without OK. -/
inductive ErrorName where
  | outOfBounds
  | duplicateInstance
  | unsortedRegistry
  | emptyRegistry
  | unknownInstance
  | elementRangeError
  | offsetAlignmentError
  | bufferOverflowError
  | illegalCommand
  | noLayout
  | layoutFull
  | storageRangeError
  | invalidMapEntry
  | missingTerminator
  | notifyFull
  | notifyCapacity
  | invalidDescriptor
  | sizeTooLarge
  deriving DecidableEq, Repr

/-- The code of an error (R270). -/
def ErrorName.code : ErrorName → BitVec 8
  | .outOfBounds => 0x01
  | .duplicateInstance => 0x02
  | .unsortedRegistry => 0x03
  | .emptyRegistry => 0x04
  | .unknownInstance => 0x05
  | .elementRangeError => 0x06
  | .offsetAlignmentError => 0x07
  | .bufferOverflowError => 0x08
  | .illegalCommand => 0x09
  | .noLayout => 0x0A
  | .layoutFull => 0x0B
  | .storageRangeError => 0x0C
  | .invalidMapEntry => 0x0D
  | .missingTerminator => 0x0E
  | .notifyFull => 0x0F
  | .notifyCapacity => 0x10
  | .invalidDescriptor => 0x11
  | .sizeTooLarge => 0x12

/-- An error with the value of ERRINFO (R271). -/
structure Report where
  error : ErrorName
  info : Word
  deriving DecidableEq, Repr

/-- A report whose information is an index, a count or a position (R271). -/
def reportAt (e : ErrorName) (n : Nat) : Report := ⟨e, BitVec.ofNat 32 n⟩

/-- `ok` of 00_scope.md R14: the command ends with ERRCODE <- 0 and ERRINFO <- 0. -/
def State.ok (s : State) : State := { s with errcode := 0, errinfo := 0 }

/-- `fail E(info)` of R14: ERRCODE and ERRINFO are written and nothing else. This is the whole of
"trap entry" (60_exceptions.md R274): no saved pc, no vector, no mode. A return does not exist
(R275): the next executed command overwrites the report. -/
def State.fail (r : Report) (s : State) : State :=
  { s with errcode := r.error.code, errinfo := r.info }

/-- `fatal E(info)` of R14: as `fail`, and STATUS.FATAL is set. -/
def State.fatalFail (r : Report) (s : State) : State :=
  { State.fail r s with fatal := true }

/-! ### Buffers -/

/-- The buffer a command selects (30_encoding.md R116). -/
def State.mem (buf : Buf) (s : State) : Memory :=
  match buf with
  | .rd => s.rdpd
  | .wr => s.wrpd

/-- size(buf) of R116, in bytes. -/
def State.size (buf : Buf) (s : State) : Nat :=
  match buf with
  | .rd => s.rdSize.toNat
  | .wr => s.wrSize.toNat

/-- The state with another content of the selected buffer. -/
def State.withMem (buf : Buf) (m : Memory) (s : State) : State :=
  match buf with
  | .rd => { s with rdpd := m }
  | .wr => { s with wrpd := m }

/-- The buffer of a direction: read is RDPD, write is WRPD (10_state.md R49, R50). -/
def Dir.buf : Dir → Buf
  | .read => .rd
  | .write => .wr

/-! ### Value store and tables -/

/-- Slot `i` of VS; 0 at and above VS_SLOTS (20_memory.md R88, log entry 7). -/
def State.vsSlot (s : State) (i : Nat) : Slot :=
  if i < s.params.vsSlots then s.vs.getD i 0 else 0

/-- The entries of a table. -/
def State.table (t : Table) (s : State) : List TableEntry :=
  match t with
  | .desc => s.desc
  | .memb => s.memb
  | .map => s.map

/-- The number of entries of a table (00_scope.md R9). -/
def State.tableMax (t : Table) (s : State) : Nat :=
  match t with
  | .desc => s.params.descMax
  | .memb => s.params.membMax
  | .map => s.params.mapMax

/-- The state with other contents of a table. -/
def State.withTable (t : Table) (es : List TableEntry) (s : State) : State :=
  match t with
  | .desc => { s with desc := es }
  | .memb => { s with memb := es }
  | .map => { s with map := es }

/-- Entry `i` of a table; two zero words outside it. -/
def State.entry (t : Table) (s : State) (i : Nat) : TableEntry :=
  (s.table t).getD i ⟨0, 0⟩

/-! ### Layout entries -/

/-- pos(n), the first bit position of an entry (10_state.md R61). -/
def LayoutEntry.pos (e : LayoutEntry) : Nat := 8 * e.byte.toNat + e.bit.toNat

/-- The bits an entry covers: STRIDE·SPAN (R61). -/
def LayoutEntry.extent (e : LayoutEntry) : Nat := e.stride.toNat * e.span.toNat

/-- end(n) (42_pack_unpack.md, opening). -/
def LayoutEntry.endPos (e : LayoutEntry) : Nat := e.pos + e.extent

/-- The bit position of item `i` of an entry (R61). -/
def LayoutEntry.itemPos (e : LayoutEntry) (i : Nat) : Nat := e.pos + i * e.stride.toNat

/-- A data entry of direction `d` (42_pack_unpack.md R242, R250). -/
def LayoutEntry.copies (e : LayoutEntry) (d : Dir) : Bool :=
  decide (e.dir = d) && decide (e.kind = .data)

/-- The layout in force: LAYOUT[0 .. LAYOUT_COUNT-1] (10_state.md R44). -/
def State.activeLayout (s : State) : List LayoutEntry := s.layout.take s.layoutCount.toNat

/-- LAYOUT's contents become unspecified (41_config_and_compile.md R181, R223): no entry is held and
the read-back draws anew (log entry 4). -/
def State.forgetLayout (s : State) : State := { s with layout := [], draws := s.draws + 1 }

end Sys2Proof.Machine
end

