-- ==== Sys2Proof/Machine/Operands.lean ====
section
/-! DEFINITION. Operands: positions and bounds of codec accesses (30_encoding.md R116, 40_codec.md
R141), the sizes of SETSZ, element types (10_state.md R52 to R55) and the fields of DESC, MEMB and
MAP words (R56, R58, R59). -/

namespace Sys2Proof.Machine

open Sys2Proof.Config

/-! ### Codec operands -/

/-- p = 8·BYTEOFF + BITOFF (R116). -/
def codecPos (bitOff : BitVec 3) (byteOff : BitVec 16) : Nat := 8 * byteOff.toNat + bitOff.toNat

/-- InBounds(buf, p, w) of R141, on natural numbers. -/
def State.inBounds (s : State) (buf : Buf) (p w : Nat) : Bool :=
  decide (p + w ≤ 8 * s.size buf)

/-- The read size operand of SETSZ, ARG[15:0] (R116). -/
def State.argReadSize (s : State) : BitVec 16 := s.arg.extractLsb' 0 16

/-- The write size operand of SETSZ, ARG[31:16] (R116). -/
def State.argWriteSize (s : State) : BitVec 16 := s.arg.extractLsb' 16 16

/-! ### Element types -/

/-- The element type tags of R52. -/
inductive ElemType where
  | bool
  | sint8
  | sint16
  | sint32
  | sint64
  | uint8
  | uint16
  | uint32
  | uint64
  | float32
  | float64
  | char
  | enum
  | octet
  /-- BITS(n), n = 1 to 32. -/
  | bits (n : Nat)
  /-- PAD(n), n = 0 to 16. -/
  | pad (n : Nat)
  deriving DecidableEq, Repr

/-- The tag of a type code; none for an undefined code (R52). -/
def elemType (code : BitVec 8) : Option ElemType :=
  match code.toNat with
  | 0x00 => some .bool
  | 0x01 => some .sint8
  | 0x02 => some .sint16
  | 0x03 => some .sint32
  | 0x04 => some .sint64
  | 0x05 => some .uint8
  | 0x06 => some .uint16
  | 0x07 => some .uint32
  | 0x08 => some .uint64
  | 0x09 => some .float32
  | 0x0A => some .float64
  | 0x0B => some .char
  | 0x0C => some .enum
  | 0x0D => some .octet
  | n =>
    if 0x20 ≤ n ∧ n ≤ 0x3F then some (.bits (n - 0x20 + 1))
    else if 0x40 ≤ n ∧ n ≤ 0x50 then some (.pad (n - 0x40))
    else none

/-- width(t) of R52 in bits; for PAD(n) the bits it occupies. -/
def ElemType.width (boolBits : BoolBits) : ElemType → Nat
  | .bool => boolBits.toNat
  | .sint8 => 8
  | .sint16 => 16
  | .sint32 => 32
  | .sint64 => 64
  | .uint8 => 8
  | .uint16 => 16
  | .uint32 => 32
  | .uint64 => 64
  | .float32 => 32
  | .float64 => 64
  | .char => 8
  | .enum => 8
  | .octet => 8
  | .bits n => n
  | .pad n => n

/-- The type is of byte class (R52, R55). -/
def ElemType.byteClass (boolBits : BoolBits) : ElemType → Bool
  | .bool => decide (boolBits = .eight)
  | .bits _ => false
  | .pad _ => false
  | _ => true

/-- The type is PAD(n): it occupies bits and has no storage (R53). -/
def ElemType.isPad : ElemType → Bool
  | .pad _ => true
  | _ => false

/-! ### Table fields -/

/-- DESC w0[15:0], INSTANCE (R56). -/
def TableEntry.descInst (e : TableEntry) : BitVec 16 := e.w0.extractLsb' 0 16

/-- DESC w0[23:16], TYPE (R56). -/
def TableEntry.descType (e : TableEntry) : BitVec 8 := e.w0.extractLsb' 16 8

/-- DESC w0[31:24], NELEM (R56). -/
def TableEntry.descNelem (e : TableEntry) : BitVec 8 := e.w0.extractLsb' 24 8

/-- DESC w1[15:0], BASE (R56). -/
def TableEntry.descBase (e : TableEntry) : BitVec 16 := e.w1.extractLsb' 0 16

/-- HOOK codes (R56). -/
def hookOf (code : BitVec 2) : Hook :=
  match code.toNat with
  | 0 => .none
  | 1 => .notifyOnGet
  | 2 => .notifyOnSet
  | _ => .validateOnSet

/-- The code of a HOOK, as LAYOUT read-back gives it (R62). -/
def Hook.code : Hook → BitVec 2
  | .none => 0
  | .notifyOnGet => 1
  | .notifyOnSet => 2
  | .validateOnSet => 3

/-- HOOK is 2 or 3, the hooks an update dispatches (42_pack_unpack.md R253, R258). -/
def Hook.notifies : Hook → Bool
  | .none => false
  | .notifyOnGet => false
  | .notifyOnSet => true
  | .validateOnSet => true

/-- DESC w1[21:20], HOOK (R56). -/
def TableEntry.descHook (e : TableEntry) : Hook := hookOf (e.w1.extractLsb' 20 2)

/-- DESC w1[22], STRUCT (R56). -/
def TableEntry.descStruct (e : TableEntry) : Bool := e.w1.getLsbD 22

/-- MEMB w0[7:0], TYPE (R58). -/
def TableEntry.membType (e : TableEntry) : BitVec 8 := e.w0.extractLsb' 0 8

/-- MEMB w0[15:8], NSUB (R58). -/
def TableEntry.membNsub (e : TableEntry) : BitVec 8 := e.w0.extractLsb' 8 8

/-- MEMB w1[15:0], SLOT (R58). -/
def TableEntry.membSlot (e : TableEntry) : BitVec 16 := e.w1.extractLsb' 0 16

/-- MAP w0[15:0], INSTANCE (R59). -/
def TableEntry.mapInst (e : TableEntry) : BitVec 16 := e.w0.extractLsb' 0 16

/-- MAP w0[23:16], COUNT (R59). -/
def TableEntry.mapCount (e : TableEntry) : BitVec 8 := e.w0.extractLsb' 16 8

/-- MAP w0[31:24], START (R59). -/
def TableEntry.mapStart (e : TableEntry) : BitVec 8 := e.w0.extractLsb' 24 8

/-- What DIR of a map entry says (R59). -/
inductive MapDir where
  | dir (d : Dir)
  | invalid
  | endMarker
  deriving DecidableEq, Repr

/-- MAP w1[1:0], DIR (R59). -/
def TableEntry.mapDir (e : TableEntry) : MapDir :=
  match (e.w1.extractLsb' 0 2).toNat with
  | 0 => .dir .read
  | 1 => .dir .write
  | 2 => .invalid
  | _ => .endMarker

end Sys2Proof.Machine
end

