-- ==== Sys2Proof/Machine/Codec.lean ====
section
/-! DEFINITION. The codec commands RDB, WRB, RDC, WRC and SKIP (40_codec.md). Each runs after the
prologue of 30_encoding.md R126 (Machine/Engine.lean). -/

namespace Sys2Proof.Machine

open Host (Outcome)

/-- CURSOR <- (p + w) mod 2^32 (R142). -/
def State.advanceTo (s : State) (p : Nat) : State := { s with cursor := BitVec.ofNat 32 p }

/-- A read of the field (p, w) of a buffer (R141 to R143): RESULT <- zext_32 of the field. -/
def codecRead (buf : Buf) (p w : Nat) (s : State) : State :=
  if s.inBounds buf p w then
    { (s.advanceTo (p + w)).ok with result := (fieldRead (s.mem buf) p w).setWidth 32 }
  else s.fail (reportAt .outOfBounds p)

/-- A write of the field (p, w) of a buffer from ARG (R141, R142, R146). -/
def codecWrite (buf : Buf) (p w : Nat) (s : State) : State :=
  if s.inBounds buf p w then
    ((s.advanceTo (p + w)).ok).withMem buf (fieldWrite (s.mem buf) p s.arg w)
  else s.fail (reportAt .outOfBounds p)

/-- RDB (R143). -/
def execRdb (buf : Buf) (width : BitVec 6) (bitOff : BitVec 3) (byteOff : BitVec 16) (s : State) :
    Outcome State Fault Refusal :=
  .next (codecRead buf (codecPos bitOff byteOff) width.toNat s)

/-- WRB (R146). -/
def execWrb (buf : Buf) (width : BitVec 6) (bitOff : BitVec 3) (byteOff : BitVec 16) (s : State) :
    Outcome State Fault Refusal :=
  .next (codecWrite buf (codecPos bitOff byteOff) width.toNat s)

/-- RDC (R150). -/
def execRdc (buf : Buf) (width : BitVec 6) (s : State) : Outcome State Fault Refusal :=
  .next (codecRead buf s.cursor.toNat width.toNat s)

/-- WRC (R153). -/
def execWrc (buf : Buf) (width : BitVec 6) (s : State) : Outcome State Fault Refusal :=
  .next (codecWrite buf s.cursor.toNat width.toNat s)

/-- SKIP (R156): CURSOR <- (CURSOR + N) mod 2^32, no access and no bounds check. -/
def execSkip (n : BitVec 16) (s : State) : Outcome State Fault Refusal :=
  .next ({ s with cursor := s.cursor + n.setWidth 32 } : State).ok

end Sys2Proof.Machine
end

