-- ==== Sys2Proof/Machine/Compile.lean ====
section
/-! DEFINITION. COMPILE, the registry checks and the mapping compiler (41_config_and_compile.md
R186 to R224). Every loop is a recursion on the number of turns left. -/

namespace Sys2Proof.Machine

open Host (Outcome)

/-! ### Phase 1: registry checks -/

/-- The number of descriptors in use, DESC_COUNT (10_state.md R43). -/
def State.descs (s : State) : Nat := s.descCount.toNat

/-- MEMB[m] has a defined TYPE and NSUB ≥ 1 (R192 c). -/
def State.validMember (s : State) (m : Nat) : Bool :=
  (elemType (s.entry .memb m).membType).isSome && decide (1 ≤ (s.entry .memb m).membNsub.toNat)

/-- ValidDesc(i) of R192. -/
def State.validDesc (s : State) (i : Nat) : Bool :=
  let e := s.entry .desc i
  decide (e.descInst ≠ 0) &&
    (if e.descStruct then
      decide (e.descBase.toNat + e.descNelem.toNat ≤ s.params.membMax) &&
        (List.range e.descNelem.toNat).all fun m => s.validMember (e.descBase.toNat + m)
    else (elemType e.descType).isSome)

/-- DESC[i].INSTANCE as a number. -/
def State.instAt (s : State) (i : Nat) : Nat := (s.entry .desc i).descInst.toNat

/-- The loop of R191 from descriptor `i`, `n` descriptors left. -/
def State.checkDescs (s : State) : (n i : Nat) → Except Report Unit
  | 0, _ => .ok ()
  | n + 1, i =>
    if !s.validDesc i then .error (reportAt .invalidDescriptor i)
    else if 0 < i ∧ s.instAt i = s.instAt (i - 1) then .error (reportAt .duplicateInstance i)
    else if 0 < i ∧ s.instAt i < s.instAt (i - 1) then .error (reportAt .unsortedRegistry i)
    else s.checkDescs n (i + 1)

/-- CheckRegistry (R190, R191). -/
def State.checkRegistry (s : State) : Except Report Unit :=
  if s.descs > s.params.descMax then .error (reportAt .invalidDescriptor s.descs)
  else if s.descs = 0 then .error (reportAt .emptyRegistry 0)
  else s.checkDescs s.descs 0

/-- Lookup(id) of R193: the descriptor in use with that INSTANCE. -/
def State.lookup (s : State) (id : BitVec 16) : Option Nat :=
  (List.range s.descs).find? fun i => decide ((s.entry .desc i).descInst = id)

/-! ### Phase 2: the map walk -/

/-- What the walk has built: the entries in order, the two bit cursors, the notification count
(R186). -/
structure Plan where
  entries : List LayoutEntry
  curRd : Nat
  curWr : Nat
  need : Nat
  deriving DecidableEq, Repr

/-- The plan at the start of the walk (R186). -/
def Plan.start : Plan := ⟨[], 0, 0, 0⟩

/-- cur[d] (R200). -/
def Plan.cur (p : Plan) : Dir → Nat
  | .read => p.curRd
  | .write => p.curWr

/-- cur[d] <- cur[d] + n. -/
def Plan.advance (p : Plan) (d : Dir) (n : Nat) : Plan :=
  match d with
  | .read => { p with curRd := p.curRd + n }
  | .write => { p with curWr := p.curWr + n }

/-- Append an entry and advance the cursor of its direction by STRIDE·SPAN (R201, R217). -/
def Plan.append (p : Plan) (e : LayoutEntry) : Plan :=
  { p with entries := p.entries ++ [e] }.advance e.dir e.extent

/-- The no-op entry of a pad map entry (R201). -/
def padEntry (d : Dir) (cur count k : Nat) : LayoutEntry where
  dir := d
  kind := .noop
  byte := BitVec.ofNat 16 (cur / 8)
  bit := BitVec.ofNat 3 (cur % 8)
  width := 0
  stride := BitVec.ofNat 16 count
  span := 1
  slot := 0
  origin := BitVec.ofNat 16 k
  inst := 0
  elem := 0
  hook := .none

/-- CompilePad (R201). -/
def State.compilePad (s : State) (e : TableEntry) (d : Dir) (k : Nat) (p : Plan) :
    Except Report Plan :=
  if p.entries.length = s.params.layoutMax then .error (reportAt .layoutFull k)
  else .ok (p.append (padEntry d (p.cur d) e.mapCount.toNat k))

/-- What Resolve gives of an element: its type code, its item count, its first slot (R203). -/
structure Resolved where
  code : BitVec 8
  span : Nat
  slot : Nat
  deriving DecidableEq, Repr

/-- Resolve(i, el) (R203). -/
def State.resolve (s : State) (i el : Nat) : Resolved :=
  let e := s.entry .desc i
  if e.descStruct then
    let m := s.entry .memb (e.descBase.toNat + el)
    ⟨m.membType, m.membNsub.toNat, m.membSlot.toNat⟩
  else ⟨e.descType, 1, e.descBase.toNat + el⟩

/-- The entry of a resolved element of type `t` (R217). A PAD element is one no-op entry over all its
items; a data element keeps its items. -/
def elemEntry (s : State) (t : ElemType) (r : Resolved) (d : Dir) (cur k : Nat) (id : BitVec 16)
    (el : Nat) (hook : Hook) : LayoutEntry where
  dir := d
  kind := if t.isPad then .noop else .data
  byte := BitVec.ofNat 16 (cur / 8)
  bit := BitVec.ofNat 3 (cur % 8)
  width := if t.isPad then 0 else BitVec.ofNat 8 (t.width s.params.boolBits)
  stride :=
    if t.isPad then BitVec.ofNat 16 (t.width s.params.boolBits * r.span)
    else BitVec.ofNat 16 (t.width s.params.boolBits)
  span := if t.isPad then 1 else BitVec.ofNat 8 r.span
  slot := if t.isPad then 0 else BitVec.ofNat 16 r.slot
  origin := BitVec.ofNat 16 k
  inst := id
  elem := BitVec.ofNat 8 el
  hook := hook

/-- One resolved element: the checks of R214, R215 and R216 in that order, then the append of R217.
An undefined type code cannot come here after R191 and R192; were it to, it is an invalid descriptor
(log entry 11). -/
def State.compileElem (s : State) (i k : Nat) (d : Dir) (id : BitVec 16) (el : Nat) (p : Plan) :
    Except Report Plan :=
  let r := s.resolve i el
  match elemType r.code with
  | none => .error (reportAt .invalidDescriptor i)
  | some t =>
    if t.byteClass s.params.boolBits ∧ p.cur d % 8 ≠ 0 then
      .error (reportAt .offsetAlignmentError k)
    else if !t.isPad ∧ r.slot + r.span > s.params.vsSlots then
      .error (reportAt .storageRangeError k)
    else if p.entries.length = s.params.layoutMax then .error (reportAt .layoutFull k)
    else
      .ok (p.append (elemEntry s t r d (p.cur d) k id el (s.entry .desc i).descHook))

/-- The elements el, el + 1, … of an ADI entry, `n` of them left (R202, R217). -/
def State.compileElems (s : State) (i k : Nat) (d : Dir) (id : BitVec 16) :
    (n el : Nat) → Plan → Except Report Plan
  | 0, _, p => .ok p
  | n + 1, el, p =>
    match s.compileElem i k d id el p with
    | .error r => .error r
    | .ok p' => s.compileElems i k d id n (el + 1) p'

/-- The element count of an ADI entry, or none for ElementRangeError (R202): `n` is the ADI's NELEM. -/
def elemCount (e : TableEntry) (n : Nat) : Option Nat :=
  if e.mapCount = 0 then
    (if e.mapStart.toNat > n then none else some (n - e.mapStart.toNat))
  else if e.mapStart.toNat + e.mapCount.toNat > n then none
  else some e.mapCount.toNat

/-- An ADI map entry needs one notification (R219). -/
def needsEvent (d : Dir) (cnt : Nat) (hook : Hook) : Bool :=
  decide (d = .read) && decide (0 < cnt) && hook.notifies

/-- CompileAdi (R202, R203, R214 to R217, R219). -/
def State.compileAdi (s : State) (e : TableEntry) (d : Dir) (k : Nat) (p : Plan) :
    Except Report Plan :=
  match s.lookup e.mapInst with
  | none => .error (reportAt .unknownInstance k)
  | some i =>
    match elemCount e (s.entry .desc i).descNelem.toNat with
    | none => .error (reportAt .elementRangeError k)
    | some cnt =>
      match s.compileElems i k d e.mapInst cnt e.mapStart.toNat p with
      | .error r => .error r
      | .ok p' =>
        .ok (if needsEvent d cnt (s.entry .desc i).descHook then { p' with need := p'.need + 1 }
          else p')

/-- The map walk from entry `k`, `n` entries left (R186, R200, R218). -/
def State.walk (s : State) : (n k : Nat) → Plan → Except Report Plan
  | 0, _, _ => .error (reportAt .missingTerminator s.params.mapMax)
  | n + 1, k, p =>
    let e := s.entry .map k
    match e.mapDir with
    | .endMarker => .ok p
    | .invalid => .error (reportAt .invalidMapEntry k)
    | .dir d =>
      match (if e.mapInst = 0 then s.compilePad e d k p else s.compileAdi e d k p) with
      | .error r => .error r
      | .ok p' => s.walk n (k + 1) p'

/-! ### Phase 3: final checks and commit -/

/-- sat31 (R186). -/
def sat31 (x : Nat) : Nat := min x (2 ^ 31 - 1)

/-- The overflow and notification checks (R220, R221). -/
def State.finalChecks (s : State) (p : Plan) : Except Report Plan :=
  if p.curRd > 8 * s.rdSize.toNat then .error (reportAt .bufferOverflowError (sat31 p.curRd))
  else if p.curWr > 8 * s.wrSize.toNat then
    .error (reportAt .bufferOverflowError (2 ^ 31 + sat31 p.curWr))
  else if p.need > s.params.notifyDepth then .error (reportAt .notifyCapacity p.need)
  else .ok p

/-- All the checks of COMPILE in order (R186). -/
def State.compilePlan (s : State) : Except Report Plan :=
  match s.checkRegistry with
  | .error r => .error r
  | .ok _ =>
    match s.walk s.params.mapMax 0 .start with
    | .error r => .error r
    | .ok p => s.finalChecks p

/-- Commit (R222). LAYOUT holds the entries; what it holds beyond them is unspecified (log entry 4). -/
def State.commit (s : State) (p : Plan) : State :=
  { s.forgetLayout with
    layoutValid := true
    layout := p.entries
    layoutCount := BitVec.ofNat 16 p.entries.length
    rdBits := BitVec.ofNat 32 p.curRd
    wrBits := BitVec.ofNat 32 p.curWr
    notifyNeed := BitVec.ofNat 8 p.need }

/-- What a failing COMPILE leaves besides its report (R223; 10_state.md R44 to R46): no layout
(log entry 16). -/
def State.dropLayout (s : State) : State :=
  { s.forgetLayout with
    layoutValid := false
    layoutCount := 0
    rdBits := 0
    wrBits := 0
    notifyNeed := 0 }

/-- COMPILE (R186). -/
def execCompile (s : State) : Outcome State Fault Refusal :=
  if s.layoutValid then .next s.ok
  else
    match s.compilePlan with
    | .error r => .next (s.dropLayout.fail r)
    | .ok p => .next (s.commit p).ok

end Sys2Proof.Machine
end

