-- ==== Sys2Proof/Machine/Exchange.lean ====
section
/-! DEFINITION. PACK and UNPACK, the process-data exchange (42_pack_unpack.md). -/

namespace Sys2Proof.Machine

open Host (Outcome)

/-- The index of the first data entry of direction `d` that ends past bit `limit`, the list starting at
index `n` (R242, R250). -/
def firstOverrun (d : Dir) (limit : Nat) : (n : Nat) → List LayoutEntry → Option Nat
  | _, [] => none
  | n, e :: es =>
    if e.copies d && decide (e.endPos > limit) then some n else firstOverrun d limit (n + 1) es

/-- The bounds check of PACK (write) or UNPACK (read) over the layout in force (R242, R250). -/
def State.overrun (s : State) (d : Dir) : Option Nat :=
  firstOverrun d (8 * s.size d.buf) 0 s.activeLayout

/-! ### PACK -/

/-- Items 0 to n-1 of a data entry, written into the buffer in increasing order (R243). -/
def packItems (s : State) (e : LayoutEntry) (m : Memory) : (n : Nat) → Memory
  | 0 => m
  | n + 1 =>
    fieldWrite (packItems s e m n) (e.itemPos n) (s.vsSlot (e.slot.toNat + n)) e.width.toNat

/-- The write-direction data entries in ascending index (R243); every other entry is not accessed
(R244). -/
def packEntries (s : State) : List LayoutEntry → Memory → Memory
  | [], m => m
  | e :: es, m =>
    packEntries s es (if e.copies .write then packItems s e m e.span.toNat else m)

/-- PACK (R240). -/
def execPack (s : State) : Outcome State Fault Refusal :=
  if !s.layoutValid then .next (s.fail (reportAt .noLayout 0))
  else
    match s.overrun .write with
    | some n => .next (s.fatalFail (reportAt .outOfBounds n))
    | none => .next ({ s with wrpd := packEntries s s.activeLayout s.wrpd } : State).ok

/-! ### UNPACK -/

/-- Items 0 to n-1 of a data entry, stored into VS in increasing order (R251). -/
def unpackItems (m : Memory) (e : LayoutEntry) (vs : List Slot) : (n : Nat) → List Slot
  | 0 => vs
  | n + 1 =>
    (unpackItems m e vs n).set (e.slot.toNat + n)
      ((fieldRead m (e.itemPos n) e.width.toNat).setWidth 64)

/-- The read-direction data entries in ascending index (R251, R252). -/
def unpackEntries (m : Memory) : List LayoutEntry → List Slot → List Slot
  | [], vs => vs
  | e :: es, vs =>
    unpackEntries m es (if e.copies .read then unpackItems m e vs e.span.toNat else vs)

/-- The event word of a group (10_state.md R60, R253): INSTANCE in [15:0], START in [23:16], COUNT in
[31:24]. -/
def eventWord (first : LayoutEntry) (count : Nat) : Word :=
  BitVec.ofNat 8 count ++ first.elem ++ first.inst

/-- The events of one group: one if the hook notifies, else none (R253, log entry 14). -/
def groupEvents (first : LayoutEntry) (count : Nat) : List Word :=
  if first.hook.notifies then [eventWord first count] else []

/-- An entry that belongs to an origin group (R253): DIR = 0 and INSTANCE ≠ 0. -/
def LayoutEntry.grouped (e : LayoutEntry) : Bool := decide (e.dir = .read) && decide (e.inst ≠ 0)

/-- The events of a group that is open, if one is: its first entry and its number of entries (R253). -/
def closeGroup : Option (LayoutEntry × Nat) → List Word
  | none => []
  | some (first, count) => groupEvents first count

/-- The events of the entries still to come while the group `g`, if any, is open. The group takes the
next entry if it is a grouped entry of the same ORIGIN, and ends otherwise (R253). -/
def eventsFrom (g : Option (LayoutEntry × Nat)) : List LayoutEntry → List Word
  | [] => closeGroup g
  | e :: es =>
    if e.grouped then
      match g with
      | some (first, count) =>
        if e.origin = first.origin then eventsFrom (some (first, count + 1)) es
        else groupEvents first count ++ eventsFrom (some (e, 1)) es
      | none => eventsFrom (some (e, 1)) es
    else closeGroup g ++ eventsFrom none es

/-- QueueEvents (R253): one event per origin group with HOOK 2 or 3, in ascending layout order. -/
def layoutEvents (es : List LayoutEntry) : List Word := eventsFrom none es

/-- NOTIFY_DEPTH - NQ_COUNT < NOTIFY_NEED (R249, log entry 17). -/
def State.lacksRoom (s : State) : Bool :=
  decide (s.params.notifyDepth - s.nq.length < s.notifyNeed.toNat)

/-- UNPACK (R248). -/
def execUnpack (s : State) : Outcome State Fault Refusal :=
  if !s.layoutValid then .next (s.fail (reportAt .noLayout 0))
  else if s.lacksRoom then .next (s.fail (reportAt .notifyFull s.notifyNeed.toNat))
  else
    match s.overrun .read with
    | some n => .next (s.fatalFail (reportAt .outOfBounds n))
    | none =>
      .next ({ s with
        vs := unpackEntries s.rdpd s.activeLayout s.vs
        nq := s.nq ++ layoutEvents s.activeLayout } : State).ok

end Sys2Proof.Machine
end

