-- ==== Sys2Proof/Machine/Sizes.lean ====
section
/-! DEFINITION. SETSZ, process-data size negotiation (41_config_and_compile.md R180 to R182). -/

namespace Sys2Proof.Machine

open Host (Outcome)

/-- SizeReset (R181): the layout is invalidated and the tables unlocked, both buffers are zeroed,
CURSOR is 0. -/
def State.sizeReset (s : State) : State :=
  { s.forgetLayout with
    layoutValid := false
    layoutCount := 0
    rdBits := 0
    wrBits := 0
    notifyNeed := 0
    rdpd := []
    wrpd := []
    cursor := 0 }

/-- SETSZ (R180). -/
def execSetsz (s : State) : Outcome State Fault Refusal :=
  if s.argReadSize.toNat > s.params.pdMaxBytes ∨ s.argWriteSize.toNat > s.params.pdMaxBytes then
    .next (s.fail ⟨.sizeTooLarge, s.arg⟩)
  else
    .next ({ s.sizeReset with rdSize := s.argReadSize, wrSize := s.argWriteSize } : State).ok

end Sys2Proof.Machine
end

