-- ==== Sys2Proof/Machine/Dispatch.lean ====
section
/-! DEFINITION. The meaning of every command, one arm per constructor (30_encoding.md R117). -/

namespace Sys2Proof.Machine

open Host (Outcome)

def exec (i : Instr) (s : State) : Host.Outcome State Fault Refusal :=
  match i with
  | .rdb buf width bitOff byteOff => Sys2Proof.Machine.execRdb buf width bitOff byteOff s
  | .wrb buf width bitOff byteOff => Sys2Proof.Machine.execWrb buf width bitOff byteOff s
  | .rdc buf width => Sys2Proof.Machine.execRdc buf width s
  | .wrc buf width => Sys2Proof.Machine.execWrc buf width s
  | .skip n => Sys2Proof.Machine.execSkip n s
  | .setsz => Sys2Proof.Machine.execSetsz s
  | .compile => Sys2Proof.Machine.execCompile s
  | .pack => Sys2Proof.Machine.execPack s
  | .unpack => Sys2Proof.Machine.execUnpack s

end Sys2Proof.Machine
end

