-- ==== Sys2Proof/Machine/Flags.lean ====
section
/-! DEFINITION. The status flags and the words a host reads: STATUS (10_state.md R36, R48), PDSIZE
(R42) and the read-back of LAYOUT entries (R62). -/

namespace Sys2Proof.Machine

/-- STATUS.ERR, always (ERRCODE ≠ 0) (R36). -/
def State.errFlag (s : State) : Bool := decide (s.errcode ≠ 0)

/-- STATUS.NQ_COUNT, the number of events in NQ (R36). -/
def State.nqCount (s : State) : BitVec 8 := BitVec.ofNat 8 s.nq.length

/-- The STATUS word of R36: bit 0 BUSY, 1 ERR, 2 FATAL, 3 LAYOUT_VALID, [15:8] ERRCODE,
[23:16] NQ_COUNT, every other bit 0. -/
def State.status (s : State) : Word :=
  (0 : BitVec 8) ++ s.nqCount ++ s.errcode ++ (0 : BitVec 4) ++ BitVec.ofBool s.layoutValid ++
    BitVec.ofBool s.fatal ++ BitVec.ofBool s.errFlag ++ BitVec.ofBool s.busy

/-- PDSIZE (R42): RD_SIZE in [15:0], WR_SIZE in [31:16]. -/
def State.pdsize (s : State) : Word := s.wrSize ++ s.rdSize

/-- DIR as a bit (R61). -/
def Dir.bit : Dir → BitVec 1
  | .read => 0
  | .write => 1

/-- KIND as a bit (R61). -/
def Kind.bit : Kind → BitVec 1
  | .data => 0
  | .noop => 1

/-- Word `j` of the read-back of a layout entry (R62); 0 for j above 3 (20_memory.md R88). -/
def LayoutEntry.word (e : LayoutEntry) (j : Nat) : Word :=
  match j with
  | 0 => (0 : BitVec 9) ++ e.hook.code ++ e.kind.bit ++ e.dir.bit ++ e.bit ++ e.byte
  | 1 => e.stride ++ e.span ++ e.width
  | 2 => e.origin ++ e.slot
  | 3 => (0 : BitVec 8) ++ e.elem ++ e.inst
  | _ => 0

/-- Word `j` of the read-back of an entry whose fields no layout defines, `v` being the unknown bits:
the bits R62 fixes, w0[31:23] and w3[31:24], are 0. -/
def undefinedEntryWord (j : Nat) (v : Word) : Word :=
  match j with
  | 0 => v &&& 0x007FFFFF
  | 3 => v &&& 0x00FFFFFF
  | _ => v

end Sys2Proof.Machine
end

