-- ==== Sys2Proof/Machine/Ports.lean ====
section
/-! DEFINITION. Port accesses by HOST and TRANSPORT (10_state.md R33 to R47, R57, R62;
20_memory.md R88; 70_reset_and_hazards.md R306). -/

namespace Sys2Proof.Machine

open Sys2Proof.Config
open Host (Outcome)

/-- The registers of 10_state.md section 2. -/
inductive Reg where
  | cmd
  | arg
  | result
  | status
  | errinfo
  | cursor
  | pdsize
  | descCount
  | layoutCount
  | rdBits
  | wrBits
  | notifyNeed
  | notifyPop
  deriving DecidableEq, Repr

/-- The register at an offset; none where no register is assigned (log entry 15). -/
def regAt (off : Nat) : Option Reg :=
  match off with
  | 0x00 => some .cmd
  | 0x04 => some .arg
  | 0x08 => some .result
  | 0x0C => some .status
  | 0x10 => some .errinfo
  | 0x14 => some .cursor
  | 0x18 => some .pdsize
  | 0x1C => some .descCount
  | 0x20 => some .layoutCount
  | 0x24 => some .rdBits
  | 0x28 => some .wrBits
  | 0x2C => some .notifyNeed
  | 0x30 => some .notifyPop
  | _ => none

/-- The event a read of NOTIFY_POP returns: the head of NQ, or 0 (R47). -/
def State.nqHead (s : State) : Word :=
  match s.nq with
  | [] => 0
  | e :: _ => e

/-- NQ without its head (R47). -/
def State.popNq (s : State) : State :=
  match s.nq with
  | [] => s
  | _ :: es => { s with nq := es }

/-- The value a read of a register returns (R33 to R47). -/
def State.regValue (s : State) (r : Reg) : Word :=
  match r with
  | .cmd => 0
  | .arg => s.arg
  | .result => s.result
  | .status => s.status
  | .errinfo => s.errinfo
  | .cursor => s.cursor
  | .pdsize => s.pdsize
  | .descCount => s.descCount.setWidth 32
  | .layoutCount => s.layoutCount.setWidth 32
  | .rdBits => s.rdBits
  | .wrBits => s.wrBits
  | .notifyNeed => s.notifyNeed.setWidth 32
  | .notifyPop => s.nqHead

/-- The value RegRead(off) returns; 0 at an unassigned offset (10_state.md section 2). -/
def State.regReadValue (s : State) (off : Nat) : Word :=
  match regAt off with
  | some r => s.regValue r
  | none => 0

/-- What RegRead(off) changes: only a read of NOTIFY_POP has an effect (R47; 20_memory.md R89). -/
def State.regReadEffect (s : State) (off : Nat) : State :=
  match regAt off with
  | some .notifyPop => s.popNq
  | _ => s

/-- RegWrite(off, v) while BUSY = 0: CMD latches the word and sets BUSY (R33), ARG takes it (R34),
DESC_COUNT takes its low half unless locked (R43, R57); every other write is ignored. -/
def State.regWrite (s : State) (off : Nat) (v : Word) : State :=
  match regAt off with
  | some .cmd => { s with pending := v, busy := true }
  | some .arg => { s with arg := v }
  | some .descCount => if s.layoutValid then s else { s with descCount := v.setWidth 16 }
  | _ => s

/-- PortRead(RDPD or WRPD, i): all PD_MAX_BYTES bytes, whatever the sizes; 0 beyond (R88). -/
def State.bufReadValue (s : State) (buf : Buf) (i : Nat) : Byte :=
  if i < s.params.pdMaxBytes then Memory.read (s.mem buf) i else 0

/-- PortWrite(RDPD or WRPD, i, v) (R88). -/
def State.bufWrite (s : State) (buf : Buf) (i : Nat) (v : Byte) : State :=
  if i < s.params.pdMaxBytes then s.withMem buf (Memory.write (s.mem buf) i v) else s

/-- PortWrite(VS, i, v) (R88). -/
def State.vsWrite (s : State) (i : Nat) (v : Slot) : State :=
  if i < s.params.vsSlots then { s with vs := s.vs.set i v } else s

/-- Word `j` of a table entry (R12). -/
def TableEntry.word (e : TableEntry) (j : Nat) : Word :=
  match j with
  | 0 => e.w0
  | 1 => e.w1
  | _ => 0

/-- The entry with its word `j` replaced; no such word, no change (R88). -/
def TableEntry.withWord (e : TableEntry) (j : Nat) (v : Word) : TableEntry :=
  match j with
  | 0 => { e with w0 := v }
  | 1 => { e with w1 := v }
  | _ => e

/-- PortRead(DESC or MEMB or MAP, i, j) (R88): the whole word as last written (10_state.md R65). -/
def State.tableReadValue (s : State) (t : Table) (i j : Nat) : Word :=
  if i < s.tableMax t then (s.entry t i).word j else 0

/-- PortWrite(DESC or MEMB or MAP, i, j, v): ignored while LAYOUT_VALID = 1 (10_state.md R57, R88). -/
def State.tableWrite (s : State) (t : Table) (i j : Nat) (v : Word) : State :=
  if s.layoutValid then s
  else if i < s.tableMax t then
    s.withTable t ((s.table t).set i ((s.entry t i).withWord j v))
  else s

/-- PortRead(LAYOUT, i, j) (10_state.md R62, R88): 0 outside LAYOUT; with LAYOUT_VALID = 1 the
read-back of the entry, whose fields are free at and above LAYOUT_COUNT; with LAYOUT_VALID = 0 any
value (R61, log entry 4). -/
def State.layoutReadValue (s : State) (i j : Nat) : Word :=
  if i < s.params.layoutMax ∧ j < 4 then
    (if s.layoutValid then
      match s.activeLayout[i]? with
      | some e => e.word j
      | none => undefinedEntryWord j (layoutDraw s.draws i j)
    else layoutDraw s.draws i j)
  else 0

/-- The value a read access returns, on a 64-bit reply; none for a write. -/
def State.readValue (s : State) (a : Access) : Option (BitVec 64) :=
  match a with
  | .regRead off => some ((s.regReadValue off).setWidth 64)
  | .bufRead buf i => some ((s.bufReadValue buf i).setWidth 64)
  | .vsRead i => some (s.vsSlot i)
  | .tableRead t i j => some ((s.tableReadValue t i j).setWidth 64)
  | .layoutRead i j => some ((s.layoutReadValue i j).setWidth 64)
  | .regWrite _ _ => none
  | .bufWrite _ _ _ => none
  | .vsWrite _ _ => none
  | .tableWrite _ _ _ _ => none
  | .layoutWrite _ _ _ => none

/-- What an access changes besides the reply (R88, R89). -/
def State.accessEffect (s : State) (a : Access) : State :=
  match a with
  | .regRead off => s.regReadEffect off
  | .regWrite off v => s.regWrite off v
  | .bufRead _ _ => s
  | .bufWrite buf i v => s.bufWrite buf i v
  | .vsRead _ => s
  | .vsWrite i v => s.vsWrite i v
  | .tableRead _ _ _ => s
  | .tableWrite t i j v => s.tableWrite t i j v
  | .layoutRead _ _ => s
  | .layoutWrite _ _ _ => s

/-- The state with a read's value among the replies (log entry 5). -/
def State.reply (s : State) (v : Option (BitVec 64)) : State :=
  match v with
  | none => s
  | some v => { s with replies := v :: s.replies }

/-- The access is RegRead(STATUS), the one access allowed while BUSY = 1 (10_state.md R36). -/
def Access.isStatusRead (a : Access) : Bool :=
  match a with
  | .regRead off => decide (regAt off = some .status)
  | _ => false

/-- One port access: HostHazard if BUSY = 1 and it is not RegRead(STATUS) (R306); else the value read
is replied and the effect takes place. -/
def portAccess (a : Access) (s : State) : Outcome State Fault Refusal :=
  if s.busy ∧ a.isStatusRead = false then .fault .hostHazard
  else .next ((s.accessEffect a).reply (s.readValue a))

end Sys2Proof.Machine
end

