-- ==== Sys2Proof/Machine/Engine.lean ====
section
/-! DEFINITION. The ENGINE's step with the common prologue (30_encoding.md R126), and the event that
moves next in the total order of 20_memory.md R92. -/

namespace Sys2Proof.Machine

open Host (Outcome)

/-- BUSY <- 0 at the end of the ENGINE's step (R126). -/
def State.idle (s : State) : State := { s with busy := false }

/-- An outcome's state, if it has one, with BUSY <- 0. -/
def endCommand (o : Outcome State Fault Refusal) : Outcome State Fault Refusal :=
  match o with
  | .next s => .next s.idle
  | .fault r => .fault r
  | .refused r => .refused r

/-- Execute(c) of R126: FATAL first, then legality, then the command (log entry 12). -/
def execute (c : Word) (s : State) : Outcome State Fault Refusal :=
  if s.fatal then .next s.idle
  else
    match decode c with
    | .error _ => .next (s.fail ⟨.illegalCommand, c⟩).idle
    | .ok i => endCommand (exec i s)

/-- The ENGINE's turn: it executes PENDING if BUSY = 1, and does nothing otherwise
(60_exceptions.md R285, log entry 18). -/
def engineTurn (s : State) : Outcome State Fault Refusal :=
  if s.busy then execute s.pending s else .next s

/-- Reset asserted while running (70_reset_and_hazards.md R300): every piece of state takes its reset
value, PENDING is discarded, the unspecified contents are drawn anew. The parameters, the events to
come and the replies are not the block's state and stay (log entry 10). -/
def State.assertReset (s : State) : State :=
  State.resetWith s.params (s.draws + 1) s.sched s.replies

/-- One event. -/
def runEvent (e : Event) (s : State) : Outcome State Fault Refusal :=
  match e with
  | .host a => portAccess a s
  | .transport a => portAccess a s
  | .engine => engineTurn s
  | .reset => .next s.assertReset

/-- The next event in the total order of R92: the first one scheduled, and with none scheduled the
ENGINE's turn (R307, log entry 3). -/
def nextEvent (s : State) : Outcome State Fault Refusal :=
  match s.sched with
  | [] => engineTurn s
  | e :: es => runEvent e { s with sched := es }

/-- The command word `c` written to CMD (10_state.md R33) with the ENGINE's turn next. -/
def State.withCommand (s : State) (c : Word) : State :=
  { s with pending := c, busy := true, sched := .engine :: s.sched }

end Sys2Proof.Machine
end

