-- ==== Sys2Proof/Machine/Step.lean ====
section
/-! DEFINITION. One step of the machine. -/

namespace Sys2Proof.Machine

/-- One step: the next event in the total order of 20_memory.md R92. -/
def step (s : State) : Host.Outcome State Fault Refusal := nextEvent s

/-- The row's word latched in PENDING with BUSY = 1 and the ENGINE's turn next: the block fetches no
instructions, a command comes whole through CMD (20_memory.md R86; log entry 3). -/
def State.withFetchWord (s : State) (nbits w : Nat) : State := s.withCommand (tableWord nbits w)

end Sys2Proof.Machine
end

