-- ==== Sys2Proof/Safety.lean ====
section
/-! DEFINITION. What counts as a safe run of BFPE: the registers, memories and queue keep their
ranges, a layout in force has the properties of 41_config_and_compile.md R225, and FATAL is never set
(42_pack_unpack.md R254). -/

namespace Sys2Proof.Machine

open Sys2Proof.Config

/-- R225 (a): from bit `p` on, the entries of direction `d` in index order lie end to end, the last
ending at bit `b`. -/
def tiles (d : Dir) : (p : Nat) → List LayoutEntry → (b : Nat) → Bool
  | p, [], b => decide (p = b)
  | p, e :: es, b =>
    if e.dir = d then decide (e.pos = p) && tiles d e.endPos es b else tiles d p es b

/-- R225 (d), with ELEM below the largest element count (10_state.md R56). -/
def entryRanges (p : Params) (e : LayoutEntry) : Bool :=
  decide (e.elem.toNat < 255) &&
    match e.kind with
    | .data =>
      decide (1 ≤ e.width.toNat) && decide (e.width.toNat ≤ 64) &&
        decide (e.stride.toNat = e.width.toNat) && decide (1 ≤ e.span.toNat) &&
        decide (e.slot.toNat + e.span.toNat ≤ p.vsSlots)
    | .noop => decide (e.width = 0) && decide (e.span = 1)

/-- The entry is the first of its map entry, at that entry's START (R202, R225 e); a pad has no ELEM. -/
def startsMapEntry (s : State) (e : LayoutEntry) : Bool :=
  decide (e.inst = 0) ||
    decide (e.elem.toNat = (s.entry .map e.origin.toNat).mapStart.toNat)

/-- R225 (e) for an entry and the one before it, if any: either it begins a later map entry, or it goes
on with the same one, in the same direction, of the same ADI, with ELEM one higher. -/
def originStep (s : State) (before : Option LayoutEntry) (e : LayoutEntry) : Bool :=
  match before with
  | none => startsMapEntry s e
  | some f =>
    (decide (f.origin.toNat < e.origin.toNat) && startsMapEntry s e) ||
      (decide (e.origin = f.origin) && decide (e.dir = f.dir) && decide (e.inst = f.inst) &&
        decide (e.hook = f.hook) && decide (e.elem.toNat = f.elem.toNat + 1))

/-- R225 (e) for the entries after `before`. -/
def originsInOrder (s : State) (before : Option LayoutEntry) : List LayoutEntry → Bool
  | [] => true
  | e :: es => originStep s before e && originsInOrder s (some e) es

/-- The entry's map entry has its direction and its INSTANCE (R200, R201, R217). -/
def entryFromMap (s : State) (e : LayoutEntry) : Bool :=
  decide ((s.entry .map e.origin.toNat).mapDir = .dir e.dir) &&
    decide ((s.entry .map e.origin.toNat).mapInst = e.inst)

/-- An entry made from an ADI is what the tables give of its element: type, items, slot, hook
(R203, R217), and a byte-class entry is byte-aligned and whole bytes wide (R225 c). An entry of
INSTANCE 0 is padding (R201). -/
def entryFromTables (s : State) (e : LayoutEntry) : Bool :=
  entryFromMap s e &&
  (if e.inst = 0 then decide (e.kind = .noop)
  else
    match s.lookup e.inst with
    | none => false
    | some i =>
      let r := s.resolve i e.elem.toNat
      match elemType r.code with
      | none => false
      | some t =>
        decide (e.elem.toNat < (s.entry .desc i).descNelem.toNat) &&
          decide (e.hook = (s.entry .desc i).descHook) &&
          (if t.isPad then
            decide (e.kind = .noop) && decide (e.extent = t.width s.params.boolBits * r.span)
          else
            decide (e.kind = .data) && decide (e.width.toNat = t.width s.params.boolBits) &&
              decide (e.span.toNat = r.span) && decide (e.slot.toNat = r.slot)) &&
          (!t.byteClass s.params.boolBits ||
            (decide (e.bit = 0) && decide (e.width.toNat % 8 = 0))))

/-- The properties of a layout in force (R225; 10_state.md R44 to R46; 42_pack_unpack.md R253). -/
abbrev State.LayoutOk (s : State) : Prop :=
  s.layout.length = s.layoutCount.toNat ∧
  s.layout.length ≤ s.params.layoutMax ∧
  tiles .read 0 s.layout s.rdBits.toNat = true ∧
  tiles .write 0 s.layout s.wrBits.toNat = true ∧
  s.rdBits.toNat ≤ 8 * s.rdSize.toNat ∧
  s.wrBits.toNat ≤ 8 * s.wrSize.toNat ∧
  (∀ e ∈ s.layout, entryRanges s.params e = true) ∧
  (∀ e ∈ s.layout, entryFromTables s e = true) ∧
  originsInOrder s none s.layout = true ∧
  s.notifyNeed.toNat = (layoutEvents s.layout).length ∧
  s.notifyNeed.toNat ≤ s.params.notifyDepth

/-- No layout: its counters are 0 (R181, R223; 70_reset_and_hazards.md R301). -/
abbrev State.NoLayout (s : State) : Prop :=
  s.layout = [] ∧ s.layoutCount = 0 ∧ s.rdBits = 0 ∧ s.wrBits = 0 ∧ s.notifyNeed = 0

/-- Two neighbours belong to one origin group (42_pack_unpack.md R253). -/
def sameGroup (e f : LayoutEntry) : Bool :=
  e.grouped && f.grouped && decide (e.origin = f.origin)

/-- The layout cut into its maximal runs of one origin group; an entry outside every group is a run of
its own (R253). -/
def originRuns : List LayoutEntry → List (List LayoutEntry)
  | [] => []
  | e :: es =>
    match originRuns es with
    | (f :: run) :: runs =>
      if sameGroup e f then (e :: f :: run) :: runs else [e] :: (f :: run) :: runs
    | runs => [e] :: runs

/-- The event a run gives: INSTANCE in bits [15:0], START in [23:16], the number of elements in
[31:24], if it is a group whose HOOK is 2 or 3 (R253). -/
def runEvents : List LayoutEntry → List Word
  | [] => []
  | e :: es =>
    if e.grouped && e.hook.notifies then
      [BitVec.ofNat 8 (es.length + 1) ++ e.elem ++ e.inst]
    else []

/-- The buffer, position and width of the field a codec write writes (40_codec.md R146, R153). -/
def writtenField (i : Instr) (s : State) : Option (Buf × Nat × Nat) :=
  match i with
  | .wrb buf width bitOff byteOff => some (buf, codecPos bitOff byteOff, width.toNat)
  | .wrc buf width => some (buf, s.cursor.toNat, width.toNat)
  | _ => none

/-! ### What a map list says -/

/-- One element that a map entry puts into its direction's buffer (R200 to R203): its type, its number
of items, the slot of item 0, and the names its layout entry carries. A pad map entry of COUNT bits is
one item of type PAD(COUNT). -/
structure MappedItem where
  dir : Dir
  type : ElemType
  span : Nat
  slot : Nat
  origin : Nat
  inst : BitVec 16
  elem : Nat
  hook : Hook
  deriving DecidableEq, Repr

/-- The bits the element occupies. -/
def MappedItem.bits (bb : BoolBits) (x : MappedItem) : Nat := x.type.width bb * x.span

/-- The bits that the elements of one direction occupy together. -/
def mappedBits (bb : BoolBits) (d : Dir) (xs : List MappedItem) : Nat :=
  ((xs.filter fun x => decide (x.dir = d)).map (MappedItem.bits bb)).sum

/-- The layout entry of an element at bit `p` (10_state.md R61; R201, R217): a data entry of its type's
width, or one no-op entry over all its bits. -/
def MappedItem.layoutEntry (bb : BoolBits) (x : MappedItem) (p : Nat) : LayoutEntry where
  dir := x.dir
  kind := if x.type.isPad then .noop else .data
  byte := BitVec.ofNat 16 (p / 8)
  bit := BitVec.ofNat 3 (p % 8)
  width := if x.type.isPad then 0 else BitVec.ofNat 8 (x.type.width bb)
  stride := BitVec.ofNat 16 (if x.type.isPad then x.bits bb else x.type.width bb)
  span := if x.type.isPad then 1 else BitVec.ofNat 8 x.span
  slot := if x.type.isPad then 0 else BitVec.ofNat 16 x.slot
  origin := BitVec.ofNat 16 x.origin
  inst := x.inst
  elem := BitVec.ofNat 8 x.elem
  hook := x.hook

/-- The layout entries of a list of elements: each at the end of the ones before it in its direction
(R201, R217). -/
def mappedLayout (bb : BoolBits) (xs : List MappedItem) : List LayoutEntry :=
  xs.mapIdx fun m x => x.layoutEntry bb (mappedBits bb x.dir (xs.take m))

/-- The notifications of a list of map entries, each given by its elements: one for a read-direction ADI
entry with an element and HOOK 2 or 3 (R219). -/
def mappedEvents (xss : List (List MappedItem)) : Nat :=
  (xss.filter fun xs =>
    match xs with
    | [] => false
    | x :: _ =>
      decide (x.dir = .read ∧ x.inst ≠ 0 ∧ (x.hook = .notifyOnSet ∨ x.hook = .validateOnSet))).length

/-- `x` is element `el` of the ADI of descriptor `i`, named by map entry `k` in direction `d` (R203): of
a scalar ADI one item in slot BASE + el, of a structured ADI the member MEMB[BASE + el]. -/
abbrev State.isElement (s : State) (d : Dir) (k i el : Nat) (x : MappedItem) : Prop :=
  x.dir = d ∧ x.origin = k ∧ x.inst = (s.entry .map k).mapInst ∧ x.elem = el ∧
  x.hook = (s.entry .desc i).descHook ∧
  if (s.entry .desc i).descStruct = true then
    elemType (s.entry .memb ((s.entry .desc i).descBase.toNat + el)).membType = some x.type ∧
    x.span = (s.entry .memb ((s.entry .desc i).descBase.toNat + el)).membNsub.toNat ∧
    x.slot = (s.entry .memb ((s.entry .desc i).descBase.toNat + el)).membSlot.toNat
  else
    elemType (s.entry .desc i).descType = some x.type ∧ x.span = 1 ∧
    x.slot = (s.entry .desc i).descBase.toNat + el

/-- The element range of map entry `k` on an ADI of NELEM `n` is START to START + cnt - 1, inside the
ADI (R202); COUNT = 0 names all the elements from START on. -/
abbrev State.elementRange (s : State) (k n cnt : Nat) : Prop :=
  (s.entry .map k).mapStart.toNat + cnt ≤ n ∧
  if (s.entry .map k).mapCount = 0 then (s.entry .map k).mapStart.toNat + cnt = n
  else cnt = (s.entry .map k).mapCount.toNat

/-- Map entry `k` is a pad of direction `d`, and `x` is its item (R201). -/
abbrev State.isPad (s : State) (d : Dir) (k : Nat) (x : MappedItem) : Prop :=
  x = { dir := d, type := .pad (s.entry .map k).mapCount.toNat, span := 1, slot := 0, origin := k,
        inst := 0, elem := 0, hook := .none }

/-- Map entry `k` names the elements `xs`, in order (R200 to R203). -/
def State.mapsTo (s : State) (k : Nat) (xs : List MappedItem) : Prop :=
  ∃ d, (s.entry .map k).mapDir = .dir d ∧
    (((s.entry .map k).mapInst = 0 ∧ ∃ x, s.isPad d k x ∧ xs = [x]) ∨
      ((s.entry .map k).mapInst ≠ 0 ∧ ∃ i cnt, i < s.descs ∧
        (s.entry .desc i).descInst = (s.entry .map k).mapInst ∧
        s.elementRange k (s.entry .desc i).descNelem.toNat cnt ∧ xs.length = cnt ∧
        ∀ m x, xs[m]? = some x →
          s.isElement d k i ((s.entry .map k).mapStart.toNat + m) x))

/-- R214 fails for `x` after the elements `before`: a byte-class element off a byte boundary. -/
abbrev State.misaligned (s : State) (before : List MappedItem) (x : MappedItem) : Prop :=
  x.type.byteClass s.params.boolBits = true ∧ mappedBits s.params.boolBits x.dir before % 8 ≠ 0

/-- R215 fails for `x`: a data element's slots reach VS_SLOTS. -/
abbrev State.lacksSlots (s : State) (x : MappedItem) : Prop :=
  x.type.isPad = false ∧ s.params.vsSlots < x.slot + x.span

/-- The elements `xs` all pass the checks of R201 and R214 to R216. -/
abbrev State.elementsOk (s : State) (xs : List MappedItem) : Prop :=
  xs.length ≤ s.params.layoutMax ∧
  ∀ m x, xs[m]? = some x → ¬ s.misaligned (xs.take m) x ∧ ¬ s.lacksSlots x

/-! ### Other terms of the statements -/

/-- The next event is the access `a`, by HOST or by TRANSPORT (20_memory.md R88; log entry 9). -/
abbrev State.accesses (s : State) (a : Access) (rest : List Event) : Prop :=
  s.sched = .host a :: rest ∨ s.sched = .transport a :: rest

/-- The registry passes every check of 41_config_and_compile.md R190 to R192. -/
abbrev State.RegistryOk (s : State) : Prop :=
  0 < s.descs ∧ s.descs ≤ s.params.descMax ∧
    (∀ i, i < s.descs → s.validDesc i = true) ∧
    ∀ i, i < s.descs → 0 < i → s.instAt (i - 1) < s.instAt i

/-- An event word names an ADI and at least one element (10_state.md R60). -/
def eventOk (w : Word) : Bool :=
  decide (w.extractLsb' 0 16 ≠ 0) && decide (w.extractLsb' 24 8 ≠ 0)

/-- The memories have the size the parameters say and their canonical form (20_memory.md R80). -/
abbrev State.MemoriesOk (s : State) : Prop :=
  Memory.wf s.rdpd ∧ Memory.wf s.wrpd ∧
  Memory.below s.rdpd s.params.pdMaxBytes ∧ Memory.below s.wrpd s.params.pdMaxBytes ∧
  s.vs.length = s.params.vsSlots ∧ s.desc.length = s.params.descMax ∧
  s.memb.length = s.params.membMax ∧ s.map.length = s.params.mapMax

/-- The sizes do not exceed the capacity (10_state.md R42), the queue is within its depth and holds
events only (R60). -/
abbrev State.RangesOk (s : State) : Prop :=
  s.rdSize.toNat ≤ s.params.pdMaxBytes ∧ s.wrSize.toNat ≤ s.params.pdMaxBytes ∧
  s.nq.length ≤ s.params.notifyDepth ∧ ∀ w ∈ s.nq, eventOk w = true

/-- The layout is as LAYOUT_VALID says (10_state.md R39). -/
abbrev State.LayoutConsistent (s : State) : Prop :=
  (s.layoutValid = true → s.LayoutOk) ∧ (s.layoutValid = false → s.NoLayout)

/-- The invariant of every run from reset: legal parameters, memories, ranges and layout as the spec
says, and FATAL = 0 (42_pack_unpack.md R254). -/
abbrev State.Inv (s : State) : Prop :=
  s.params.Legal ∧ s.MemoriesOk ∧ s.RangesOk ∧ s.LayoutConsistent ∧ s.fatal = false

end Sys2Proof.Machine
end

