-- ==== Sys2Proof/Certificates/Slice0/Obligations.lean ====
section
/-! DEFINITION. The statements for the provers. Each docstring names what of spec/ it formalises. -/

open Sys2Proof Sys2Proof.Machine

/-! ### Encoding -/

/-- The worked encodings of 30_encoding.md R129, in both directions, and its illegal word. -/
def Obligations.WorkedEncodingsDecodeAndEncode : Prop :=
  (∀ x ∈ [((0x00011981#32 : Word), Instr.rdb .rd 12#6 3#3 1#16),
      (0x00022181#32, .rdb .rd 12#6 4#3 2#16),
      (0x00001991#32, .rdb .wr 12#6 3#3 0#16),
      (0x00001992#32, .wrb .wr 12#6 3#3 0#16),
      (0x00000401#32, .rdb .rd 32#6 0#3 0#16),
      (0x00003C01#32, .rdb .rd 32#6 7#3 0#16),
      (0x00000103#32, .rdc .rd 8#6),
      (0x00000094#32, .wrc .wr 4#6),
      (0x00040005#32, .skip 4#16)],
    decode x.1 = .ok x.2 ∧ encode x.2 = x.1) ∧
  ∀ i, decode 0x00000421#32 ≠ .ok i

/-- Decoding an encoded well-formed command gives it back, for every command and operand
(30_encoding.md R111 to R117). -/
def Obligations.DecodeOfEncodeGivesTheInstruction : Prop :=
  ∀ i : Instr, i.wellFormed = true → decode (encode i) = .ok i

/-- A word that decodes is the encoding of a well-formed command: no bit of it is dropped
(30_encoding.md R110 to R119). -/
def Obligations.EncodeOfDecodeGivesTheWord : Prop :=
  ∀ (c : Word) (i : Instr), decode c = .ok i → i.wellFormed = true ∧ encode i = c

/-- A word is legal exactly when it matches a row of the opcode map with its further condition, and it
is then that row's command; every other word is illegal, by the conditions of R118. -/
def Obligations.LegalWordsAreTheRowsOfTheOpcodeMap : Prop :=
  ∀ c : Word,
    ((∃ i, decode c = .ok i) ↔ ∃ r ∈ opcodeRows, r.selects c = true) ∧
    (∀ i, decode c = .ok i → ∀ r ∈ opcodeRows, r.selects c = true → r.mnemonic = i.mnemonic) ∧
    ((∀ i, decode c ≠ .ok i) ↔
      (c.extractLsb' 0 4).toNat ∈ [0x0, 0x7, 0xB, 0xC, 0xD, 0xE, 0xF] ∨
      c.extractLsb' 14 2 ≠ 0#2 ∨
      ((c.extractLsb' 0 4).toNat ∈ [1, 2, 3, 4] ∧ 33 ≤ (c.extractLsb' 5 6).toNat) ∨
      ((c.extractLsb' 0 4).toNat ∈ [3, 4] ∧
        (c.extractLsb' 11 3 ≠ 0#3 ∨ c.extractLsb' 16 16 ≠ 0#16)) ∨
      ((c.extractLsb' 0 4).toNat = 5 ∧
        (c.getLsbD 4 = true ∨ c.extractLsb' 5 6 ≠ 0#6 ∨ c.extractLsb' 11 3 ≠ 0#3)) ∨
      ((c.extractLsb' 0 4).toNat ∈ [6, 8, 9, 10] ∧ c.extractLsb' 4 28 ≠ 0#28))

/-! ### The engine's step -/

/-- With a legal command pending, FATAL = 0 and the ENGINE's turn next, the step runs that command and
clears BUSY (30_encoding.md R126). -/
def Obligations.EngineTurnRunsTheDecodedCommand : Prop :=
  ∀ (s : State) (i : Instr) (rest : List Event),
    s.busy = true → s.fatal = false → decode s.pending = .ok i →
    (s.sched = .engine :: rest ∨ (s.sched = [] ∧ rest = [])) →
    step s =
      match exec i { s with sched := rest } with
      | .next t => .next { t with busy := false }
      | .fault r => .fault r
      | .refused r => .refused r

/-- The common prologue: FATAL first, then legality, then the command, BUSY cleared in each case
(30_encoding.md R126). -/
def Obligations.PrologueChecksFatalThenLegality : Prop :=
  ∀ (s : State) (rest : List Event), s.busy = true → s.sched = .engine :: rest →
    (s.fatal = true → step s = .next { s with sched := rest, busy := false }) ∧
    (s.fatal = false → (∀ i, decode s.pending ≠ .ok i) →
      step s = .next { s with
        sched := rest, busy := false, errcode := 0x09#8, errinfo := s.pending }) ∧
    (∀ i t, s.fatal = false → decode s.pending = .ok i → exec i { s with sched := rest } = .next t →
      step s = .next { t with busy := false })

/-- An illegal word, one that matches no row of the opcode map, ends with IllegalCommand and the whole
word in ERRINFO; there is no other kind of word (30_encoding.md R119). -/
def Obligations.WordOutsideTheOpcodeMapIsReported : Prop :=
  ∀ (s : State) (rest : List Event), s.busy = true → s.fatal = false → s.sched = .engine :: rest →
    (∀ r ∈ opcodeRows, r.selects s.pending = false) →
    step s = .next { s with
      sched := rest, busy := false, errcode := 0x09#8, errinfo := s.pending }

/-- While BUSY = 1 every port access but RegRead(STATUS) is the fault HostHazard; a read of STATUS
is allowed and shows BUSY = 1 (70_reset_and_hazards.md R306). -/
def Obligations.BusyAccessIsAHazardExceptStatusReads : Prop :=
  ∀ (s : State) (a : Access) (rest : List Event), s.busy = true →
    (s.sched = .host a :: rest ∨ s.sched = .transport a :: rest) →
    (a ≠ .regRead 0x0C → step s = .fault .hostHazard) ∧
    (a = .regRead 0x0C →
      ∃ v : BitVec 64, v.getLsbD 0 = true ∧
        step s = .next { s with sched := rest, replies := v :: s.replies })

/-- Between commands the block is idle and holds all state (60_exceptions.md R285): the ENGINE's turn
with BUSY = 0, scheduled or not, changes nothing. That there is such a turn is the model's reading (log
entry 18), and that an empty schedule gives the turn to the ENGINE the model's choice (log entry 3). -/
def Obligations.IdleBlockHoldsAllState : Prop :=
  ∀ s : State, s.busy = false →
    (s.sched = [] → step s = .next s) ∧
    (∀ rest, s.sched = .engine :: rest → step s = .next { s with sched := rest })

/-- A host that only polls STATUS sees the command end: after the polls the ENGINE moves and BUSY is 0
(70_reset_and_hazards.md R307; the schedule is the model's, log entry 3). -/
def Obligations.PollingEndsWithBusyClear : Prop :=
  ∀ (n : Nat) (s : State), s.busy = true → s.sched = List.replicate n (.host (.regRead 0x0C)) →
    ∃ t : State, Host.Core.run Sys2Proof.core (n + 1) s = .next t ∧ t.busy = false ∧ t.sched = []

/-- Every command ends in a next state: an error is a report, never a stop (60_exceptions.md R274). -/
def Obligations.EveryCommandEndsInANextState : Prop :=
  ∀ (i : Instr) (s : State), ∃ t, exec i s = .next t

/-! ### Codec commands -/

/-- RDB at its position and RDC at CURSOR, in bounds: RESULT is the field, zero-extended, CURSOR moves
past it, the report is cleared, and nothing else changes (40_codec.md R143, R150). -/
def Obligations.ReadCommandsReturnTheField : Prop :=
  (∀ (s : State) (buf : Buf) (width : BitVec 6) (bitOff : BitVec 3) (byteOff : BitVec 16),
    8 * byteOff.toNat + bitOff.toNat + width.toNat ≤ 8 * s.size buf →
    ∃ r : Word,
      exec (.rdb buf width bitOff byteOff) s = .next { s with
        result := r
        cursor := BitVec.ofNat 32 (8 * byteOff.toNat + bitOff.toNat + width.toNat)
        errcode := 0, errinfo := 0 } ∧
      ∀ i, i < 32 → r.getLsbD i = (decide (i < width.toNat) &&
        (Memory.read (s.mem buf) ((8 * byteOff.toNat + bitOff.toNat + i) / 8)).getLsbD
          ((8 * byteOff.toNat + bitOff.toNat + i) % 8))) ∧
  (∀ (s : State) (buf : Buf) (width : BitVec 6),
    s.cursor.toNat + width.toNat ≤ 8 * s.size buf →
    ∃ r : Word,
      exec (.rdc buf width) s = .next { s with
        result := r
        cursor := BitVec.ofNat 32 (s.cursor.toNat + width.toNat)
        errcode := 0, errinfo := 0 } ∧
      ∀ i, i < 32 → r.getLsbD i = (decide (i < width.toNat) &&
        (Memory.read (s.mem buf) ((s.cursor.toNat + i) / 8)).getLsbD ((s.cursor.toNat + i) % 8)))

/-- WRB at its position and WRC at CURSOR, in bounds: the bits p to p+w-1 of the buffer take the low
bits of ARG, every other bit and every byte that holds no bit of the field keep their value, CURSOR
moves past the field, the report is cleared, and nothing else changes (40_codec.md R146, R153). -/
def Obligations.WriteCommandsWriteExactlyTheField : Prop :=
  ∀ (s : State) (i : Instr) (buf : Buf) (p w : Nat),
    writtenField i s = some (buf, p, w) → Memory.wf (s.mem buf) → p + w ≤ 8 * s.size buf →
    ∃ m : Memory,
      exec i s = .next (State.withMem buf m { s with
        cursor := BitVec.ofNat 32 (p + w), errcode := 0, errinfo := 0 }) ∧
      Memory.wf m ∧
      (∀ q, Memory.bitAt m q =
        if p ≤ q ∧ q < p + w then s.arg.getLsbD (q - p) else Memory.bitAt (s.mem buf) q) ∧
      ∀ a, (w = 0 ∨ a < p / 8 ∨ (p + w - 1) / 8 < a) →
        Memory.read m a = Memory.read (s.mem buf) a

/-- A codec access is in bounds iff p + w ≤ 8·size, for every w; out of bounds it reports
OutOfBounds(p) and changes no other state, in bounds it succeeds (40_codec.md R141), so a field that
straddles the end writes none of its bits (R163). -/
def Obligations.OutOfBoundsAccessOnlyReports : Prop :=
  (∀ (s : State) (buf : Buf) (width : BitVec 6) (bitOff : BitVec 3) (byteOff : BitVec 16),
    ∀ i ∈ [Instr.rdb buf width bitOff byteOff, .wrb buf width bitOff byteOff],
      (8 * s.size buf < 8 * byteOff.toNat + bitOff.toNat + width.toNat →
        exec i s = .next { s with
          errcode := 0x01#8, errinfo := BitVec.ofNat 32 (8 * byteOff.toNat + bitOff.toNat) }) ∧
      (8 * byteOff.toNat + bitOff.toNat + width.toNat ≤ 8 * s.size buf →
        ∃ t, exec i s = .next t ∧ t.errcode = 0)) ∧
  (∀ (s : State) (buf : Buf) (width : BitVec 6),
    ∀ i ∈ [Instr.rdc buf width, .wrc buf width],
      (8 * s.size buf < s.cursor.toNat + width.toNat →
        exec i s = .next { s with errcode := 0x01#8, errinfo := s.cursor }) ∧
      (s.cursor.toNat + width.toNat ≤ 8 * s.size buf →
        ∃ t, exec i s = .next t ∧ t.errcode = 0))

/-- A successful codec access leaves CURSOR at p + w, which never wraps (40_codec.md R142). -/
def Obligations.SuccessfulAccessMovesTheCursorPastTheField : Prop :=
  (∀ (s t : State) (buf : Buf) (width : BitVec 6) (bitOff : BitVec 3) (byteOff : BitVec 16),
    ∀ i ∈ [Instr.rdb buf width bitOff byteOff, .wrb buf width bitOff byteOff],
      exec i s = .next t → t.errcode = 0 →
        t.cursor.toNat = 8 * byteOff.toNat + bitOff.toNat + width.toNat) ∧
  (∀ (s t : State) (buf : Buf) (width : BitVec 6),
    ∀ i ∈ [Instr.rdc buf width, .wrc buf width],
      exec i s = .next t → t.errcode = 0 →
        t.cursor.toNat = s.cursor.toNat + width.toNat)

/-- SKIP adds N to CURSOR modulo 2^32, clears the report and changes nothing else (40_codec.md
R156). -/
def Obligations.SkipAddsToTheCursor : Prop :=
  ∀ (s : State) (n : BitVec 16),
    exec (.skip n) s = .next { s with
      cursor := BitVec.ofNat 32 (s.cursor.toNat + n.toNat), errcode := 0, errinfo := 0 }

/-- Writing a field and reading it back at the same coordinates, with no write of the buffer between,
gives ARG masked to the width (40_codec.md R160). -/
def Obligations.WriteThenReadReturnsTheMaskedValue : Prop :=
  ∀ (s t u : State) (buf : Buf) (width : BitVec 6) (bitOff : BitVec 3) (byteOff : BitVec 16),
    Memory.wf (s.mem buf) → width.toNat ≤ 32 →
    8 * byteOff.toNat + bitOff.toNat + width.toNat ≤ 8 * s.size buf →
    exec (.wrb buf width bitOff byteOff) s = .next t →
    u.mem buf = t.mem buf → u.size buf = t.size buf →
    ∃ v, exec (.rdb buf width bitOff byteOff) u = .next v ∧ v.errcode = 0 ∧
      v.result = s.arg &&& BitVec.ofNat 32 (2 ^ width.toNat - 1)

/-- A successful codec write keeps every disjoint field of its buffer and all of the other buffer; a
codec read changes no buffer (40_codec.md R161). -/
def Obligations.CodecWritesKeepDisjointFields : Prop :=
  (∀ (s t : State) (i : Instr) (buf : Buf) (p w : Nat),
    writtenField i s = some (buf, p, w) → Memory.wf (s.mem buf) →
    exec i s = .next t → t.errcode = 0 →
      (∀ q u, (q + u ≤ p ∨ p + w ≤ q) →
        fieldRead (t.mem buf) q u = fieldRead (s.mem buf) q u) ∧
      ∀ other, other ≠ buf → t.mem other = s.mem other) ∧
  (∀ (s t : State) (buf : Buf) (width : BitVec 6) (bitOff : BitVec 3) (byteOff : BitVec 16),
    ∀ i ∈ [Instr.rdb buf width bitOff byteOff, .rdc buf width],
      exec i s = .next t → ∀ b, t.mem b = s.mem b)

/-- Of two successful codec writes the later one decides the bits where they overlap, whatever ARG
each had (40_codec.md R162). -/
def Obligations.LaterWriteWinsOnTheOverlap : Prop :=
  ∀ (s t u : State) (i j : Instr) (buf : Buf) (p w q v : Nat) (arg : Word),
    writtenField i s = some (buf, p, w) → Memory.wf (s.mem buf) →
    exec i s = .next t → t.errcode = 0 →
    writtenField j { t with arg := arg } = some (buf, q, v) →
    exec j { t with arg := arg } = .next u → u.errcode = 0 →
    ∀ k, p ≤ k → k < p + w → q ≤ k → k < q + v →
      Memory.bitAt (u.mem buf) k = arg.getLsbD (k - q)

/-- A byte-aligned field of whole bytes is stored little-endian: byte b + j takes bits 8j+7 to 8j of
ARG (20_memory.md R84). -/
def Obligations.AlignedFieldIsLittleEndian : Prop :=
  ∀ (s : State) (buf : Buf) (byteOff : BitVec 16) (k : Nat),
    Memory.wf (s.mem buf) → k ≤ 4 → byteOff.toNat + k ≤ s.size buf →
    ∃ t, exec (.wrb buf (BitVec.ofNat 6 (8 * k)) 0 byteOff) s = .next t ∧
      (∀ j, j < k → Memory.read (t.mem buf) (byteOff.toNat + j) = s.arg.extractLsb' (8 * j) 8) ∧
      ∀ a, (a < byteOff.toNat ∨ byteOff.toNat + k ≤ a) →
        Memory.read (t.mem buf) a = Memory.read (s.mem buf) a

/-! ### SETSZ -/

/-- SETSZ sets both sizes, invalidates the layout, zeroes both buffers and CURSOR and leaves the rest,
or, if a size exceeds PD_MAX_BYTES, reports SizeTooLarge(ARG) and changes nothing else
(41_config_and_compile.md R180, R181; `draws` is the model's, log entry 4). -/
def Obligations.SetszSetsBothSizesOrOnlyReports : Prop :=
  ∀ s : State,
    ((s.arg.extractLsb' 0 16).toNat ≤ s.params.pdMaxBytes ∧
        (s.arg.extractLsb' 16 16).toNat ≤ s.params.pdMaxBytes →
      ∃ t, exec .setsz s = .next t ∧
        t = { s with
          rdSize := s.arg.extractLsb' 0 16, wrSize := s.arg.extractLsb' 16 16
          layoutValid := false, layoutCount := 0, rdBits := 0, wrBits := 0, notifyNeed := 0
          rdpd := t.rdpd, wrpd := t.wrpd, cursor := 0, layout := [], draws := s.draws + 1
          errcode := 0, errinfo := 0 } ∧
        ∀ b a, Memory.read (t.mem b) a = 0) ∧
    ((s.params.pdMaxBytes < (s.arg.extractLsb' 0 16).toNat ∨
        s.params.pdMaxBytes < (s.arg.extractLsb' 16 16).toNat) →
      exec .setsz s = .next { s with errcode := 0x12#8, errinfo := s.arg })

/-! ### COMPILE: types and registry -/

/-- The element type codes, their widths and their classes (10_state.md R52, R55). -/
def Obligations.TypeCodesHaveTheirWidthAndClass : Prop :=
  ∀ (bb : Config.BoolBits) (code : BitVec 8),
    (elemType code = none ↔ (0x0E ≤ code.toNat ∧ code.toNat ≤ 0x1F) ∨ 0x51 ≤ code.toNat) ∧
    ∀ t, elemType code = some t →
      (t.isPad = true ↔ 0x40 ≤ code.toNat) ∧
      (t.byteClass bb = true ↔
        (code = 0 ∧ bb = .eight) ∨ (1 ≤ code.toNat ∧ code.toNat ≤ 0x0D)) ∧
      t.width bb =
        if code.toNat = 0 then (match bb with | .one => 1 | .eight => 8)
        else if code.toNat ∈ [0x01, 0x05, 0x0B, 0x0C, 0x0D] then 8
        else if code.toNat ∈ [0x02, 0x06] then 16
        else if code.toNat ∈ [0x03, 0x07, 0x09] then 32
        else if code.toNat ∈ [0x04, 0x08, 0x0A] then 64
        else if code.toNat ≤ 0x3F then code.toNat - 0x20 + 1
        else code.toNat - 0x40

/-- ValidDesc(i) holds iff INSTANCE ≠ 0, a scalar ADI has a defined TYPE, and a structured ADI has its
members inside MEMB, each of a defined TYPE with NSUB ≥ 1 (41_config_and_compile.md R192). The fields
of DESC, MEMB and MAP words stand at the bits of their tables, and the bits a table calls ignored or no
command reads change none of them (10_state.md R56, R58, R59, R65). -/
def Obligations.ValidDescriptorConditions : Prop :=
  (∀ (s : State) (i : Nat),
    s.validDesc i = true ↔
      (s.entry .desc i).descInst ≠ 0 ∧
      ((s.entry .desc i).descStruct = false → elemType (s.entry .desc i).descType ≠ none) ∧
      ((s.entry .desc i).descStruct = true →
        (s.entry .desc i).descBase.toNat + (s.entry .desc i).descNelem.toNat ≤ s.params.membMax ∧
        ∀ m, m < (s.entry .desc i).descNelem.toNat →
          elemType (s.entry .memb ((s.entry .desc i).descBase.toNat + m)).membType ≠ none ∧
          1 ≤ (s.entry .memb ((s.entry .desc i).descBase.toNat + m)).membNsub.toNat)) ∧
  (∀ (inst base : BitVec 16) (type nelem : BitVec 8) (acc : BitVec 4) (hook : BitVec 2)
    (struct : Bool) (ignored : BitVec 9) (e : TableEntry),
    e = ⟨nelem ++ type ++ inst, ignored ++ BitVec.ofBool struct ++ hook ++ acc ++ base⟩ →
    e.descInst = inst ∧ e.descType = type ∧ e.descNelem = nelem ∧ e.descBase = base ∧
    e.descStruct = struct ∧
    (hook = 0 → e.descHook = .none) ∧ (hook = 1 → e.descHook = .notifyOnGet) ∧
    (hook = 2 → e.descHook = .notifyOnSet) ∧ (hook = 3 → e.descHook = .validateOnSet)) ∧
  (∀ (type nsub mbitoff : BitVec 8) (access ign0 : BitVec 4) (slot ign1 : BitVec 16)
    (e : TableEntry), e = ⟨ign0 ++ mbitoff ++ access ++ nsub ++ type, ign1 ++ slot⟩ →
    e.membType = type ∧ e.membNsub = nsub ∧ e.membSlot = slot) ∧
  (∀ (inst : BitVec 16) (count start : BitVec 8) (dir : BitVec 2) (ignored : BitVec 30)
    (e : TableEntry), e = ⟨start ++ count ++ inst, ignored ++ dir⟩ →
    e.mapInst = inst ∧ e.mapCount = count ∧ e.mapStart = start ∧
    (dir = 0 → e.mapDir = .dir .read) ∧ (dir = 1 → e.mapDir = .dir .write) ∧
    (dir = 2 → e.mapDir = .invalid) ∧ (dir = 3 → e.mapDir = .endMarker))

/-- COMPILE without a layout first checks the count: DESC_COUNT above DESC_MAX is InvalidDescriptor(n),
DESC_COUNT = 0 is EmptyRegistry(0) (41_config_and_compile.md R190). -/
def Obligations.DescriptorCountIsCheckedFirst : Prop :=
  ∀ s : State, s.layoutValid = false →
    (s.params.descMax < s.descCount.toNat →
      ∃ t, exec .compile s = .next t ∧ t.layoutValid = false ∧ t.errcode = 0x11#8 ∧
        t.errinfo = s.descCount.setWidth 32) ∧
    (s.descCount.toNat = 0 →
      ∃ t, exec .compile s = .next t ∧ t.layoutValid = false ∧ t.errcode = 0x04#8 ∧ t.errinfo = 0)

/-- The first descriptor that is invalid, repeats its predecessor's INSTANCE or falls below it is
reported under its index; a registry COMPILE accepts is strictly ascending
(41_config_and_compile.md R191). -/
def Obligations.FirstBadDescriptorIsReported : Prop :=
  (∀ (s : State) (i : Nat), s.layoutValid = false → s.descCount.toNat ≤ s.params.descMax →
    i < s.descCount.toNat →
    (∀ j, j < i → s.validDesc j = true) →
    (∀ j, 0 < j → j < i →
      (s.entry .desc (j - 1)).descInst.toNat < (s.entry .desc j).descInst.toNat) →
    (s.validDesc i = false →
      ∃ t, exec .compile s = .next t ∧ t.layoutValid = false ∧
        t.errcode = 0x11#8 ∧ t.errinfo = BitVec.ofNat 32 i) ∧
    (s.validDesc i = true → 0 < i →
        (s.entry .desc i).descInst = (s.entry .desc (i - 1)).descInst →
      ∃ t, exec .compile s = .next t ∧ t.layoutValid = false ∧
        t.errcode = 0x02#8 ∧ t.errinfo = BitVec.ofNat 32 i) ∧
    (s.validDesc i = true → 0 < i →
        (s.entry .desc i).descInst.toNat < (s.entry .desc (i - 1)).descInst.toNat →
      ∃ t, exec .compile s = .next t ∧ t.layoutValid = false ∧
        t.errcode = 0x03#8 ∧ t.errinfo = BitVec.ofNat 32 i)) ∧
  (∀ s t : State, s.layoutValid = false → exec .compile s = .next t → t.layoutValid = true →
    ∀ i, 0 < i → i < s.descCount.toNat →
      (s.entry .desc (i - 1)).descInst.toNat < (s.entry .desc i).descInst.toNat)

/-- No table with two descriptors of one INSTANCE is ever accepted (41_config_and_compile.md R227). -/
def Obligations.RepeatedInstanceIsNeverAccepted : Prop :=
  ∀ (s : State) (i j : Nat), s.layoutValid = false → i < j → j < s.descCount.toNat →
    (s.entry .desc i).descInst = (s.entry .desc j).descInst →
    ∃ t, exec .compile s = .next t ∧ t.layoutValid = false ∧ t.errcode ≠ 0

/-! ### COMPILE: map walk, layout, failure -/

/-- A map list without a terminal entry never compiles, and if it is made of pads that fit the layout
store the report is MissingTerminator(MAP_MAX) (41_config_and_compile.md R218). -/
def Obligations.MapWithoutTerminatorIsRefused : Prop :=
  ∀ s : State, s.layoutValid = false →
    (∀ k, k < s.params.mapMax → (s.entry .map k).mapDir ≠ .endMarker) →
    (∃ t, exec .compile s = .next t ∧ t.layoutValid = false ∧ t.errcode ≠ 0) ∧
    (s.RegistryOk → s.params.mapMax ≤ s.params.layoutMax →
      (∀ k, k < s.params.mapMax →
        (s.entry .map k).mapDir ≠ .invalid ∧ (s.entry .map k).mapInst = 0) →
      ∃ t, exec .compile s = .next t ∧ t.layoutValid = false ∧
        t.errcode = 0x0E#8 ∧ t.errinfo = BitVec.ofNat 32 s.params.mapMax)

/-- A map list of one pad: it compiles to one no-op entry at position 0 if it fits the buffer of its
direction, and otherwise overflows with the direction and the final cursor in ERRINFO
(41_config_and_compile.md R201, R220, R222). -/
def Obligations.SinglePadCompilesOrOverflows : Prop :=
  ∀ (s : State) (d : Dir) (n : Nat), s.layoutValid = false → s.params.Legal → s.RegistryOk →
    2 ≤ s.params.mapMax →
    (s.entry .map 0).mapDir = .dir d → (s.entry .map 0).mapInst = 0 →
    (s.entry .map 0).mapCount.toNat = n → (s.entry .map 1).mapDir = .endMarker →
    (n ≤ 8 * s.size d.buf →
      exec .compile s = .next { s with
        layoutValid := true, layoutCount := 1, notifyNeed := 0
        rdBits := if d = .read then BitVec.ofNat 32 n else 0
        wrBits := if d = .write then BitVec.ofNat 32 n else 0
        layout := [{ dir := d, kind := .noop, byte := 0, bit := 0, width := 0,
                     stride := BitVec.ofNat 16 n, span := 1, slot := 0, origin := 0, inst := 0,
                     elem := 0, hook := .none }]
        draws := s.draws + 1, errcode := 0, errinfo := 0 }) ∧
    (8 * s.size d.buf < n →
      ∃ t, exec .compile s = .next t ∧ t.layoutValid = false ∧ t.errcode = 0x08#8 ∧
        t.errinfo = BitVec.ofNat 32 (if d = .write then 2 ^ 31 + n else n))

/-- A map list of one entry on a scalar ADI of a data type, naming `cnt` elements from START (all the
remaining ones, or COUNT of them), compiles to `cnt` consecutive entries, element START + j at bit
j·width in slot BASE + START + j, and counts one notification for a notifying read entry
(41_config_and_compile.md R202, R203, R217, R219, R222; R226 is the case of 3 elements from 0). -/
def Obligations.ScalarEntryExpandsToConsecutiveElements : Prop :=
  ∀ (s : State) (d : Dir) (i cnt : Nat) (t : ElemType),
    s.layoutValid = false → s.params.Legal → s.RegistryOk → 2 ≤ s.params.mapMax →
    (s.entry .map 0).mapDir = .dir d → (s.entry .map 1).mapDir = .endMarker →
    i < s.descs → (s.entry .map 0).mapInst = (s.entry .desc i).descInst →
    (s.entry .desc i).descStruct = false →
    elemType (s.entry .desc i).descType = some t → t.isPad = false →
    (((s.entry .map 0).mapCount = 0 ∧
        (s.entry .map 0).mapStart.toNat + cnt = (s.entry .desc i).descNelem.toNat) ∨
      ((s.entry .map 0).mapCount ≠ 0 ∧ (s.entry .map 0).mapCount.toNat = cnt ∧
        (s.entry .map 0).mapStart.toNat + cnt ≤ (s.entry .desc i).descNelem.toNat)) →
    (s.entry .desc i).descBase.toNat + (s.entry .map 0).mapStart.toNat + cnt ≤ s.params.vsSlots →
    cnt ≤ s.params.layoutMax → cnt * t.width s.params.boolBits ≤ 8 * s.size d.buf →
    ∃ es : List LayoutEntry,
      exec .compile s = .next { s with
        layoutValid := true, layoutCount := BitVec.ofNat 16 cnt, layout := es
        rdBits := if d = .read then BitVec.ofNat 32 (cnt * t.width s.params.boolBits) else 0
        wrBits := if d = .write then BitVec.ofNat 32 (cnt * t.width s.params.boolBits) else 0
        notifyNeed :=
          if d = .read ∧ 0 < cnt ∧
            ((s.entry .desc i).descHook = .notifyOnSet ∨
              (s.entry .desc i).descHook = .validateOnSet) then 1 else 0
        draws := s.draws + 1, errcode := 0, errinfo := 0 } ∧
      es.length = cnt ∧
      ∀ j, j < cnt → es[j]? = some
        { dir := d, kind := .data
          byte := BitVec.ofNat 16 (j * t.width s.params.boolBits / 8)
          bit := BitVec.ofNat 3 (j * t.width s.params.boolBits % 8)
          width := BitVec.ofNat 8 (t.width s.params.boolBits)
          stride := BitVec.ofNat 16 (t.width s.params.boolBits)
          span := 1
          slot := BitVec.ofNat 16
            ((s.entry .desc i).descBase.toNat + ((s.entry .map 0).mapStart.toNat + j))
          origin := 0, inst := (s.entry .desc i).descInst
          elem := BitVec.ofNat 8 ((s.entry .map 0).mapStart.toNat + j)
          hook := (s.entry .desc i).descHook }

/-- After a pad that leaves its direction's cursor off a byte boundary, a byte-class element of that
direction fails with OffsetAlignmentError and the map index (41_config_and_compile.md R214). -/
def Obligations.MisalignedByteElementIsRefused : Prop :=
  ∀ (s : State) (d : Dir) (i : Nat) (t : ElemType),
    s.layoutValid = false → s.params.Legal → s.RegistryOk → 2 ≤ s.params.mapMax →
    (s.entry .map 0).mapDir = .dir d → (s.entry .map 0).mapInst = 0 →
    (s.entry .map 0).mapCount.toNat % 8 ≠ 0 →
    (s.entry .map 1).mapDir = .dir d → i < s.descs →
    (s.entry .map 1).mapInst = (s.entry .desc i).descInst →
    (s.entry .desc i).descStruct = false →
    elemType (s.entry .desc i).descType = some t → t.byteClass s.params.boolBits = true →
    (s.entry .map 1).mapCount ≠ 0 →
    (s.entry .map 1).mapStart.toNat + (s.entry .map 1).mapCount.toNat ≤
      (s.entry .desc i).descNelem.toNat →
    ∃ u, exec .compile s = .next u ∧ u.layoutValid = false ∧ u.errcode = 0x07#8 ∧ u.errinfo = 1

/-- A successful COMPILE leaves a layout with every property of 41_config_and_compile.md R225: the
entries of a direction tile its bits, both directions fit, byte-class entries are aligned and whole
bytes wide, data and no-op entries have their ranges, the entries of one ORIGIN follow one another
from START in one direction, and NOTIFY_NEED is within NOTIFY_DEPTH. -/
def Obligations.SuccessfulCompileGivesAValidLayout : Prop :=
  ∀ s t : State, s.params.Legal → s.layoutValid = false → exec .compile s = .next t →
    t.layoutValid = true → t.errcode = 0 ∧ t.errinfo = 0 ∧ t.LayoutOk

/-- COMPILE without a layout either succeeds or fails with a report and leaves LAYOUT_VALID and the
layout counters 0, FATAL as it was; in both cases it writes only the layout, its counters and the
report (41_config_and_compile.md R223). -/
def Obligations.FailingCompileLeavesNoLayout : Prop :=
  ∀ s : State, s.layoutValid = false →
    ∃ t, exec .compile s = .next t ∧
      t = { s with
        layoutValid := t.layoutValid, layout := t.layout, layoutCount := t.layoutCount
        rdBits := t.rdBits, wrBits := t.wrBits, notifyNeed := t.notifyNeed, draws := t.draws
        errcode := t.errcode, errinfo := t.errinfo } ∧
      (t.layoutValid = true ↔ t.errcode = 0) ∧
      (t.layoutValid = false →
        t.layoutCount = 0 ∧ t.rdBits = 0 ∧ t.wrBits = 0 ∧ t.notifyNeed = 0)

/-- COMPILE while LAYOUT_VALID = 1 only clears the report; otherwise what it produces depends only on
DESC, DESC_COUNT, MEMB, MAP, the sizes and the parameters; and after a SETSZ to the same sizes it
produces the same layout again (41_config_and_compile.md R224). -/
def Obligations.CompileIsIdempotentAndReadsOnlyItsInputs : Prop :=
  (∀ s : State, s.layoutValid = true →
    exec .compile s = .next { s with errcode := 0, errinfo := 0 }) ∧
  (∀ s u : State, s.layoutValid = false → u.layoutValid = false →
    s.desc = u.desc → s.descCount = u.descCount → s.memb = u.memb → s.map = u.map →
    s.rdSize = u.rdSize → s.wrSize = u.wrSize → s.params = u.params →
    ∃ t v, exec .compile s = .next t ∧ exec .compile u = .next v ∧
      t.layoutValid = v.layoutValid ∧ t.layout = v.layout ∧ t.layoutCount = v.layoutCount ∧
      t.rdBits = v.rdBits ∧ t.wrBits = v.wrBits ∧ t.notifyNeed = v.notifyNeed ∧
      t.errcode = v.errcode ∧ t.errinfo = v.errinfo) ∧
  (∀ s t u : State, s.layoutValid = false → exec .compile s = .next t → t.layoutValid = true →
    exec .setsz { t with arg := t.wrSize ++ t.rdSize } = .next u → u.errcode = 0 →
    ∃ v, exec .compile u = .next v ∧ v.layoutValid = true ∧ v.layout = t.layout ∧
      v.layoutCount = t.layoutCount ∧ v.rdBits = t.rdBits ∧ v.wrBits = t.wrBits ∧
      v.notifyNeed = t.notifyNeed)

/-! ### PACK and UNPACK -/

/-- PACK and UNPACK while LAYOUT_VALID = 0 report NoLayout(0) and change nothing else
(42_pack_unpack.md R241). -/
def Obligations.ExchangeWithoutLayoutOnlyReports : Prop :=
  ∀ s : State, s.layoutValid = false →
    exec .pack s = .next { s with errcode := 0x0A#8, errinfo := 0 } ∧
    exec .unpack s = .next { s with errcode := 0x0A#8, errinfo := 0 }

/-- The first write-direction data entry that ends past the write buffer stops PACK with the fatal
OutOfBounds and its index, nothing written (42_pack_unpack.md R242). -/
def Obligations.PackStopsFatallyAtTheFirstOverrun : Prop :=
  ∀ (s : State) (n : Nat) (e : LayoutEntry), s.layoutValid = true →
    (s.layout.take s.layoutCount.toNat)[n]? = some e → e.dir = .write → e.kind = .data →
    8 * s.wrSize.toNat < e.endPos →
    (∀ (k : Nat) (f : LayoutEntry), k < n → (s.layout.take s.layoutCount.toNat)[k]? = some f →
      f.dir = .write → f.kind = .data → f.endPos ≤ 8 * s.wrSize.toNat) →
    exec .pack s = .next { s with
      errcode := 0x01#8, errinfo := BitVec.ofNat 32 n, fatal := true }

/-- The first read-direction data entry that ends past the read buffer stops UNPACK with the fatal
OutOfBounds and its index, nothing stored and no event queued (42_pack_unpack.md R250). -/
def Obligations.UnpackStopsFatallyAtTheFirstOverrun : Prop :=
  ∀ (s : State) (n : Nat) (e : LayoutEntry), s.layoutValid = true →
    s.notifyNeed.toNat ≤ s.params.notifyDepth - s.nq.length →
    (s.layout.take s.layoutCount.toNat)[n]? = some e → e.dir = .read → e.kind = .data →
    8 * s.rdSize.toNat < e.endPos →
    (∀ (k : Nat) (f : LayoutEntry), k < n → (s.layout.take s.layoutCount.toNat)[k]? = some f →
      f.dir = .read → f.kind = .data → f.endPos ≤ 8 * s.rdSize.toNat) →
    exec .unpack s = .next { s with
      errcode := 0x01#8, errinfo := BitVec.ofNat 32 n, fatal := true }

/-- PACK over a valid layout completes: every item of every write-direction data entry is in WRPD, all
other bits of WRPD keep their value, every byte without a bit of such an entry keeps its value, and
nothing else changes but the cleared report (42_pack_unpack.md R244, R245, R246). -/
def Obligations.PackWritesExactlyTheMappedFields : Prop :=
  ∀ s : State, s.layoutValid = true → s.LayoutOk → Memory.wf s.wrpd →
    ∃ m : Memory,
      exec .pack s = .next { s with wrpd := m, errcode := 0, errinfo := 0 } ∧ Memory.wf m ∧
      (∀ e ∈ s.layout, e.dir = .write → e.kind = .data → ∀ i, i < e.span.toNat →
        fieldRead m (e.pos + i * e.stride.toNat) e.width.toNat =
          (s.vsSlot (e.slot.toNat + i)).setWidth e.width.toNat) ∧
      (∀ q, (∀ e ∈ s.layout, e.dir = .write → e.kind = .data → q < e.pos ∨ e.endPos ≤ q) →
        Memory.bitAt m q = Memory.bitAt s.wrpd q) ∧
      (∀ a, (∀ e ∈ s.layout, e.dir = .write → e.kind = .data →
          8 * a + 8 ≤ e.pos ∨ e.endPos ≤ 8 * a) →
        Memory.read m a = Memory.read s.wrpd a)

/-- UNPACK without room for all its events reports NotifyFull(NOTIFY_NEED) and changes nothing else
(42_pack_unpack.md R249). -/
def Obligations.UnpackWithoutRoomOnlyReports : Prop :=
  ∀ s : State, s.layoutValid = true →
    s.params.notifyDepth - s.nq.length < s.notifyNeed.toNat →
    exec .unpack s = .next { s with errcode := 0x0F#8, errinfo := s.notifyNeed.setWidth 32 }

/-- UNPACK over a valid layout with room completes: a slot that a read-direction item names and no later
item names holds that item's field, zero-extended; every slot no item names keeps its value; nothing
changes but VS, NQ and the cleared report (42_pack_unpack.md R251, R252, R255). -/
def Obligations.UnpackStoresTheLastNamedFields : Prop :=
  ∀ s : State, s.layoutValid = true → s.LayoutOk → s.vs.length = s.params.vsSlots →
    s.notifyNeed.toNat ≤ s.params.notifyDepth - s.nq.length →
    ∃ (vs : List Slot) (nq : List Word),
      exec .unpack s = .next { s with vs := vs, nq := nq, errcode := 0, errinfo := 0 } ∧
      vs.length = s.vs.length ∧
      (∀ (n : Nat) (e : LayoutEntry) (i : Nat), s.layout[n]? = some e → e.dir = .read →
        e.kind = .data → i < e.span.toNat →
        (∀ (n' : Nat) (e' : LayoutEntry) (i' : Nat), s.layout[n']? = some e' → e'.dir = .read →
          e'.kind = .data → i' < e'.span.toNat → (n < n' ∨ (n = n' ∧ i < i')) →
          e'.slot.toNat + i' ≠ e.slot.toNat + i) →
        vs[e.slot.toNat + i]? =
          some ((fieldRead s.rdpd (e.pos + i * e.stride.toNat) e.width.toNat).setWidth 64)) ∧
      (∀ k, (∀ e ∈ s.layout, e.dir = .read → e.kind = .data →
          k < e.slot.toNat ∨ e.slot.toNat + e.span.toNat ≤ k) →
        vs[k]? = s.vs[k]?)

/-- A completing UNPACK appends to NQ, in layout order, one event for each maximal run of read-direction
entries of one ORIGIN with INSTANCE ≠ 0 and HOOK 2 or 3, holding INSTANCE, the first ELEM and the
number of elements; over a valid layout they are NOTIFY_NEED events (42_pack_unpack.md R253). -/
def Obligations.UnpackQueuesOneEventPerOriginGroup : Prop :=
  ∀ s t : State, s.layoutValid = true → s.LayoutOk →
    s.notifyNeed.toNat ≤ s.params.notifyDepth - s.nq.length →
    exec .unpack s = .next t →
    t.nq = s.nq ++ (originRuns s.layout).flatMap runEvents ∧
    t.nq.length = s.nq.length + s.notifyNeed.toNat

/-- PACK, a copy of WRPD[0 .. WR_SIZE-1] into RDPD, UNPACK: a read item at the position and width of a
write item leaves in its slot the low bits of the value the write item packed, zero-extended, if no
later item names that slot (42_pack_unpack.md R256). -/
def Obligations.PackCopyUnpackReturnsTheValues : Prop :=
  ∀ (s t : State) (m : Memory) (pre post : List LayoutEntry) (ew er : LayoutEntry) (i : Nat),
    s.layoutValid = true → s.LayoutOk → Memory.wf s.wrpd → s.vs.length = s.params.vsSlots →
    s.notifyNeed.toNat ≤ s.params.notifyDepth - s.nq.length →
    exec .pack s = .next t →
    (∀ a, a < s.wrSize.toNat → Memory.read m a = Memory.read t.wrpd a) →
    ew ∈ s.layout → ew.dir = .write → ew.kind = .data →
    s.layout = pre ++ er :: post → er.dir = .read → er.kind = .data →
    er.pos = ew.pos → er.width = ew.width → er.span = ew.span → i < er.span.toNat →
    (∀ f ∈ post, f.dir = .read → f.kind = .data →
      er.slot.toNat + i < f.slot.toNat ∨ f.slot.toNat + f.span.toNat ≤ er.slot.toNat + i) →
    ∃ u, exec .unpack { t with rdpd := m } = .next u ∧ u.errcode = 0 ∧
      u.vs[er.slot.toNat + i]? =
        some (((s.vsSlot (ew.slot.toNat + i)).setWidth ew.width.toNat).setWidth 64)

/-! ### Registers and ports -/

/-- The STATUS word, and that a read at its offset returns it, with BUSY = 1 too (10_state.md R36;
20_memory.md R88; the reply and the schedule are the model's, log entries 5 and 3). -/
def Obligations.StatusWordFields : Prop :=
  ∀ s : State,
    (s.status.getLsbD 0 = s.busy ∧
      (s.status.getLsbD 1 = true ↔ s.errcode ≠ 0) ∧
      s.status.getLsbD 2 = s.fatal ∧ s.status.getLsbD 3 = s.layoutValid ∧
      s.status.extractLsb' 4 4 = 0 ∧ s.status.extractLsb' 8 8 = s.errcode ∧
      s.status.extractLsb' 16 8 = BitVec.ofNat 8 s.nq.length ∧ s.status.extractLsb' 24 8 = 0) ∧
    ∀ rest, s.accesses (.regRead 0x0C) rest →
      step s = .next { s with sched := rest, replies := s.status.setWidth 64 :: s.replies }

/-- A write of CMD with BUSY = 0, by HOST or by TRANSPORT (log entry 9), latches the word and sets BUSY,
a read of CMD returns 0 (10_state.md R33). -/
def Obligations.CommandWriteLatchesTheWord : Prop :=
  ∀ (s : State) (c : Word) (rest : List Event), s.busy = false →
    (s.accesses (.regWrite 0x00 c) rest →
      step s = .next { s with sched := rest, pending := c, busy := true }) ∧
    (s.accesses (.regRead 0x00) rest →
      step s = .next { s with sched := rest, replies := 0 :: s.replies })

/-- A read of a register returns it and changes nothing, the bits above a field narrower than 32 being
0; ARG takes a whole word, DESC_COUNT the low half of one unless the layout locks it (10_state.md R34,
R35, R40 to R46; 20_memory.md R88). Both agents have the accesses (log entry 9); STATUS is in
StatusWordFields, CMD in CommandWriteLatchesTheWord, NOTIFY_POP in NotifyPopTakesTheHead. -/
def Obligations.ArgAndDescCountTakeWrites : Prop :=
  ∀ (s : State) (rest : List Event), s.busy = false →
    (∀ off x, (off, x) ∈
        [(0x04, s.arg.toNat), (0x08, s.result.toNat), (0x10, s.errinfo.toNat),
          (0x14, s.cursor.toNat), (0x18, 2 ^ 16 * s.wrSize.toNat + s.rdSize.toNat),
          (0x1C, s.descCount.toNat), (0x20, s.layoutCount.toNat), (0x24, s.rdBits.toNat),
          (0x28, s.wrBits.toNat), (0x2C, s.notifyNeed.toNat)] →
      s.accesses (.regRead off) rest →
      step s = .next { s with sched := rest, replies := BitVec.ofNat 64 x :: s.replies }) ∧
    (∀ v, s.accesses (.regWrite 0x04 v) rest → step s = .next { s with sched := rest, arg := v }) ∧
    (∀ v, s.accesses (.regWrite 0x1C v) rest → s.layoutValid = false →
      step s = .next { s with sched := rest, descCount := v.extractLsb' 0 16 })

/-- A write to any register but CMD, ARG and DESC_COUNT, assigned or not, is ignored; a read at an
unassigned offset returns 0 (10_state.md section 2; that offsets that are no multiple of 4 are among
these is log entry 15, that both agents have the accesses log entry 9). -/
def Obligations.OtherRegisterWritesAreIgnored : Prop :=
  ∀ (s : State) (off : Nat) (v : Word) (rest : List Event), s.busy = false →
    (off ∉ [0x00, 0x04, 0x1C] → s.accesses (.regWrite off v) rest →
      step s = .next { s with sched := rest }) ∧
    (off ∉ [0x00, 0x04, 0x08, 0x0C, 0x10, 0x14, 0x18, 0x1C, 0x20, 0x24, 0x28, 0x2C, 0x30] →
      s.accesses (.regRead off) rest →
      step s = .next { s with sched := rest, replies := 0 :: s.replies })

/-- While LAYOUT_VALID = 1 a write to DESC, MEMB, MAP or DESC_COUNT is ignored and reports nothing, and
a read returns the word; while it is 0 the write takes place (10_state.md R57; both agents, log
entry 9). -/
def Obligations.LayoutLocksTheTables : Prop :=
  ∀ (s : State) (tab : Table) (i j : Nat) (v : Word) (rest : List Event), s.busy = false →
    (s.layoutValid = true →
      (s.accesses (.tableWrite tab i j v) rest → step s = .next { s with sched := rest }) ∧
      (s.accesses (.regWrite 0x1C v) rest → step s = .next { s with sched := rest }) ∧
      (∀ e, i < s.tableMax tab → (s.table tab)[i]? = some e → j < 2 →
        s.accesses (.tableRead tab i j) rest →
        step s = .next { s with
          sched := rest, replies := (if j = 0 then e.w0 else e.w1).setWidth 64 :: s.replies })) ∧
    (s.layoutValid = false → i < s.tableMax tab → (s.table tab).length = s.tableMax tab → j < 2 →
      s.accesses (.tableWrite tab i j v) rest →
      ∃ t e, step s = .next t ∧ (t.table tab)[i]? = some e ∧
        (if j = 0 then e.w0 else e.w1) = v) ∧
    (s.layoutValid = false → s.accesses (.regWrite 0x1C v) rest →
      ∃ t, step s = .next t ∧ t.descCount = v.extractLsb' 0 16)

/-- A port read in range returns the byte, the slot or the table word and changes nothing; a port write
of one changes it and no other element of any space; and a write followed by a read of the same element,
by either agent, replies the value written (20_memory.md R88; that TRANSPORT has HOST's accesses is log
entry 9, the schedule and the replies are log entries 3 and 5). -/
def Obligations.PortWritesAreReadBack : Prop :=
  ∀ s : State, s.MemoriesOk → s.busy = false →
    (∀ (buf : Buf) (i : Nat) (v : Byte) (rest : List Event), i < s.params.pdMaxBytes →
      (s.accesses (.bufRead buf i) rest →
        step s = .next { s with
          sched := rest, replies := (Memory.read (s.mem buf) i).setWidth 64 :: s.replies }) ∧
      (s.accesses (.bufWrite buf i v) rest →
        ∃ m, step s = .next (State.withMem buf m { s with sched := rest }) ∧
          ∀ j, Memory.read m j = if j = i then v else Memory.read (s.mem buf) j) ∧
      (∀ e, e ∈ [Event.host (.bufRead buf i), .transport (.bufRead buf i)] →
        s.accesses (.bufWrite buf i v) (e :: rest) →
        ∃ t, Host.Core.run Sys2Proof.core 2 s = .next t ∧
          t.replies = v.setWidth 64 :: s.replies)) ∧
    (∀ (i : Nat) (v : Slot) (rest : List Event), i < s.params.vsSlots →
      (s.accesses (.vsRead i) rest →
        ∃ x, s.vs[i]? = some x ∧
          step s = .next { s with sched := rest, replies := x :: s.replies }) ∧
      (s.accesses (.vsWrite i v) rest →
        ∃ vs, step s = .next { s with sched := rest, vs := vs } ∧ vs.length = s.vs.length ∧
          ∀ j, j < s.params.vsSlots → vs[j]? = if j = i then some v else s.vs[j]?) ∧
      (∀ e, e ∈ [Event.host (.vsRead i), .transport (.vsRead i)] →
        s.accesses (.vsWrite i v) (e :: rest) →
        ∃ t, Host.Core.run Sys2Proof.core 2 s = .next t ∧ t.replies = v :: s.replies)) ∧
    (∀ (tab : Table) (i j : Nat) (v : Word) (rest : List Event), i < s.tableMax tab → j < 2 →
      (s.accesses (.tableRead tab i j) rest →
        ∃ e, (s.table tab)[i]? = some e ∧
          step s = .next { s with
            sched := rest, replies := (if j = 0 then e.w0 else e.w1).setWidth 64 :: s.replies }) ∧
      (s.layoutValid = false → s.accesses (.tableWrite tab i j v) rest →
        ∃ es, step s = .next (State.withTable tab es { s with sched := rest }) ∧
          es.length = (s.table tab).length ∧
          ∀ i' j', i' < s.tableMax tab → j' < 2 →
            (es[i']?.map fun e => if j' = 0 then e.w0 else e.w1) =
              if i' = i ∧ j' = j then some v
              else (s.table tab)[i']?.map fun e => if j' = 0 then e.w0 else e.w1) ∧
      (∀ e, s.layoutValid = false →
        e ∈ [Event.host (.tableRead tab i j), .transport (.tableRead tab i j)] →
        s.accesses (.tableWrite tab i j v) (e :: rest) →
        ∃ t, Host.Core.run Sys2Proof.core 2 s = .next t ∧
          t.replies = v.setWidth 64 :: s.replies))

/-- A port access with an index at or above the size of its space, or with a word number out of range,
reads 0 or is ignored (20_memory.md R88; both agents, log entry 9). -/
def Obligations.OutOfRangeIndicesReadZeroAndIgnoreWrites : Prop :=
  ∀ (s : State) (rest : List Event), s.busy = false →
    (∀ a : Access,
      ((∃ buf i, a = .bufRead buf i ∧ s.params.pdMaxBytes ≤ i) ∨
        (∃ i, a = .vsRead i ∧ s.params.vsSlots ≤ i) ∨
        (∃ tab i j, a = .tableRead tab i j ∧ (s.tableMax tab ≤ i ∨ 2 ≤ j)) ∨
        (∃ i j, a = .layoutRead i j ∧ (s.params.layoutMax ≤ i ∨ 4 ≤ j))) →
      s.accesses a rest →
        step s = .next { s with sched := rest, replies := 0 :: s.replies }) ∧
    (∀ a : Access,
      ((∃ buf i v, a = .bufWrite buf i v ∧ s.params.pdMaxBytes ≤ i) ∨
        (∃ i v, a = .vsWrite i v ∧ s.params.vsSlots ≤ i) ∨
        (∃ tab i j v, a = .tableWrite tab i j v ∧ (s.tableMax tab ≤ i ∨ 2 ≤ j))) →
      s.accesses a rest → step s = .next { s with sched := rest })

/-- A read of NOTIFY_POP, by either agent (log entry 9), returns the head of NQ and removes it, or
returns 0 and changes nothing if NQ is empty; a write is ignored; in a queue of events (RangesOk) the
head is never 0 (10_state.md R47). -/
def Obligations.NotifyPopTakesTheHead : Prop :=
  ∀ (s : State) (rest : List Event), s.busy = false →
    (∀ e es, s.nq = e :: es → s.accesses (.regRead 0x30) rest →
      step s = .next { s with
        sched := rest, nq := es, replies := e.setWidth 64 :: s.replies }) ∧
    (s.nq = [] → s.accesses (.regRead 0x30) rest →
      step s = .next { s with sched := rest, replies := 0 :: s.replies }) ∧
    (∀ v, s.accesses (.regWrite 0x30 v) rest → step s = .next { s with sched := rest }) ∧
    (∀ e es, s.RangesOk → s.nq = e :: es → e ≠ 0)

/-- A read of LAYOUT, by either agent (log entry 9), replies the read-back word; the four read-back
words of a layout entry in force hold its fields; with LAYOUT_VALID = 1 the bits that R62 fixes to 0 are
0 for every entry of LAYOUT; and a write to LAYOUT is ignored (10_state.md R62). -/
def Obligations.LayoutReadBackWords : Prop :=
  (∀ (s : State) (n : Nat) (e : LayoutEntry), s.layoutValid = true → n < s.params.layoutMax →
    n < s.layoutCount.toNat → s.layout[n]? = some e →
    ((s.layoutReadValue n 0).extractLsb' 0 16 = e.byte ∧
      (s.layoutReadValue n 0).extractLsb' 16 3 = e.bit ∧
      ((s.layoutReadValue n 0).getLsbD 19 = true ↔ e.dir = .write) ∧
      ((s.layoutReadValue n 0).getLsbD 20 = true ↔ e.kind = .noop) ∧
      (s.layoutReadValue n 0).extractLsb' 21 2 =
        (match e.hook with
          | .none => 0 | .notifyOnGet => 1 | .notifyOnSet => 2 | .validateOnSet => 3) ∧
      (s.layoutReadValue n 0).extractLsb' 23 9 = 0) ∧
    ((s.layoutReadValue n 1).extractLsb' 0 8 = e.width ∧
      (s.layoutReadValue n 1).extractLsb' 8 8 = e.span ∧
      (s.layoutReadValue n 1).extractLsb' 16 16 = e.stride) ∧
    ((s.layoutReadValue n 2).extractLsb' 0 16 = e.slot ∧
      (s.layoutReadValue n 2).extractLsb' 16 16 = e.origin) ∧
    ((s.layoutReadValue n 3).extractLsb' 0 16 = e.inst ∧
      (s.layoutReadValue n 3).extractLsb' 16 8 = e.elem ∧
      (s.layoutReadValue n 3).extractLsb' 24 8 = 0)) ∧
  (∀ (s : State) (n : Nat), s.layoutValid = true →
    (s.layoutReadValue n 0).extractLsb' 23 9 = 0 ∧ (s.layoutReadValue n 3).extractLsb' 24 8 = 0) ∧
  (∀ (s : State) (n j : Nat) (v : Word) (rest : List Event), s.busy = false →
    (s.accesses (.layoutRead n j) rest →
      step s = .next { s with
        sched := rest, replies := (s.layoutReadValue n j).setWidth 64 :: s.replies }) ∧
    (s.accesses (.layoutWrite n j v) rest → step s = .next { s with sched := rest }))

/-! ### Reset -/

/-- A reset, even with a command pending, puts every register, the queue and both buffers at the reset
value, discards the pending word (70_reset_and_hazards.md R300, R301) and leaves memories of the full
size whose contents are unspecified (log entry 2). That it keeps the parameters, the schedule and the
replies, which are not the block's, is the model's choice (log entry 10). -/
def Obligations.ResetRestoresTheResetState : Prop :=
  ∀ (s : State) (rest : List Event), s.sched = .reset :: rest →
    ∃ t, step s = .next t ∧
      t.pending = 0 ∧ t.busy = false ∧ t.arg = 0 ∧ t.result = 0 ∧ t.errinfo = 0 ∧ t.cursor = 0 ∧
      t.errcode = 0 ∧ t.fatal = false ∧ t.layoutValid = false ∧ t.status = 0 ∧
      t.rdSize = 0 ∧ t.wrSize = 0 ∧ t.descCount = 0 ∧ t.layoutCount = 0 ∧
      t.rdBits = 0 ∧ t.wrBits = 0 ∧ t.notifyNeed = 0 ∧ t.nq = [] ∧
      (∀ b a, Memory.read (t.mem b) a = 0) ∧
      t.vs.length = s.params.vsSlots ∧ t.desc.length = s.params.descMax ∧
      t.memb.length = s.params.membMax ∧ t.map.length = s.params.mapMax ∧
      t.params = s.params ∧ t.sched = rest ∧ t.replies = s.replies

/-- Right after reset a codec command with p + w > 0 fails OutOfBounds and one with p = w = 0 succeeds,
PACK and UNPACK fail NoLayout, COMPILE fails EmptyRegistry (70_reset_and_hazards.md R302). -/
def Obligations.RightAfterReset : Prop :=
  ∀ (p : Config.Params) (draw : Nat) (sched : List Event) (replies : List (BitVec 64)) (buf : Buf),
    (∀ (width : BitVec 6) (bitOff : BitVec 3) (byteOff : BitVec 16),
      ∀ i ∈ [Instr.rdb buf width bitOff byteOff, .wrb buf width bitOff byteOff],
        (0 < 8 * byteOff.toNat + bitOff.toNat + width.toNat →
          ∃ t, exec i (State.resetWith p draw sched replies) = .next t ∧ t.errcode = 0x01#8) ∧
        (8 * byteOff.toNat + bitOff.toNat + width.toNat = 0 →
          ∃ t, exec i (State.resetWith p draw sched replies) = .next t ∧ t.errcode = 0)) ∧
    (∀ width : BitVec 6, ∀ i ∈ [Instr.rdc buf width, .wrc buf width],
      (0 < width.toNat →
        ∃ t, exec i (State.resetWith p draw sched replies) = .next t ∧ t.errcode = 0x01#8) ∧
      (width.toNat = 0 →
        ∃ t, exec i (State.resetWith p draw sched replies) = .next t ∧ t.errcode = 0)) ∧
    (∃ t, exec .pack (State.resetWith p draw sched replies) = .next t ∧ t.errcode = 0x0A#8) ∧
    (∃ t, exec .unpack (State.resetWith p draw sched replies) = .next t ∧ t.errcode = 0x0A#8) ∧
    (∃ t, exec .compile (State.resetWith p draw sched replies) = .next t ∧ t.errcode = 0x04#8)

/-! ### The whole machine -/

/-- The reset state meets the invariant, for all legal parameters and whatever the unspecified contents
are; `State.reset` is one such state (70_reset_and_hazards.md R301; its parameters are the model's
choice, log entry 1). -/
def Obligations.ResetMeetsTheInvariant : Prop :=
  (∀ (p : Config.Params) (draw : Nat) (sched : List Event) (replies : List (BitVec 64)),
    p.Legal → (State.resetWith p draw sched replies).Inv) ∧
  State.reset.Inv

/-- Every step, of whichever agent, keeps the invariant: memories in canonical form and of full size,
sizes and queue within their ranges, a valid layout as R225 says, counters 0 without one, FATAL = 0
(10_state.md R39, R42, R44 to R46, R60; 41_config_and_compile.md R225; 42_pack_unpack.md R254). -/
def Obligations.EveryStepKeepsTheInvariant : Prop :=
  ∀ s t : State, s.Inv → step s = .next t → t.Inv

/-- In every run from reset, with any legal parameters and any accesses of the other agents, FATAL is 0,
and a layout in force fits its buffers (42_pack_unpack.md R254; the accesses are the schedule, log
entry 3). -/
def Obligations.FatalIsUnreachableFromReset : Prop :=
  ∀ (p : Config.Params) (draw : Nat) (sched : List Event) (replies : List (BitVec 64)) (n : Nat)
    (t : State), p.Legal →
    Host.Core.run Sys2Proof.core n (State.resetWith p draw sched replies) = .next t →
    t.fatal = false ∧
      (t.layoutValid = true → ∀ e ∈ t.layout, e.endPos ≤ 8 * t.size e.dir.buf)

/-- Only PACK or UNPACK sets FATAL, on a data entry of its direction that overruns the buffer, with
OutOfBounds; only reset clears it; while it is 1 the ENGINE ignores every command (10_state.md R38).
That an empty schedule gives the ENGINE the turn is the model's choice (log entry 3), and that a turn
with BUSY = 0 changes nothing its reading (log entry 18). -/
def Obligations.OnlyExchangeSetsAndOnlyResetClearsFatal : Prop :=
  ∀ s t : State, step s = .next t →
    (s.fatal = false → t.fatal = true →
      s.busy = true ∧ t.errcode = 0x01#8 ∧
      ((decode s.pending = .ok .pack ∧ ∃ e ∈ s.layout.take s.layoutCount.toNat,
          e.dir = .write ∧ e.kind = .data ∧ 8 * s.wrSize.toNat < e.endPos) ∨
        (decode s.pending = .ok .unpack ∧ ∃ e ∈ s.layout.take s.layoutCount.toNat,
          e.dir = .read ∧ e.kind = .data ∧ 8 * s.rdSize.toNat < e.endPos))) ∧
    (s.fatal = true → t.fatal = false → ∃ rest, s.sched = .reset :: rest) ∧
    (s.fatal = true → ∀ rest, (s.sched = .engine :: rest ∨ (s.sched = [] ∧ rest = [])) →
      t = { s with sched := rest, busy := false })

/-- What each command may write: ARG, the tables, DESC_COUNT, PENDING and the model's own inputs by none;
RESULT by RDB and RDC; CURSOR by the codec commands, SKIP and SETSZ; the sizes by SETSZ; RDPD and WRPD
by WRB and WRC on that buffer, SETSZ, and PACK for WRPD; VS and NQ by UNPACK; the layout and its
counters by SETSZ and COMPILE (10_state.md R34, R35, R41 to R46, R49 to R51, R60, R61). -/
def Obligations.CommandsWriteOnlyTheirOwnState : Prop :=
  ∀ (i : Instr) (s t : State), exec i s = .next t →
    (t.arg = s.arg ∧ t.desc = s.desc ∧ t.memb = s.memb ∧ t.map = s.map ∧
      t.descCount = s.descCount ∧ t.pending = s.pending ∧ t.busy = s.busy ∧
      t.params = s.params ∧ t.sched = s.sched ∧ t.replies = s.replies) ∧
    (t.result ≠ s.result → i.mnemonic ∈ ["RDB", "RDC"]) ∧
    (t.cursor ≠ s.cursor → i.mnemonic ∈ ["RDB", "WRB", "RDC", "WRC", "SKIP", "SETSZ"]) ∧
    (t.rdSize ≠ s.rdSize ∨ t.wrSize ≠ s.wrSize → i = .setsz) ∧
    (t.rdpd ≠ s.rdpd → i = .setsz ∨ ∃ p w, writtenField i s = some (.rd, p, w)) ∧
    (t.wrpd ≠ s.wrpd → i = .setsz ∨ i = .pack ∨ ∃ p w, writtenField i s = some (.wr, p, w)) ∧
    (t.vs ≠ s.vs ∨ t.nq ≠ s.nq → i = .unpack) ∧
    (t.layoutValid ≠ s.layoutValid ∨ t.layout ≠ s.layout ∨ t.layoutCount ≠ s.layoutCount ∨
        t.rdBits ≠ s.rdBits ∨ t.wrBits ≠ s.wrBits ∨ t.notifyNeed ≠ s.notifyNeed →
      i = .setsz ∨ i = .compile)

/-- Errors are precise: a command other than COMPILE that ends with an error changes ERRCODE, ERRINFO
and, with OutOfBounds alone, FATAL, and nothing else (60_exceptions.md R274; for COMPILE see
FailingCompileLeavesNoLayout). -/
def Obligations.FailingCommandChangesNothingElse : Prop :=
  ∀ (i : Instr) (s t : State), exec i s = .next t → t.errcode ≠ 0 → i ≠ .compile →
    t = { s with errcode := t.errcode, errinfo := t.errinfo, fatal := t.fatal } ∧
    (t.fatal ≠ s.fatal → t.errcode = 0x01#8)

/-! ### COMPILE over any map list -/

/-- After any number `k` of map entries whose elements all pass, the first failing check decides the
report of COMPILE: no entry left, DIR = 2, an unknown INSTANCE, a range outside the ADI, then for each
element in order the alignment, the slots and the room in LAYOUT, and after the terminal entry the read
buffer, the write buffer and the notifications (41_config_and_compile.md R200 to R202, R214 to R221;
60_exceptions.md R270, R271, R276). -/
def Obligations.FirstFailingMapCheckIsReported : Prop :=
  ∀ (s : State) (k : Nat) (xss : List (List MappedItem)),
    s.layoutValid = false → s.RegistryOk → xss.length = k → k ≤ s.params.mapMax →
    (∀ j xs, xss[j]? = some xs → s.mapsTo j xs) → s.elementsOk xss.flatten →
    let fails := fun (code : BitVec 8) (info : Nat) =>
      ∃ t, exec .compile s = .next t ∧ t.layoutValid = false ∧ t.errcode = code ∧
        t.errinfo = BitVec.ofNat 32 info
    let rdBits := mappedBits s.params.boolBits .read xss.flatten
    let wrBits := mappedBits s.params.boolBits .write xss.flatten
    (k = s.params.mapMax → fails 0x0E k) ∧
    (k < s.params.mapMax → (s.entry .map k).mapDir = .invalid → fails 0x0D k) ∧
    (∀ d, k < s.params.mapMax → (s.entry .map k).mapDir = .dir d → (s.entry .map k).mapInst ≠ 0 →
      (∀ i, i < s.descs → (s.entry .desc i).descInst ≠ (s.entry .map k).mapInst) →
      fails 0x05 k) ∧
    (∀ d i, k < s.params.mapMax → (s.entry .map k).mapDir = .dir d → i < s.descs →
      (s.entry .desc i).descInst = (s.entry .map k).mapInst →
      (s.entry .desc i).descNelem.toNat <
        (s.entry .map k).mapStart.toNat + (s.entry .map k).mapCount.toNat →
      fails 0x06 k) ∧
    (∀ xs m x, k < s.params.mapMax → s.mapsTo k xs → xs[m]? = some x →
      s.elementsOk (xss.flatten ++ xs.take m) →
      (s.misaligned (xss.flatten ++ xs.take m) x → fails 0x07 k) ∧
      (¬ s.misaligned (xss.flatten ++ xs.take m) x → s.lacksSlots x → fails 0x0C k) ∧
      (¬ s.misaligned (xss.flatten ++ xs.take m) x → ¬ s.lacksSlots x →
        (xss.flatten ++ xs.take m).length = s.params.layoutMax → fails 0x0B k)) ∧
    (k < s.params.mapMax → (s.entry .map k).mapDir = .endMarker →
      (8 * s.rdSize.toNat < rdBits → fails 0x08 (min rdBits (2 ^ 31 - 1))) ∧
      (rdBits ≤ 8 * s.rdSize.toNat → 8 * s.wrSize.toNat < wrBits →
        fails 0x08 (2 ^ 31 + min wrBits (2 ^ 31 - 1))) ∧
      (rdBits ≤ 8 * s.rdSize.toNat → wrBits ≤ 8 * s.wrSize.toNat →
        s.params.notifyDepth < mappedEvents xss → fails 0x10 (mappedEvents xss)))

/-- A map list of any length whose elements all pass, ended by a terminal entry, with both directions in
their buffers and the notifications within NOTIFY_DEPTH, compiles to one layout entry for each element,
scalar, member or pad, in order, each at the end of the ones before it in its direction; only the layout,
its counters and the report change (41_config_and_compile.md R200 to R203, R217, R219, R222; the draw
counter is the model's, log entry 4). -/
def Obligations.MapListCompilesToItsElements : Prop :=
  ∀ (s : State) (xss : List (List MappedItem)),
    s.layoutValid = false → s.RegistryOk → xss.length < s.params.mapMax →
    (∀ j xs, xss[j]? = some xs → s.mapsTo j xs) → s.elementsOk xss.flatten →
    (s.entry .map xss.length).mapDir = .endMarker →
    mappedBits s.params.boolBits .read xss.flatten ≤ 8 * s.rdSize.toNat →
    mappedBits s.params.boolBits .write xss.flatten ≤ 8 * s.wrSize.toNat →
    mappedEvents xss ≤ s.params.notifyDepth →
    exec .compile s = .next { s with
      layoutValid := true, layout := mappedLayout s.params.boolBits xss.flatten
      layoutCount := BitVec.ofNat 16 xss.flatten.length
      rdBits := BitVec.ofNat 32 (mappedBits s.params.boolBits .read xss.flatten)
      wrBits := BitVec.ofNat 32 (mappedBits s.params.boolBits .write xss.flatten)
      notifyNeed := BitVec.ofNat 8 (mappedEvents xss)
      draws := s.draws + 1, errcode := 0, errinfo := 0 }
end

