-- ==== Sys2Proof/Laws/Memory.lean ====
section
/-! SUPPORT. The byte memory: what a read gives after a write, and that every write keeps the
canonical form and the bounds (20_memory.md R81, R88). -/

namespace Sys2Proof.Machine

@[simp] theorem read_nil (i : Nat) : Memory.read [] i = 0 := rfl

/-- An address at or below which nothing is listed reads 0. -/
theorem read_eq_zero_of_lt {m : Memory} {i : Nat} (h : ∀ c ∈ m, i < c.1) : Memory.read m i = 0 := by
  induction m with
  | nil => rfl
  | cons c rest ih =>
    obtain ⟨a, b⟩ := c
    have ha : i < a := h (a, b) (by simp)
    rw [Memory.read, if_neg (by omega)]
    exact ih fun c hc => h c (by simp [hc])

/-- A memory in canonical form without its first byte. -/
theorem wf_tail {c : Host.Cell} {m : Memory} (h : Memory.wf (c :: m)) : Memory.wf m :=
  ⟨(List.pairwise_cons.mp h.1).2, fun d hd => h.2 d (List.mem_cons_of_mem _ hd)⟩

/-- The listed addresses after the first lie above it. -/
theorem wf_head_lt {c : Host.Cell} {m : Memory} (h : Memory.wf (c :: m)) : ∀ d ∈ m, c.1 < d.1 :=
  (List.pairwise_cons.mp h.1).1

/-- The byte at `j` after byte `i` is written: the value at `i`, the old byte elsewhere (R88). -/
theorem read_write {m : Memory} (h : Memory.wf m) (i j : Nat) (v : Byte) :
    Memory.read (Memory.write m i v) j = if j = i then v else Memory.read m j := by
  induction m with
  | nil =>
    unfold Memory.write
    by_cases hv : v = 0
    · rw [if_pos hv]
      simp [hv]
    · rw [if_neg hv]
      simp [Memory.read]
  | cons c rest ih =>
    obtain ⟨a, b⟩ := c
    have hlt := wf_head_lt h
    unfold Memory.write
    split
    · rename_i hia
      by_cases hj : j = i
      · subst hj
        have hz : Memory.read ((a, b) :: rest) j = 0 := by
          apply read_eq_zero_of_lt
          intro c hc
          rcases List.mem_cons.mp hc with rfl | hc
          · exact hia
          · exact lt_trans hia (hlt c hc)
        by_cases hv : v = 0
        · rw [if_pos hv, hz, hv]
          simp
        · rw [if_neg hv]
          simp [Memory.read]
      · by_cases hv : v = 0
        · rw [if_pos hv, if_neg hj]
        · rw [if_neg hv]
          simp [hj, Memory.read]
    · split
      · rename_i _ hia
        subst hia
        by_cases hj : j = i
        · subst hj
          have hz : Memory.read rest j = 0 := read_eq_zero_of_lt hlt
          by_cases hv : v = 0
          · rw [if_pos hv, hz, hv]
            simp
          · rw [if_neg hv]
            simp [Memory.read]
        · by_cases hv : v = 0
          · rw [if_pos hv]
            simp [hj, Memory.read]
          · rw [if_neg hv]
            simp [hj, Memory.read]
      · rename_i h1 h2
        by_cases hja : j = a
        · subst hja
          simp [Memory.read, Ne.symm h2]
        · simp only [Memory.read, if_neg hja]
          exact ih (wf_tail h)

/-- The addresses a write lists are the old ones and the one written. -/
theorem mem_write {m : Memory} {i : Nat} {v : Byte} {c : Host.Cell}
    (h : c ∈ Memory.write m i v) : c = (i, v) ∧ v ≠ 0 ∨ c ∈ m := by
  induction m with
  | nil =>
    unfold Memory.write at h
    split at h
    · simp at h
    · exact .inl ⟨by simpa using h, by assumption⟩
  | cons d rest ih =>
    obtain ⟨a, b⟩ := d
    unfold Memory.write at h
    split at h
    · split at h
      · exact .inr h
      · rcases List.mem_cons.mp h with rfl | h
        · exact .inl ⟨rfl, by assumption⟩
        · exact .inr h
    · split at h
      · split at h
        · exact .inr (List.mem_cons_of_mem _ h)
        · rcases List.mem_cons.mp h with rfl | h
          · exact .inl ⟨rfl, by assumption⟩
          · exact .inr (List.mem_cons_of_mem _ h)
      · rcases List.mem_cons.mp h with rfl | h
        · exact .inr (by simp)
        · rcases ih h with h | h
          · exact .inl h
          · exact .inr (List.mem_cons_of_mem _ h)

/-- A write keeps the canonical form. -/
theorem write_wf {m : Memory} (h : Memory.wf m) (i : Nat) (v : Byte) :
    Memory.wf (Memory.write m i v) := by
  induction m with
  | nil =>
    unfold Memory.write
    split
    · exact h
    · exact ⟨by simp, by simpa⟩
  | cons c rest ih =>
    obtain ⟨a, b⟩ := c
    have hlt := wf_head_lt h
    have hne : ∀ d ∈ Memory.write ((a, b) :: rest) i v, d.2 ≠ 0 := by
      intro d hd
      rcases mem_write hd with ⟨rfl, hv⟩ | hd
      · exact hv
      · exact h.2 d hd
    refine ⟨?_, hne⟩
    unfold Memory.write
    split
    · rename_i hia
      split
      · exact h.1
      · refine List.pairwise_cons.mpr ⟨fun d hd => ?_, h.1⟩
        rcases List.mem_cons.mp hd with rfl | hd
        · exact hia
        · exact lt_trans hia (hlt d hd)
    · split
      · rename_i hia
        split
        · exact (wf_tail h).1
        · subst hia
          exact List.pairwise_cons.mpr ⟨hlt, (wf_tail h).1⟩
      · rename_i h1 h2
        refine List.pairwise_cons.mpr ⟨fun d hd => ?_, (ih (wf_tail h)).1⟩
        rcases mem_write hd with ⟨rfl, -⟩ | hd
        · simp only; omega
        · exact hlt d hd

/-- A write below a bound keeps every listed byte below it. -/
theorem write_below {m : Memory} {n i : Nat} (h : Memory.below m n) (hi : i < n) (v : Byte) :
    Memory.below (Memory.write m i v) n := by
  intro c hc
  rcases mem_write hc with ⟨rfl, -⟩ | hc
  · exact hi
  · exact h c hc

/-- Memories in canonical form that read the same are the same. -/
theorem eq_of_read_eq {m m' : Memory} (h : Memory.wf m) (h' : Memory.wf m')
    (hr : ∀ i, Memory.read m i = Memory.read m' i) : m = m' := by
  induction m generalizing m' with
  | nil =>
    cases m' with
    | nil => rfl
    | cons c rest =>
      obtain ⟨a, b⟩ := c
      have := hr a
      simp only [Memory.read, if_pos] at this
      exact absurd this.symm (h'.2 (a, b) (by simp))
  | cons c rest ih =>
    obtain ⟨a, b⟩ := c
    have hb : b ≠ 0 := h.2 (a, b) (by simp)
    cases m' with
    | nil =>
      have := hr a
      simp only [Memory.read, if_pos] at this
      exact absurd this hb
    | cons c' rest' =>
      obtain ⟨a', b'⟩ := c'
      have hb' : b' ≠ 0 := h'.2 (a', b') (by simp)
      have hz : ∀ i, i < a → Memory.read ((a, b) :: rest) i = 0 := by
        intro i hi
        apply read_eq_zero_of_lt
        intro d hd
        rcases List.mem_cons.mp hd with rfl | hd
        · exact hi
        · exact lt_trans hi (wf_head_lt h d hd)
      have hz' : ∀ i, i < a' → Memory.read ((a', b') :: rest') i = 0 := by
        intro i hi
        apply read_eq_zero_of_lt
        intro d hd
        rcases List.mem_cons.mp hd with rfl | hd
        · exact hi
        · exact lt_trans hi (wf_head_lt h' d hd)
      have haa : a = a' := by
        rcases lt_trichotomy a a' with hlt | heq | hgt
        · have := hr a
          rw [hz' a hlt] at this
          simp [Memory.read] at this
          exact absurd this hb
        · exact heq
        · have := hr a'
          rw [hz a' hgt] at this
          simp [Memory.read] at this
          exact absurd this.symm hb'
      subst haa
      have hbb : b = b' := by simpa [Memory.read] using hr a
      subst hbb
      congr 1
      apply ih (wf_tail h) (wf_tail h')
      intro i
      by_cases hi : i = a
      · subst hi
        rw [read_eq_zero_of_lt (wf_head_lt h), read_eq_zero_of_lt (wf_head_lt h')]
      · simpa [Memory.read, hi] using hr i

end Sys2Proof.Machine
end

