-- ==== Sys2Proof/Laws/Fields.lean ====
section
/-! SUPPORT. Bits and fields of a buffer: what FieldRead and FieldWrite do, bit by bit
(20_memory.md R81 to R85). -/

namespace Sys2Proof.Machine

/-- Setting one bit of a byte changes that bit only. -/
theorem getLsbD_byteWithBit (x : Byte) (k : Nat) (b : Bool) (j : Nat) (hk : k < 8) :
    (byteWithBit x k b).getLsbD j = if j = k then b else x.getLsbD j := by
  unfold byteWithBit
  by_cases hj : j = k
  · subst hj
    cases b <;> simp [hk]
  · cases b
    · by_cases hj8 : j < 8
      · have : ¬ k = j := fun h => hj h.symm
        simp [hj, hj8]
      · simp [hj, BitVec.getLsbD_of_ge x j (by omega), hj8]
    · have : ¬ k = j := fun h => hj h.symm
      simp [BitVec.getLsbD_twoPow, hj, this]

/-- Setting bit `q` of a buffer changes bit `q` only (R83). -/
theorem bitAt_setBit {m : Memory} (h : Memory.wf m) (q r : Nat) (b : Bool) :
    Memory.bitAt (Memory.setBit m q b) r = if r = q then b else Memory.bitAt m r := by
  unfold Memory.bitAt Memory.setBit
  rw [read_write h]
  by_cases hb : r / 8 = q / 8
  · rw [if_pos hb, getLsbD_byteWithBit _ _ _ _ (Nat.mod_lt _ (by decide)), hb]
    by_cases hr : r = q
    · simp [hr]
    · have : r % 8 ≠ q % 8 := by omega
      simp [hr, this]
  · have : r ≠ q := fun h => hb (by rw [h])
    simp [hb, this]

theorem setBit_wf {m : Memory} (h : Memory.wf m) (q : Nat) (b : Bool) :
    Memory.wf (Memory.setBit m q b) := write_wf h _ _

/-- FieldRead gives value bit `i` from buffer bit p + i (R82). -/
theorem getLsbD_fieldRead (m : Memory) (p w i : Nat) :
    (fieldRead m p w).getLsbD i = (decide (i < w) && Memory.bitAt m (p + i)) := by
  induction w with
  | zero => simp [fieldRead]
  | succ w ih =>
    rw [fieldRead, BitVec.getLsbD_cons, ih]
    by_cases hi : i = w
    · simp [hi]
    · have : (i < w + 1) = (i < w) := by
        apply propext
        omega
      simp [hi, this]

theorem fieldWrite_wf {n : Nat} {m : Memory} (h : Memory.wf m) (p : Nat) (v : BitVec n) (w : Nat) :
    Memory.wf (fieldWrite m p v w) := by
  induction w with
  | zero => exact h
  | succ w ih => exact setBit_wf ih _ _

/-- FieldWrite writes bits p to p + w - 1 from the value and keeps every other bit (R83). -/
theorem bitAt_fieldWrite {n : Nat} {m : Memory} (h : Memory.wf m) (p : Nat) (v : BitVec n)
    (w q : Nat) :
    Memory.bitAt (fieldWrite m p v w) q =
      if p ≤ q ∧ q < p + w then v.getLsbD (q - p) else Memory.bitAt m q := by
  induction w with
  | zero =>
    rw [if_neg (by omega), fieldWrite]
  | succ w ih =>
    rw [fieldWrite, bitAt_setBit (fieldWrite_wf h p v w), ih]
    by_cases hq : q = p + w
    · subst hq
      simp
    · by_cases hin : p ≤ q ∧ q < p + w
      · have : p ≤ q ∧ q < p + (w + 1) := by omega
        simp [hq, hin, this]
      · have : ¬ (p ≤ q ∧ q < p + (w + 1)) := by omega
        simp [hq, hin, this]

/-- FieldWrite lists no byte at or past a bound its field ends by. -/
theorem fieldWrite_below {n b : Nat} {m : Memory} (h : Memory.below m b) (p : Nat) (v : BitVec n)
    (w : Nat) (hw : p + w ≤ 8 * b) : Memory.below (fieldWrite m p v w) b := by
  induction w with
  | zero => exact h
  | succ w ih => exact write_below (ih (by omega)) (by omega) _

/-- A byte is given by its bits. -/
theorem read_eq_of_bitAt {m m' : Memory} {a : Nat}
    (h : ∀ k, k < 8 → Memory.bitAt m (8 * a + k) = Memory.bitAt m' (8 * a + k)) :
    Memory.read m a = Memory.read m' a := by
  apply BitVec.eq_of_getLsbD_eq
  intro k hk
  have := h k hk
  unfold Memory.bitAt at this
  rwa [show (8 * a + k) / 8 = a by omega, show (8 * a + k) % 8 = k by omega] at this

/-- FieldWrite keeps every byte that holds no bit of its field (R85). -/
theorem read_fieldWrite_of_outside {n : Nat} {m : Memory} (h : Memory.wf m) (p : Nat) (v : BitVec n)
    (w a : Nat) (ha : 8 * a + 8 ≤ p ∨ p + w ≤ 8 * a) :
    Memory.read (fieldWrite m p v w) a = Memory.read m a := by
  apply read_eq_of_bitAt
  intro k hk
  rw [bitAt_fieldWrite h, if_neg (by omega)]

/-- FieldRead depends only on the bits of its field. -/
theorem fieldRead_congr {m m' : Memory} {p p' w : Nat}
    (h : ∀ i, i < w → Memory.bitAt m (p + i) = Memory.bitAt m' (p' + i)) :
    fieldRead m p w = fieldRead m' p' w := by
  apply BitVec.eq_of_getLsbD_eq
  intro i hi
  rw [getLsbD_fieldRead, getLsbD_fieldRead, h i hi]

end Sys2Proof.Machine
end

