-- ==== Sys2Proof/Laws/State.lean ====
section
/-! SUPPORT. What each named update of State leaves in each field: one lemma per field per update. -/

namespace Sys2Proof.Machine

/-! ### ok -/

@[simp] theorem ok_pending (s : State) : (s.ok).pending = s.pending := rfl
@[simp] theorem ok_busy (s : State) : (s.ok).busy = s.busy := rfl
@[simp] theorem ok_arg (s : State) : (s.ok).arg = s.arg := rfl
@[simp] theorem ok_result (s : State) : (s.ok).result = s.result := rfl
@[simp] theorem ok_errcode (s : State) : (s.ok).errcode = 0 := rfl
@[simp] theorem ok_fatal (s : State) : (s.ok).fatal = s.fatal := rfl
@[simp] theorem ok_layoutValid (s : State) : (s.ok).layoutValid = s.layoutValid := rfl
@[simp] theorem ok_errinfo (s : State) : (s.ok).errinfo = 0 := rfl
@[simp] theorem ok_cursor (s : State) : (s.ok).cursor = s.cursor := rfl
@[simp] theorem ok_rdSize (s : State) : (s.ok).rdSize = s.rdSize := rfl
@[simp] theorem ok_wrSize (s : State) : (s.ok).wrSize = s.wrSize := rfl
@[simp] theorem ok_descCount (s : State) : (s.ok).descCount = s.descCount := rfl
@[simp] theorem ok_layoutCount (s : State) : (s.ok).layoutCount = s.layoutCount := rfl
@[simp] theorem ok_rdBits (s : State) : (s.ok).rdBits = s.rdBits := rfl
@[simp] theorem ok_wrBits (s : State) : (s.ok).wrBits = s.wrBits := rfl
@[simp] theorem ok_notifyNeed (s : State) : (s.ok).notifyNeed = s.notifyNeed := rfl
@[simp] theorem ok_rdpd (s : State) : (s.ok).rdpd = s.rdpd := rfl
@[simp] theorem ok_wrpd (s : State) : (s.ok).wrpd = s.wrpd := rfl
@[simp] theorem ok_vs (s : State) : (s.ok).vs = s.vs := rfl
@[simp] theorem ok_desc (s : State) : (s.ok).desc = s.desc := rfl
@[simp] theorem ok_memb (s : State) : (s.ok).memb = s.memb := rfl
@[simp] theorem ok_map (s : State) : (s.ok).map = s.map := rfl
@[simp] theorem ok_layout (s : State) : (s.ok).layout = s.layout := rfl
@[simp] theorem ok_nq (s : State) : (s.ok).nq = s.nq := rfl
@[simp] theorem ok_params (s : State) : (s.ok).params = s.params := rfl
@[simp] theorem ok_draws (s : State) : (s.ok).draws = s.draws := rfl
@[simp] theorem ok_sched (s : State) : (s.ok).sched = s.sched := rfl
@[simp] theorem ok_replies (s : State) : (s.ok).replies = s.replies := rfl

/-! ### fail -/

@[simp] theorem fail_pending (r : Report) (s : State) : (s.fail r).pending = s.pending := rfl
@[simp] theorem fail_busy (r : Report) (s : State) : (s.fail r).busy = s.busy := rfl
@[simp] theorem fail_arg (r : Report) (s : State) : (s.fail r).arg = s.arg := rfl
@[simp] theorem fail_result (r : Report) (s : State) : (s.fail r).result = s.result := rfl
@[simp] theorem fail_errcode (r : Report) (s : State) : (s.fail r).errcode = r.error.code := rfl
@[simp] theorem fail_fatal (r : Report) (s : State) : (s.fail r).fatal = s.fatal := rfl
@[simp] theorem fail_layoutValid (r : Report) (s : State) : (s.fail r).layoutValid = s.layoutValid := rfl
@[simp] theorem fail_errinfo (r : Report) (s : State) : (s.fail r).errinfo = r.info := rfl
@[simp] theorem fail_cursor (r : Report) (s : State) : (s.fail r).cursor = s.cursor := rfl
@[simp] theorem fail_rdSize (r : Report) (s : State) : (s.fail r).rdSize = s.rdSize := rfl
@[simp] theorem fail_wrSize (r : Report) (s : State) : (s.fail r).wrSize = s.wrSize := rfl
@[simp] theorem fail_descCount (r : Report) (s : State) : (s.fail r).descCount = s.descCount := rfl
@[simp] theorem fail_layoutCount (r : Report) (s : State) : (s.fail r).layoutCount = s.layoutCount := rfl
@[simp] theorem fail_rdBits (r : Report) (s : State) : (s.fail r).rdBits = s.rdBits := rfl
@[simp] theorem fail_wrBits (r : Report) (s : State) : (s.fail r).wrBits = s.wrBits := rfl
@[simp] theorem fail_notifyNeed (r : Report) (s : State) : (s.fail r).notifyNeed = s.notifyNeed := rfl
@[simp] theorem fail_rdpd (r : Report) (s : State) : (s.fail r).rdpd = s.rdpd := rfl
@[simp] theorem fail_wrpd (r : Report) (s : State) : (s.fail r).wrpd = s.wrpd := rfl
@[simp] theorem fail_vs (r : Report) (s : State) : (s.fail r).vs = s.vs := rfl
@[simp] theorem fail_desc (r : Report) (s : State) : (s.fail r).desc = s.desc := rfl
@[simp] theorem fail_memb (r : Report) (s : State) : (s.fail r).memb = s.memb := rfl
@[simp] theorem fail_map (r : Report) (s : State) : (s.fail r).map = s.map := rfl
@[simp] theorem fail_layout (r : Report) (s : State) : (s.fail r).layout = s.layout := rfl
@[simp] theorem fail_nq (r : Report) (s : State) : (s.fail r).nq = s.nq := rfl
@[simp] theorem fail_params (r : Report) (s : State) : (s.fail r).params = s.params := rfl
@[simp] theorem fail_draws (r : Report) (s : State) : (s.fail r).draws = s.draws := rfl
@[simp] theorem fail_sched (r : Report) (s : State) : (s.fail r).sched = s.sched := rfl
@[simp] theorem fail_replies (r : Report) (s : State) : (s.fail r).replies = s.replies := rfl

/-! ### fatalFail -/

@[simp] theorem fatalFail_pending (r : Report) (s : State) : (s.fatalFail r).pending = s.pending := rfl
@[simp] theorem fatalFail_busy (r : Report) (s : State) : (s.fatalFail r).busy = s.busy := rfl
@[simp] theorem fatalFail_arg (r : Report) (s : State) : (s.fatalFail r).arg = s.arg := rfl
@[simp] theorem fatalFail_result (r : Report) (s : State) : (s.fatalFail r).result = s.result := rfl
@[simp] theorem fatalFail_errcode (r : Report) (s : State) : (s.fatalFail r).errcode = r.error.code := rfl
@[simp] theorem fatalFail_fatal (r : Report) (s : State) : (s.fatalFail r).fatal = true := rfl
@[simp] theorem fatalFail_layoutValid (r : Report) (s : State) : (s.fatalFail r).layoutValid = s.layoutValid := rfl
@[simp] theorem fatalFail_errinfo (r : Report) (s : State) : (s.fatalFail r).errinfo = r.info := rfl
@[simp] theorem fatalFail_cursor (r : Report) (s : State) : (s.fatalFail r).cursor = s.cursor := rfl
@[simp] theorem fatalFail_rdSize (r : Report) (s : State) : (s.fatalFail r).rdSize = s.rdSize := rfl
@[simp] theorem fatalFail_wrSize (r : Report) (s : State) : (s.fatalFail r).wrSize = s.wrSize := rfl
@[simp] theorem fatalFail_descCount (r : Report) (s : State) : (s.fatalFail r).descCount = s.descCount := rfl
@[simp] theorem fatalFail_layoutCount (r : Report) (s : State) : (s.fatalFail r).layoutCount = s.layoutCount := rfl
@[simp] theorem fatalFail_rdBits (r : Report) (s : State) : (s.fatalFail r).rdBits = s.rdBits := rfl
@[simp] theorem fatalFail_wrBits (r : Report) (s : State) : (s.fatalFail r).wrBits = s.wrBits := rfl
@[simp] theorem fatalFail_notifyNeed (r : Report) (s : State) : (s.fatalFail r).notifyNeed = s.notifyNeed := rfl
@[simp] theorem fatalFail_rdpd (r : Report) (s : State) : (s.fatalFail r).rdpd = s.rdpd := rfl
@[simp] theorem fatalFail_wrpd (r : Report) (s : State) : (s.fatalFail r).wrpd = s.wrpd := rfl
@[simp] theorem fatalFail_vs (r : Report) (s : State) : (s.fatalFail r).vs = s.vs := rfl
@[simp] theorem fatalFail_desc (r : Report) (s : State) : (s.fatalFail r).desc = s.desc := rfl
@[simp] theorem fatalFail_memb (r : Report) (s : State) : (s.fatalFail r).memb = s.memb := rfl
@[simp] theorem fatalFail_map (r : Report) (s : State) : (s.fatalFail r).map = s.map := rfl
@[simp] theorem fatalFail_layout (r : Report) (s : State) : (s.fatalFail r).layout = s.layout := rfl
@[simp] theorem fatalFail_nq (r : Report) (s : State) : (s.fatalFail r).nq = s.nq := rfl
@[simp] theorem fatalFail_params (r : Report) (s : State) : (s.fatalFail r).params = s.params := rfl
@[simp] theorem fatalFail_draws (r : Report) (s : State) : (s.fatalFail r).draws = s.draws := rfl
@[simp] theorem fatalFail_sched (r : Report) (s : State) : (s.fatalFail r).sched = s.sched := rfl
@[simp] theorem fatalFail_replies (r : Report) (s : State) : (s.fatalFail r).replies = s.replies := rfl

/-! ### advanceTo -/

@[simp] theorem advanceTo_pending (p : Nat) (s : State) : (s.advanceTo p).pending = s.pending := rfl
@[simp] theorem advanceTo_busy (p : Nat) (s : State) : (s.advanceTo p).busy = s.busy := rfl
@[simp] theorem advanceTo_arg (p : Nat) (s : State) : (s.advanceTo p).arg = s.arg := rfl
@[simp] theorem advanceTo_result (p : Nat) (s : State) : (s.advanceTo p).result = s.result := rfl
@[simp] theorem advanceTo_errcode (p : Nat) (s : State) : (s.advanceTo p).errcode = s.errcode := rfl
@[simp] theorem advanceTo_fatal (p : Nat) (s : State) : (s.advanceTo p).fatal = s.fatal := rfl
@[simp] theorem advanceTo_layoutValid (p : Nat) (s : State) : (s.advanceTo p).layoutValid = s.layoutValid := rfl
@[simp] theorem advanceTo_errinfo (p : Nat) (s : State) : (s.advanceTo p).errinfo = s.errinfo := rfl
@[simp] theorem advanceTo_cursor (p : Nat) (s : State) : (s.advanceTo p).cursor = BitVec.ofNat 32 p := rfl
@[simp] theorem advanceTo_rdSize (p : Nat) (s : State) : (s.advanceTo p).rdSize = s.rdSize := rfl
@[simp] theorem advanceTo_wrSize (p : Nat) (s : State) : (s.advanceTo p).wrSize = s.wrSize := rfl
@[simp] theorem advanceTo_descCount (p : Nat) (s : State) : (s.advanceTo p).descCount = s.descCount := rfl
@[simp] theorem advanceTo_layoutCount (p : Nat) (s : State) : (s.advanceTo p).layoutCount = s.layoutCount := rfl
@[simp] theorem advanceTo_rdBits (p : Nat) (s : State) : (s.advanceTo p).rdBits = s.rdBits := rfl
@[simp] theorem advanceTo_wrBits (p : Nat) (s : State) : (s.advanceTo p).wrBits = s.wrBits := rfl
@[simp] theorem advanceTo_notifyNeed (p : Nat) (s : State) : (s.advanceTo p).notifyNeed = s.notifyNeed := rfl
@[simp] theorem advanceTo_rdpd (p : Nat) (s : State) : (s.advanceTo p).rdpd = s.rdpd := rfl
@[simp] theorem advanceTo_wrpd (p : Nat) (s : State) : (s.advanceTo p).wrpd = s.wrpd := rfl
@[simp] theorem advanceTo_vs (p : Nat) (s : State) : (s.advanceTo p).vs = s.vs := rfl
@[simp] theorem advanceTo_desc (p : Nat) (s : State) : (s.advanceTo p).desc = s.desc := rfl
@[simp] theorem advanceTo_memb (p : Nat) (s : State) : (s.advanceTo p).memb = s.memb := rfl
@[simp] theorem advanceTo_map (p : Nat) (s : State) : (s.advanceTo p).map = s.map := rfl
@[simp] theorem advanceTo_layout (p : Nat) (s : State) : (s.advanceTo p).layout = s.layout := rfl
@[simp] theorem advanceTo_nq (p : Nat) (s : State) : (s.advanceTo p).nq = s.nq := rfl
@[simp] theorem advanceTo_params (p : Nat) (s : State) : (s.advanceTo p).params = s.params := rfl
@[simp] theorem advanceTo_draws (p : Nat) (s : State) : (s.advanceTo p).draws = s.draws := rfl
@[simp] theorem advanceTo_sched (p : Nat) (s : State) : (s.advanceTo p).sched = s.sched := rfl
@[simp] theorem advanceTo_replies (p : Nat) (s : State) : (s.advanceTo p).replies = s.replies := rfl

/-! ### forgetLayout -/

@[simp] theorem forgetLayout_pending (s : State) : (s.forgetLayout).pending = s.pending := rfl
@[simp] theorem forgetLayout_busy (s : State) : (s.forgetLayout).busy = s.busy := rfl
@[simp] theorem forgetLayout_arg (s : State) : (s.forgetLayout).arg = s.arg := rfl
@[simp] theorem forgetLayout_result (s : State) : (s.forgetLayout).result = s.result := rfl
@[simp] theorem forgetLayout_errcode (s : State) : (s.forgetLayout).errcode = s.errcode := rfl
@[simp] theorem forgetLayout_fatal (s : State) : (s.forgetLayout).fatal = s.fatal := rfl
@[simp] theorem forgetLayout_layoutValid (s : State) : (s.forgetLayout).layoutValid = s.layoutValid := rfl
@[simp] theorem forgetLayout_errinfo (s : State) : (s.forgetLayout).errinfo = s.errinfo := rfl
@[simp] theorem forgetLayout_cursor (s : State) : (s.forgetLayout).cursor = s.cursor := rfl
@[simp] theorem forgetLayout_rdSize (s : State) : (s.forgetLayout).rdSize = s.rdSize := rfl
@[simp] theorem forgetLayout_wrSize (s : State) : (s.forgetLayout).wrSize = s.wrSize := rfl
@[simp] theorem forgetLayout_descCount (s : State) : (s.forgetLayout).descCount = s.descCount := rfl
@[simp] theorem forgetLayout_layoutCount (s : State) : (s.forgetLayout).layoutCount = s.layoutCount := rfl
@[simp] theorem forgetLayout_rdBits (s : State) : (s.forgetLayout).rdBits = s.rdBits := rfl
@[simp] theorem forgetLayout_wrBits (s : State) : (s.forgetLayout).wrBits = s.wrBits := rfl
@[simp] theorem forgetLayout_notifyNeed (s : State) : (s.forgetLayout).notifyNeed = s.notifyNeed := rfl
@[simp] theorem forgetLayout_rdpd (s : State) : (s.forgetLayout).rdpd = s.rdpd := rfl
@[simp] theorem forgetLayout_wrpd (s : State) : (s.forgetLayout).wrpd = s.wrpd := rfl
@[simp] theorem forgetLayout_vs (s : State) : (s.forgetLayout).vs = s.vs := rfl
@[simp] theorem forgetLayout_desc (s : State) : (s.forgetLayout).desc = s.desc := rfl
@[simp] theorem forgetLayout_memb (s : State) : (s.forgetLayout).memb = s.memb := rfl
@[simp] theorem forgetLayout_map (s : State) : (s.forgetLayout).map = s.map := rfl
@[simp] theorem forgetLayout_layout (s : State) : (s.forgetLayout).layout = [] := rfl
@[simp] theorem forgetLayout_nq (s : State) : (s.forgetLayout).nq = s.nq := rfl
@[simp] theorem forgetLayout_params (s : State) : (s.forgetLayout).params = s.params := rfl
@[simp] theorem forgetLayout_draws (s : State) : (s.forgetLayout).draws = s.draws + 1 := rfl
@[simp] theorem forgetLayout_sched (s : State) : (s.forgetLayout).sched = s.sched := rfl
@[simp] theorem forgetLayout_replies (s : State) : (s.forgetLayout).replies = s.replies := rfl

/-! ### sizeReset -/

@[simp] theorem sizeReset_pending (s : State) : (s.sizeReset).pending = s.pending := rfl
@[simp] theorem sizeReset_busy (s : State) : (s.sizeReset).busy = s.busy := rfl
@[simp] theorem sizeReset_arg (s : State) : (s.sizeReset).arg = s.arg := rfl
@[simp] theorem sizeReset_result (s : State) : (s.sizeReset).result = s.result := rfl
@[simp] theorem sizeReset_errcode (s : State) : (s.sizeReset).errcode = s.errcode := rfl
@[simp] theorem sizeReset_fatal (s : State) : (s.sizeReset).fatal = s.fatal := rfl
@[simp] theorem sizeReset_layoutValid (s : State) : (s.sizeReset).layoutValid = false := rfl
@[simp] theorem sizeReset_errinfo (s : State) : (s.sizeReset).errinfo = s.errinfo := rfl
@[simp] theorem sizeReset_cursor (s : State) : (s.sizeReset).cursor = 0 := rfl
@[simp] theorem sizeReset_rdSize (s : State) : (s.sizeReset).rdSize = s.rdSize := rfl
@[simp] theorem sizeReset_wrSize (s : State) : (s.sizeReset).wrSize = s.wrSize := rfl
@[simp] theorem sizeReset_descCount (s : State) : (s.sizeReset).descCount = s.descCount := rfl
@[simp] theorem sizeReset_layoutCount (s : State) : (s.sizeReset).layoutCount = 0 := rfl
@[simp] theorem sizeReset_rdBits (s : State) : (s.sizeReset).rdBits = 0 := rfl
@[simp] theorem sizeReset_wrBits (s : State) : (s.sizeReset).wrBits = 0 := rfl
@[simp] theorem sizeReset_notifyNeed (s : State) : (s.sizeReset).notifyNeed = 0 := rfl
@[simp] theorem sizeReset_rdpd (s : State) : (s.sizeReset).rdpd = [] := rfl
@[simp] theorem sizeReset_wrpd (s : State) : (s.sizeReset).wrpd = [] := rfl
@[simp] theorem sizeReset_vs (s : State) : (s.sizeReset).vs = s.vs := rfl
@[simp] theorem sizeReset_desc (s : State) : (s.sizeReset).desc = s.desc := rfl
@[simp] theorem sizeReset_memb (s : State) : (s.sizeReset).memb = s.memb := rfl
@[simp] theorem sizeReset_map (s : State) : (s.sizeReset).map = s.map := rfl
@[simp] theorem sizeReset_layout (s : State) : (s.sizeReset).layout = [] := rfl
@[simp] theorem sizeReset_nq (s : State) : (s.sizeReset).nq = s.nq := rfl
@[simp] theorem sizeReset_params (s : State) : (s.sizeReset).params = s.params := rfl
@[simp] theorem sizeReset_draws (s : State) : (s.sizeReset).draws = s.draws + 1 := rfl
@[simp] theorem sizeReset_sched (s : State) : (s.sizeReset).sched = s.sched := rfl
@[simp] theorem sizeReset_replies (s : State) : (s.sizeReset).replies = s.replies := rfl

/-! ### dropLayout -/

@[simp] theorem dropLayout_pending (s : State) : (s.dropLayout).pending = s.pending := rfl
@[simp] theorem dropLayout_busy (s : State) : (s.dropLayout).busy = s.busy := rfl
@[simp] theorem dropLayout_arg (s : State) : (s.dropLayout).arg = s.arg := rfl
@[simp] theorem dropLayout_result (s : State) : (s.dropLayout).result = s.result := rfl
@[simp] theorem dropLayout_errcode (s : State) : (s.dropLayout).errcode = s.errcode := rfl
@[simp] theorem dropLayout_fatal (s : State) : (s.dropLayout).fatal = s.fatal := rfl
@[simp] theorem dropLayout_layoutValid (s : State) : (s.dropLayout).layoutValid = false := rfl
@[simp] theorem dropLayout_errinfo (s : State) : (s.dropLayout).errinfo = s.errinfo := rfl
@[simp] theorem dropLayout_cursor (s : State) : (s.dropLayout).cursor = s.cursor := rfl
@[simp] theorem dropLayout_rdSize (s : State) : (s.dropLayout).rdSize = s.rdSize := rfl
@[simp] theorem dropLayout_wrSize (s : State) : (s.dropLayout).wrSize = s.wrSize := rfl
@[simp] theorem dropLayout_descCount (s : State) : (s.dropLayout).descCount = s.descCount := rfl
@[simp] theorem dropLayout_layoutCount (s : State) : (s.dropLayout).layoutCount = 0 := rfl
@[simp] theorem dropLayout_rdBits (s : State) : (s.dropLayout).rdBits = 0 := rfl
@[simp] theorem dropLayout_wrBits (s : State) : (s.dropLayout).wrBits = 0 := rfl
@[simp] theorem dropLayout_notifyNeed (s : State) : (s.dropLayout).notifyNeed = 0 := rfl
@[simp] theorem dropLayout_rdpd (s : State) : (s.dropLayout).rdpd = s.rdpd := rfl
@[simp] theorem dropLayout_wrpd (s : State) : (s.dropLayout).wrpd = s.wrpd := rfl
@[simp] theorem dropLayout_vs (s : State) : (s.dropLayout).vs = s.vs := rfl
@[simp] theorem dropLayout_desc (s : State) : (s.dropLayout).desc = s.desc := rfl
@[simp] theorem dropLayout_memb (s : State) : (s.dropLayout).memb = s.memb := rfl
@[simp] theorem dropLayout_map (s : State) : (s.dropLayout).map = s.map := rfl
@[simp] theorem dropLayout_layout (s : State) : (s.dropLayout).layout = [] := rfl
@[simp] theorem dropLayout_nq (s : State) : (s.dropLayout).nq = s.nq := rfl
@[simp] theorem dropLayout_params (s : State) : (s.dropLayout).params = s.params := rfl
@[simp] theorem dropLayout_draws (s : State) : (s.dropLayout).draws = s.draws + 1 := rfl
@[simp] theorem dropLayout_sched (s : State) : (s.dropLayout).sched = s.sched := rfl
@[simp] theorem dropLayout_replies (s : State) : (s.dropLayout).replies = s.replies := rfl

/-! ### commit -/

@[simp] theorem commit_pending (p : Plan) (s : State) : (s.commit p).pending = s.pending := rfl
@[simp] theorem commit_busy (p : Plan) (s : State) : (s.commit p).busy = s.busy := rfl
@[simp] theorem commit_arg (p : Plan) (s : State) : (s.commit p).arg = s.arg := rfl
@[simp] theorem commit_result (p : Plan) (s : State) : (s.commit p).result = s.result := rfl
@[simp] theorem commit_errcode (p : Plan) (s : State) : (s.commit p).errcode = s.errcode := rfl
@[simp] theorem commit_fatal (p : Plan) (s : State) : (s.commit p).fatal = s.fatal := rfl
@[simp] theorem commit_layoutValid (p : Plan) (s : State) : (s.commit p).layoutValid = true := rfl
@[simp] theorem commit_errinfo (p : Plan) (s : State) : (s.commit p).errinfo = s.errinfo := rfl
@[simp] theorem commit_cursor (p : Plan) (s : State) : (s.commit p).cursor = s.cursor := rfl
@[simp] theorem commit_rdSize (p : Plan) (s : State) : (s.commit p).rdSize = s.rdSize := rfl
@[simp] theorem commit_wrSize (p : Plan) (s : State) : (s.commit p).wrSize = s.wrSize := rfl
@[simp] theorem commit_descCount (p : Plan) (s : State) : (s.commit p).descCount = s.descCount := rfl
@[simp] theorem commit_layoutCount (p : Plan) (s : State) : (s.commit p).layoutCount = BitVec.ofNat 16 p.entries.length := rfl
@[simp] theorem commit_rdBits (p : Plan) (s : State) : (s.commit p).rdBits = BitVec.ofNat 32 p.curRd := rfl
@[simp] theorem commit_wrBits (p : Plan) (s : State) : (s.commit p).wrBits = BitVec.ofNat 32 p.curWr := rfl
@[simp] theorem commit_notifyNeed (p : Plan) (s : State) : (s.commit p).notifyNeed = BitVec.ofNat 8 p.need := rfl
@[simp] theorem commit_rdpd (p : Plan) (s : State) : (s.commit p).rdpd = s.rdpd := rfl
@[simp] theorem commit_wrpd (p : Plan) (s : State) : (s.commit p).wrpd = s.wrpd := rfl
@[simp] theorem commit_vs (p : Plan) (s : State) : (s.commit p).vs = s.vs := rfl
@[simp] theorem commit_desc (p : Plan) (s : State) : (s.commit p).desc = s.desc := rfl
@[simp] theorem commit_memb (p : Plan) (s : State) : (s.commit p).memb = s.memb := rfl
@[simp] theorem commit_map (p : Plan) (s : State) : (s.commit p).map = s.map := rfl
@[simp] theorem commit_layout (p : Plan) (s : State) : (s.commit p).layout = p.entries := rfl
@[simp] theorem commit_nq (p : Plan) (s : State) : (s.commit p).nq = s.nq := rfl
@[simp] theorem commit_params (p : Plan) (s : State) : (s.commit p).params = s.params := rfl
@[simp] theorem commit_draws (p : Plan) (s : State) : (s.commit p).draws = s.draws + 1 := rfl
@[simp] theorem commit_sched (p : Plan) (s : State) : (s.commit p).sched = s.sched := rfl
@[simp] theorem commit_replies (p : Plan) (s : State) : (s.commit p).replies = s.replies := rfl

/-! ### idle -/

@[simp] theorem idle_pending (s : State) : (s.idle).pending = s.pending := rfl
@[simp] theorem idle_busy (s : State) : (s.idle).busy = false := rfl
@[simp] theorem idle_arg (s : State) : (s.idle).arg = s.arg := rfl
@[simp] theorem idle_result (s : State) : (s.idle).result = s.result := rfl
@[simp] theorem idle_errcode (s : State) : (s.idle).errcode = s.errcode := rfl
@[simp] theorem idle_fatal (s : State) : (s.idle).fatal = s.fatal := rfl
@[simp] theorem idle_layoutValid (s : State) : (s.idle).layoutValid = s.layoutValid := rfl
@[simp] theorem idle_errinfo (s : State) : (s.idle).errinfo = s.errinfo := rfl
@[simp] theorem idle_cursor (s : State) : (s.idle).cursor = s.cursor := rfl
@[simp] theorem idle_rdSize (s : State) : (s.idle).rdSize = s.rdSize := rfl
@[simp] theorem idle_wrSize (s : State) : (s.idle).wrSize = s.wrSize := rfl
@[simp] theorem idle_descCount (s : State) : (s.idle).descCount = s.descCount := rfl
@[simp] theorem idle_layoutCount (s : State) : (s.idle).layoutCount = s.layoutCount := rfl
@[simp] theorem idle_rdBits (s : State) : (s.idle).rdBits = s.rdBits := rfl
@[simp] theorem idle_wrBits (s : State) : (s.idle).wrBits = s.wrBits := rfl
@[simp] theorem idle_notifyNeed (s : State) : (s.idle).notifyNeed = s.notifyNeed := rfl
@[simp] theorem idle_rdpd (s : State) : (s.idle).rdpd = s.rdpd := rfl
@[simp] theorem idle_wrpd (s : State) : (s.idle).wrpd = s.wrpd := rfl
@[simp] theorem idle_vs (s : State) : (s.idle).vs = s.vs := rfl
@[simp] theorem idle_desc (s : State) : (s.idle).desc = s.desc := rfl
@[simp] theorem idle_memb (s : State) : (s.idle).memb = s.memb := rfl
@[simp] theorem idle_map (s : State) : (s.idle).map = s.map := rfl
@[simp] theorem idle_layout (s : State) : (s.idle).layout = s.layout := rfl
@[simp] theorem idle_nq (s : State) : (s.idle).nq = s.nq := rfl
@[simp] theorem idle_params (s : State) : (s.idle).params = s.params := rfl
@[simp] theorem idle_draws (s : State) : (s.idle).draws = s.draws := rfl
@[simp] theorem idle_sched (s : State) : (s.idle).sched = s.sched := rfl
@[simp] theorem idle_replies (s : State) : (s.idle).replies = s.replies := rfl

/-! ### withMem -/

@[simp] theorem withMem_pending (b : Buf) (m : Memory) (s : State) : (s.withMem b m).pending = s.pending := by
  cases b <;> rfl
@[simp] theorem withMem_busy (b : Buf) (m : Memory) (s : State) : (s.withMem b m).busy = s.busy := by
  cases b <;> rfl
@[simp] theorem withMem_arg (b : Buf) (m : Memory) (s : State) : (s.withMem b m).arg = s.arg := by
  cases b <;> rfl
@[simp] theorem withMem_result (b : Buf) (m : Memory) (s : State) : (s.withMem b m).result = s.result := by
  cases b <;> rfl
@[simp] theorem withMem_errcode (b : Buf) (m : Memory) (s : State) : (s.withMem b m).errcode = s.errcode := by
  cases b <;> rfl
@[simp] theorem withMem_fatal (b : Buf) (m : Memory) (s : State) : (s.withMem b m).fatal = s.fatal := by
  cases b <;> rfl
@[simp] theorem withMem_layoutValid (b : Buf) (m : Memory) (s : State) : (s.withMem b m).layoutValid = s.layoutValid := by
  cases b <;> rfl
@[simp] theorem withMem_errinfo (b : Buf) (m : Memory) (s : State) : (s.withMem b m).errinfo = s.errinfo := by
  cases b <;> rfl
@[simp] theorem withMem_cursor (b : Buf) (m : Memory) (s : State) : (s.withMem b m).cursor = s.cursor := by
  cases b <;> rfl
@[simp] theorem withMem_rdSize (b : Buf) (m : Memory) (s : State) : (s.withMem b m).rdSize = s.rdSize := by
  cases b <;> rfl
@[simp] theorem withMem_wrSize (b : Buf) (m : Memory) (s : State) : (s.withMem b m).wrSize = s.wrSize := by
  cases b <;> rfl
@[simp] theorem withMem_descCount (b : Buf) (m : Memory) (s : State) : (s.withMem b m).descCount = s.descCount := by
  cases b <;> rfl
@[simp] theorem withMem_layoutCount (b : Buf) (m : Memory) (s : State) : (s.withMem b m).layoutCount = s.layoutCount := by
  cases b <;> rfl
@[simp] theorem withMem_rdBits (b : Buf) (m : Memory) (s : State) : (s.withMem b m).rdBits = s.rdBits := by
  cases b <;> rfl
@[simp] theorem withMem_wrBits (b : Buf) (m : Memory) (s : State) : (s.withMem b m).wrBits = s.wrBits := by
  cases b <;> rfl
@[simp] theorem withMem_notifyNeed (b : Buf) (m : Memory) (s : State) : (s.withMem b m).notifyNeed = s.notifyNeed := by
  cases b <;> rfl
@[simp] theorem withMem_vs (b : Buf) (m : Memory) (s : State) : (s.withMem b m).vs = s.vs := by
  cases b <;> rfl
@[simp] theorem withMem_desc (b : Buf) (m : Memory) (s : State) : (s.withMem b m).desc = s.desc := by
  cases b <;> rfl
@[simp] theorem withMem_memb (b : Buf) (m : Memory) (s : State) : (s.withMem b m).memb = s.memb := by
  cases b <;> rfl
@[simp] theorem withMem_map (b : Buf) (m : Memory) (s : State) : (s.withMem b m).map = s.map := by
  cases b <;> rfl
@[simp] theorem withMem_layout (b : Buf) (m : Memory) (s : State) : (s.withMem b m).layout = s.layout := by
  cases b <;> rfl
@[simp] theorem withMem_nq (b : Buf) (m : Memory) (s : State) : (s.withMem b m).nq = s.nq := by
  cases b <;> rfl
@[simp] theorem withMem_params (b : Buf) (m : Memory) (s : State) : (s.withMem b m).params = s.params := by
  cases b <;> rfl
@[simp] theorem withMem_draws (b : Buf) (m : Memory) (s : State) : (s.withMem b m).draws = s.draws := by
  cases b <;> rfl
@[simp] theorem withMem_sched (b : Buf) (m : Memory) (s : State) : (s.withMem b m).sched = s.sched := by
  cases b <;> rfl
@[simp] theorem withMem_replies (b : Buf) (m : Memory) (s : State) : (s.withMem b m).replies = s.replies := by
  cases b <;> rfl
@[simp] theorem withMem_rd_rdpd (m : Memory) (s : State) : (s.withMem .rd m).rdpd = m := rfl
@[simp] theorem withMem_rd_wrpd (m : Memory) (s : State) : (s.withMem .rd m).wrpd = s.wrpd := rfl
@[simp] theorem withMem_wr_rdpd (m : Memory) (s : State) : (s.withMem .wr m).rdpd = s.rdpd := rfl
@[simp] theorem withMem_wr_wrpd (m : Memory) (s : State) : (s.withMem .wr m).wrpd = m := rfl

/-! ### withTable -/

@[simp] theorem withTable_pending (t : Table) (es : List TableEntry) (s : State) :
    (s.withTable t es).pending = s.pending := by
  cases t <;> rfl
@[simp] theorem withTable_busy (t : Table) (es : List TableEntry) (s : State) :
    (s.withTable t es).busy = s.busy := by
  cases t <;> rfl
@[simp] theorem withTable_arg (t : Table) (es : List TableEntry) (s : State) :
    (s.withTable t es).arg = s.arg := by
  cases t <;> rfl
@[simp] theorem withTable_result (t : Table) (es : List TableEntry) (s : State) :
    (s.withTable t es).result = s.result := by
  cases t <;> rfl
@[simp] theorem withTable_errcode (t : Table) (es : List TableEntry) (s : State) :
    (s.withTable t es).errcode = s.errcode := by
  cases t <;> rfl
@[simp] theorem withTable_fatal (t : Table) (es : List TableEntry) (s : State) :
    (s.withTable t es).fatal = s.fatal := by
  cases t <;> rfl
@[simp] theorem withTable_layoutValid (t : Table) (es : List TableEntry) (s : State) :
    (s.withTable t es).layoutValid = s.layoutValid := by
  cases t <;> rfl
@[simp] theorem withTable_errinfo (t : Table) (es : List TableEntry) (s : State) :
    (s.withTable t es).errinfo = s.errinfo := by
  cases t <;> rfl
@[simp] theorem withTable_cursor (t : Table) (es : List TableEntry) (s : State) :
    (s.withTable t es).cursor = s.cursor := by
  cases t <;> rfl
@[simp] theorem withTable_rdSize (t : Table) (es : List TableEntry) (s : State) :
    (s.withTable t es).rdSize = s.rdSize := by
  cases t <;> rfl
@[simp] theorem withTable_wrSize (t : Table) (es : List TableEntry) (s : State) :
    (s.withTable t es).wrSize = s.wrSize := by
  cases t <;> rfl
@[simp] theorem withTable_descCount (t : Table) (es : List TableEntry) (s : State) :
    (s.withTable t es).descCount = s.descCount := by
  cases t <;> rfl
@[simp] theorem withTable_layoutCount (t : Table) (es : List TableEntry) (s : State) :
    (s.withTable t es).layoutCount = s.layoutCount := by
  cases t <;> rfl
@[simp] theorem withTable_rdBits (t : Table) (es : List TableEntry) (s : State) :
    (s.withTable t es).rdBits = s.rdBits := by
  cases t <;> rfl
@[simp] theorem withTable_wrBits (t : Table) (es : List TableEntry) (s : State) :
    (s.withTable t es).wrBits = s.wrBits := by
  cases t <;> rfl
@[simp] theorem withTable_notifyNeed (t : Table) (es : List TableEntry) (s : State) :
    (s.withTable t es).notifyNeed = s.notifyNeed := by
  cases t <;> rfl
@[simp] theorem withTable_rdpd (t : Table) (es : List TableEntry) (s : State) :
    (s.withTable t es).rdpd = s.rdpd := by
  cases t <;> rfl
@[simp] theorem withTable_wrpd (t : Table) (es : List TableEntry) (s : State) :
    (s.withTable t es).wrpd = s.wrpd := by
  cases t <;> rfl
@[simp] theorem withTable_vs (t : Table) (es : List TableEntry) (s : State) :
    (s.withTable t es).vs = s.vs := by
  cases t <;> rfl
@[simp] theorem withTable_layout (t : Table) (es : List TableEntry) (s : State) :
    (s.withTable t es).layout = s.layout := by
  cases t <;> rfl
@[simp] theorem withTable_nq (t : Table) (es : List TableEntry) (s : State) :
    (s.withTable t es).nq = s.nq := by
  cases t <;> rfl
@[simp] theorem withTable_params (t : Table) (es : List TableEntry) (s : State) :
    (s.withTable t es).params = s.params := by
  cases t <;> rfl
@[simp] theorem withTable_draws (t : Table) (es : List TableEntry) (s : State) :
    (s.withTable t es).draws = s.draws := by
  cases t <;> rfl
@[simp] theorem withTable_sched (t : Table) (es : List TableEntry) (s : State) :
    (s.withTable t es).sched = s.sched := by
  cases t <;> rfl
@[simp] theorem withTable_replies (t : Table) (es : List TableEntry) (s : State) :
    (s.withTable t es).replies = s.replies := by
  cases t <;> rfl

/-! ### Views of the state under the updates -/

@[simp] theorem mem_withMem (b : Buf) (m : Memory) (s : State) : (s.withMem b m).mem b = m := by
  cases b <;> rfl

/-- The other buffer keeps its content (40_codec.md R161). -/
theorem mem_withMem_of_ne {b c : Buf} (h : c ≠ b) (m : Memory) (s : State) :
    (s.withMem b m).mem c = s.mem c := by
  cases b <;> cases c <;> first | rfl | exact absurd rfl h

@[simp] theorem mem_rd (s : State) : s.mem .rd = s.rdpd := rfl
@[simp] theorem mem_wr (s : State) : s.mem .wr = s.wrpd := rfl
@[simp] theorem size_rd (s : State) : s.size .rd = s.rdSize.toNat := rfl
@[simp] theorem size_wr (s : State) : s.size .wr = s.wrSize.toNat := rfl
@[simp] theorem dir_buf_read : Dir.buf .read = .rd := rfl
@[simp] theorem dir_buf_write : Dir.buf .write = .wr := rfl
@[simp] theorem mem_ok (b : Buf) (s : State) : s.ok.mem b = s.mem b := by cases b <;> rfl
@[simp] theorem mem_fail (r : Report) (b : Buf) (s : State) : (s.fail r).mem b = s.mem b := by
  cases b <;> rfl
@[simp] theorem mem_advanceTo (p : Nat) (b : Buf) (s : State) : (s.advanceTo p).mem b = s.mem b := by
  cases b <;> rfl
@[simp] theorem withMem_self (b : Buf) (s : State) : s.withMem b (s.mem b) = s := by
  cases b <;> rfl

end Sys2Proof.Machine
end

