-- ==== Sys2Proof/Laws/Codec.lean ====
section
/-! SUPPORT. What a codec access does, once for each of its two outcomes, and which access each command
makes (40_codec.md R141 to R153). -/

namespace Sys2Proof.Machine

theorem size_lt (s : State) (buf : Buf) : s.size buf < 65536 := by
  cases buf <;> simp only [State.size] <;> omega

theorem codecRead_of_fits {s : State} {buf : Buf} {p w : Nat} (h : p + w ≤ 8 * s.size buf) :
    codecRead buf p w s =
      { (s.advanceTo (p + w)).ok with result := (fieldRead (s.mem buf) p w).setWidth 32 } :=
  if_pos (decide_eq_true h)

theorem codecRead_of_overrun {s : State} {buf : Buf} {p w : Nat} (h : 8 * s.size buf < p + w) :
    codecRead buf p w s = s.fail (reportAt .outOfBounds p) :=
  if_neg fun h' => absurd (of_decide_eq_true h') (by omega)

theorem codecWrite_of_fits {s : State} {buf : Buf} {p w : Nat} (h : p + w ≤ 8 * s.size buf) :
    codecWrite buf p w s =
      ((s.advanceTo (p + w)).ok).withMem buf (fieldWrite (s.mem buf) p s.arg w) :=
  if_pos (decide_eq_true h)

theorem codecWrite_of_overrun {s : State} {buf : Buf} {p w : Nat} (h : 8 * s.size buf < p + w) :
    codecWrite buf p w s = s.fail (reportAt .outOfBounds p) :=
  if_neg fun h' => absurd (of_decide_eq_true h') (by omega)

/-- A codec read that leaves ERRCODE = 0 was in bounds. -/
theorem codecRead_fits {s : State} {buf : Buf} {p w : Nat}
    (h : (codecRead buf p w s).errcode = 0) : p + w ≤ 8 * s.size buf := by
  by_contra hn
  rw [codecRead_of_overrun (by omega)] at h
  simp [reportAt, ErrorName.code] at h

/-- A codec write that leaves ERRCODE = 0 was in bounds. -/
theorem codecWrite_fits {s : State} {buf : Buf} {p w : Nat}
    (h : (codecWrite buf p w s).errcode = 0) : p + w ≤ 8 * s.size buf := by
  by_contra hn
  rw [codecWrite_of_overrun (by omega)] at h
  simp [reportAt, ErrorName.code] at h

/-- WRB and WRC are the codec write of the field `writtenField` names. -/
theorem exec_of_writtenField {s : State} {i : Instr} {buf : Buf} {p w : Nat}
    (h : writtenField i s = some (buf, p, w)) : exec i s = .next (codecWrite buf p w s) := by
  cases i <;> simp only [writtenField, Option.some.injEq, Prod.mk.injEq, reduceCtorEq] at h
  all_goals obtain ⟨rfl, rfl, rfl⟩ := h; rfl

end Sys2Proof.Machine
end

