-- ==== Sys2Proof/Laws/Compile.lean ====
section
/-! SUPPORT. What each part of COMPILE can do (41_config_and_compile.md R190 to R222): one inversion
lemma for each operation, then what a finished walk has built (R225). -/

namespace Sys2Proof.Machine

open Sys2Proof.Config

/-! ### Element types -/

/-- The width of a defined type (10_state.md R52): 1 to 64 bits for a data type, at most 16 for PAD. -/
theorem width_bounds {c : BitVec 8} {t : ElemType} (h : elemType c = some t) (bb : BoolBits) :
    (t.isPad = false → 1 ≤ t.width bb ∧ t.width bb ≤ 64) ∧ (t.isPad = true → t.width bb ≤ 16) := by
  unfold elemType at h
  split at h
  all_goals try (obtain rfl := Option.some.inj h; simp [ElemType.isPad, ElemType.width]; done)
  · obtain rfl := Option.some.inj h
    cases bb <;> simp [ElemType.isPad, ElemType.width, BoolBits.toNat]
  · split at h
    · obtain rfl := Option.some.inj h
      simp [ElemType.isPad, ElemType.width]
      omega
    · split at h
      · obtain rfl := Option.some.inj h
        simp [ElemType.isPad, ElemType.width]
        omega
      · cases h

/-- A byte-class type is a data type of whole bytes (10_state.md R55). -/
theorem byteClass_width {t : ElemType} {bb : BoolBits} (h : t.byteClass bb = true) :
    t.isPad = false ∧ t.width bb % 8 = 0 := by
  cases t <;> cases bb <;>
    simp_all [ElemType.byteClass, ElemType.isPad, ElemType.width, BoolBits.toNat]

/-! ### Registry checks -/

/-- What CheckRegistry accepts (R190, R191): DESC_COUNT in range, every descriptor in use valid, the
table strictly ascending. -/
theorem checkDescs_ok {s : State} {n i : Nat} (h : s.checkDescs n i = .ok ()) :
    ∀ j, i ≤ j → j < i + n →
      s.validDesc j = true ∧ (0 < j → s.instAt (j - 1) < s.instAt j) := by
  induction n generalizing i with
  | zero => intro j h1 h2; omega
  | succ n ih =>
    unfold State.checkDescs at h
    split at h
    · cases h
    · rename_i hv
      split at h
      · cases h
      · rename_i hd
        split at h
        · cases h
        · rename_i hu
          intro j h1 h2
          by_cases hj : j = i
          · subst hj
            refine ⟨by simpa using hv, fun h0 => ?_⟩
            by_contra hc
            rcases Nat.lt_or_ge (s.instAt j) (s.instAt (j - 1)) with hlt | hge
            · exact hu ⟨h0, hlt⟩
            · exact hd ⟨h0, by omega⟩
          · exact ih h j (by omega) (by omega)

theorem checkRegistry_ok {s : State} (h : s.checkRegistry = .ok ()) :
    s.descs ≤ s.params.descMax ∧ 0 < s.descs ∧
      ∀ j, j < s.descs → s.validDesc j = true ∧ (0 < j → s.instAt (j - 1) < s.instAt j) := by
  unfold State.checkRegistry at h
  split at h
  · cases h
  · split at h
    · cases h
    · exact ⟨by omega, by omega, fun j hj => checkDescs_ok h j (by omega) (by omega)⟩

/-- Lookup answers a descriptor in use with that INSTANCE (R193). -/
theorem lookup_some {s : State} {id : BitVec 16} {i : Nat} (h : s.lookup id = some i) :
    i < s.descs ∧ (s.entry .desc i).descInst = id := by
  unfold State.lookup at h
  have h1 := List.find?_some h
  have h2 := List.mem_of_find?_eq_some h
  exact ⟨by simpa using h2, by simpa using h1⟩

/-- What Resolve gives of an element of a valid descriptor (R192, R203): a defined type and 1 to 255
items. -/
theorem resolve_valid {s : State} {i el : Nat} (hv : s.validDesc i = true)
    (hel : el < (s.entry .desc i).descNelem.toNat) :
    (elemType (s.resolve i el).code).isSome = true ∧ 1 ≤ (s.resolve i el).span ∧
      (s.resolve i el).span ≤ 255 := by
  unfold State.validDesc at hv
  unfold State.resolve
  cases hs : (s.entry .desc i).descStruct with
  | true =>
    simp only [hs, if_true, Bool.and_eq_true, List.all_eq_true, List.mem_range] at hv ⊢
    have := hv.2.2 el hel
    unfold State.validMember at this
    simp only [Bool.and_eq_true, decide_eq_true_eq] at this
    have h8 := ((s.entry .memb ((s.entry .desc i).descBase.toNat + el)).membNsub).isLt
    exact ⟨this.1, this.2, by omega⟩
  | false =>
    simp only [hs, Bool.false_eq_true, if_false, Bool.and_eq_true] at hv ⊢
    exact ⟨hv.2, by simp⟩

/-! ### Plans -/

@[simp] theorem append_entries (p : Plan) (e : LayoutEntry) :
    (p.append e).entries = p.entries ++ [e] := by
  unfold Plan.append Plan.advance
  cases e.dir <;> rfl

@[simp] theorem append_need (p : Plan) (e : LayoutEntry) : (p.append e).need = p.need := by
  unfold Plan.append Plan.advance
  cases e.dir <;> rfl

theorem append_cur (p : Plan) (e : LayoutEntry) (d : Dir) :
    (p.append e).cur d = if e.dir = d then p.cur d + e.extent else p.cur d := by
  unfold Plan.append Plan.advance
  cases he : e.dir <;> cases d <;> simp [Plan.cur]

/-- One resolved element (R214 to R217): the checks held and its entry was appended. -/
theorem compileElem_ok {s : State} {i k el : Nat} {d : Dir} {id : BitVec 16} {p p' : Plan}
    (h : s.compileElem i k d id el p = .ok p') :
    ∃ t, elemType (s.resolve i el).code = some t ∧
      (t.byteClass s.params.boolBits = true → p.cur d % 8 = 0) ∧
      (t.isPad = false → (s.resolve i el).slot + (s.resolve i el).span ≤ s.params.vsSlots) ∧
      p.entries.length ≠ s.params.layoutMax ∧
      p' = p.append
        (elemEntry s t (s.resolve i el) d (p.cur d) k id el (s.entry .desc i).descHook) := by
  unfold State.compileElem at h
  simp only at h
  split at h
  · cases h
  · rename_i t ht
    split at h
    · cases h
    · rename_i h1
      split at h
      · cases h
      · rename_i h2
        split at h
        · cases h
        · rename_i h3
          refine ⟨t, ht, fun hb => ?_, fun hp => ?_, h3, (Except.ok.inj h).symm⟩
          · by_contra hc
            exact h1 ⟨hb, hc⟩
          · by_contra hc
            exact h2 ⟨by simp [hp], by omega⟩

theorem compilePad_ok {s : State} {e : TableEntry} {d : Dir} {k : Nat} {p p' : Plan}
    (h : s.compilePad e d k p = .ok p') :
    p.entries.length ≠ s.params.layoutMax ∧
      p' = p.append (padEntry d (p.cur d) e.mapCount.toNat k) := by
  unfold State.compilePad at h
  split at h
  · cases h
  · rename_i h1
    exact ⟨h1, (Except.ok.inj h).symm⟩

/-- What an ADI map entry did (R202, R219). -/
theorem compileAdi_ok {s : State} {e : TableEntry} {d : Dir} {k : Nat} {p p' : Plan}
    (h : s.compileAdi e d k p = .ok p') :
    ∃ i cnt q, s.lookup e.mapInst = some i ∧
      elemCount e (s.entry .desc i).descNelem.toNat = some cnt ∧
      s.compileElems i k d e.mapInst cnt e.mapStart.toNat p = .ok q ∧
      p' = if needsEvent d cnt (s.entry .desc i).descHook then { q with need := q.need + 1 }
        else q := by
  unfold State.compileAdi at h
  split at h
  · cases h
  · rename_i i hi
    split at h
    · cases h
    · rename_i cnt hc
      split at h
      · cases h
      · rename_i q hq
        exact ⟨i, cnt, q, hi, hc, hq, (Except.ok.inj h).symm⟩

/-- The resolved elements of an ADI entry lie inside the ADI (R202). -/
theorem elemCount_some {e : TableEntry} {n cnt : Nat} (h : elemCount e n = some cnt) :
    e.mapStart.toNat + cnt ≤ n := by
  unfold elemCount at h
  split at h
  · split at h
    · cases h
    · obtain rfl := Option.some.inj h
      omega
  · split at h
    · cases h
    · obtain rfl := Option.some.inj h
      omega

/-! ### Tiling and order of appended entries -/

theorem tiles_append (d : Dir) (p b : Nat) (es : List LayoutEntry) (e : LayoutEntry) :
    tiles d p (es ++ [e]) b =
      if e.dir = d then tiles d p es e.pos && decide (e.endPos = b) else tiles d p es b := by
  induction es generalizing p with
  | nil =>
    by_cases h : e.dir = d
    · simp only [List.nil_append, tiles, if_pos h]
      congr 1
      exact decide_eq_decide.mpr eq_comm
    · simp [tiles, h]
  | cons f es ih =>
    by_cases hf : f.dir = d
    · simp only [List.cons_append, tiles, hf, if_true, ih]
      split
      · rw [Bool.and_assoc]
      · rfl
    · simp only [List.cons_append, tiles, hf, if_false, ih]

/-- The entry before the next one: the last of the list, or the one before the list. -/
def lastOr (before : Option LayoutEntry) (es : List LayoutEntry) : Option LayoutEntry :=
  match es.getLast? with
  | some f => some f
  | none => before

theorem originsInOrder_append (s : State) (before : Option LayoutEntry) (es : List LayoutEntry)
    (e : LayoutEntry) :
    originsInOrder s before (es ++ [e]) =
      (originsInOrder s before es && originStep s (lastOr before es) e) := by
  induction es generalizing before with
  | nil => simp [originsInOrder, lastOr]
  | cons f es ih =>
    rw [List.cons_append, originsInOrder, ih, originsInOrder, Bool.and_assoc]
    congr 2
    unfold lastOr
    cases es with
    | nil => simp
    | cons g es =>
      rw [List.getLast?_cons_cons]
      cases hg : (g :: es).getLast? with
      | none => simp at hg
      | some x => rfl

/-- A position the BYTE and BIT fields can hold (10_state.md R61). -/
theorem pos_of_fields {c : Nat} (h : c ≤ 8 * 65535 + 7) :
    8 * (BitVec.ofNat 16 (c / 8)).toNat + (BitVec.ofNat 3 (c % 8)).toNat = c := by
  simp only [BitVec.toNat_ofNat]
  omega

/-- What holds of a plan at any point of the walk (R225 a, c, d, e). The position of an entry is exact
as long as the cursor has not left the largest buffer. -/
structure PlanOk (s : State) (p : Plan) : Prop where
  len : p.entries.length ≤ s.params.layoutMax
  tile : ∀ d, p.cur d ≤ 8 * 65535 → tiles d 0 p.entries (p.cur d) = true
  ranges : ∀ e ∈ p.entries, entryRanges s.params e = true
  tables : ∀ e ∈ p.entries, entryFromTables s e = true
  order : originsInOrder s none p.entries = true

theorem planOk_start (s : State) : PlanOk s .start where
  len := Nat.zero_le _
  tile d _ := by cases d <;> rfl
  ranges e h := by cases h
  tables e h := by cases h
  order := rfl

/-- Appending an entry at its direction's cursor keeps the plan (R201, R217). -/
theorem planOk_append {s : State} {p : Plan} {e : LayoutEntry} (h : PlanOk s p)
    (hlen : p.entries.length ≠ s.params.layoutMax)
    (hpos : p.cur e.dir ≤ 8 * 65535 → e.pos = p.cur e.dir)
    (hr : entryRanges s.params e = true) (ht : entryFromTables s e = true)
    (ho : originStep s p.entries.getLast? e = true) : PlanOk s (p.append e) where
  len := by
    have := h.len
    simp
    omega
  tile d hd := by
    rw [append_cur] at hd ⊢
    rw [append_entries, tiles_append]
    by_cases hed : e.dir = d
    · subst hed
      simp only [if_true] at hd ⊢
      have hc : p.cur e.dir ≤ 8 * 65535 := by omega
      rw [hpos hc, h.tile _ hc]
      simp [LayoutEntry.endPos, hpos hc]
    · simp only [hed, if_false] at hd ⊢
      exact h.tile d hd
  ranges f hf := by
    rw [append_entries, List.mem_append, List.mem_singleton] at hf
    rcases hf with hf | rfl
    · exact h.ranges f hf
    · exact hr
  tables f hf := by
    rw [append_entries, List.mem_append, List.mem_singleton] at hf
    rcases hf with hf | rfl
    · exact h.tables f hf
    · exact ht
  order := by
    rw [append_entries, originsInOrder_append, h.order, Bool.true_and]
    have : lastOr none p.entries = p.entries.getLast? := by
      unfold lastOr
      cases p.entries.getLast? <;> rfl
    rw [this]
    exact ho

end Sys2Proof.Machine
end

