-- ==== Sys2Proof/Laws/Encoding.lean ====
section
/-! SUPPORT. The fields of an assembled command word, and a word assembled from its own fields
(30_encoding.md R111). -/

namespace Sys2Proof

theorem opField_assemble (high : BitVec 16) (bitOff : BitVec 3) (width : BitVec 6)
    (buf : BitVec 1) (op : BitVec 4) : opField (assemble high bitOff width buf op) = op := by
  unfold opField assemble
  apply BitVec.eq_of_getLsbD_eq
  intro i hi
  simp only [BitVec.getLsbD_extractLsb', BitVec.getLsbD_append]
  interval_cases i <;> simp

theorem widthField_assemble (high : BitVec 16) (bitOff : BitVec 3) (width : BitVec 6)
    (buf : BitVec 1) (op : BitVec 4) : widthField (assemble high bitOff width buf op) = width := by
  unfold widthField assemble
  apply BitVec.eq_of_getLsbD_eq
  intro i hi
  simp only [BitVec.getLsbD_extractLsb', BitVec.getLsbD_append]
  interval_cases i <;> simp

theorem bitOffField_assemble (high : BitVec 16) (bitOff : BitVec 3) (width : BitVec 6)
    (buf : BitVec 1) (op : BitVec 4) : bitOffField (assemble high bitOff width buf op) = bitOff := by
  unfold bitOffField assemble
  apply BitVec.eq_of_getLsbD_eq
  intro i hi
  simp only [BitVec.getLsbD_extractLsb', BitVec.getLsbD_append]
  interval_cases i <;> simp

theorem rsvField_assemble (high : BitVec 16) (bitOff : BitVec 3) (width : BitVec 6)
    (buf : BitVec 1) (op : BitVec 4) : rsvField (assemble high bitOff width buf op) = 0 := by
  unfold rsvField assemble
  apply BitVec.eq_of_getLsbD_eq
  intro i hi
  simp only [BitVec.getLsbD_extractLsb', BitVec.getLsbD_append]
  interval_cases i <;> simp

theorem highField_assemble (high : BitVec 16) (bitOff : BitVec 3) (width : BitVec 6)
    (buf : BitVec 1) (op : BitVec 4) : highField (assemble high bitOff width buf op) = high := by
  unfold highField assemble
  apply BitVec.eq_of_getLsbD_eq
  intro i hi
  simp only [BitVec.getLsbD_extractLsb', BitVec.getLsbD_append]
  interval_cases i <;> simp

theorem bufField_assemble (high : BitVec 16) (bitOff : BitVec 3) (width : BitVec 6)
    (buf : Buf) (op : BitVec 4) : bufField (assemble high bitOff width buf.bit op) = buf := by
  unfold bufField assemble
  simp only [BitVec.getLsbD_append]
  cases buf <;> simp [Buf.bit]

/-- A word whose RSV is 0 is assembled from its own fields. -/
theorem assemble_fields {c : Word} (h : rsvField c = 0) :
    assemble (highField c) (bitOffField c) (widthField c) (bufField c).bit (opField c) = c := by
  have hb : (bufField c).bit = c.extractLsb' 4 1 := by
    unfold bufField
    apply BitVec.eq_of_getLsbD_eq
    intro i hi
    obtain rfl : i = 0 := by omega
    cases h4 : c.getLsbD 4 <;> simp_all [Buf.bit]
  have hr : (0 : BitVec 2) = c.extractLsb' 14 2 := h.symm
  unfold assemble highField bitOffField widthField opField
  rw [hb, hr]
  apply BitVec.eq_of_getLsbD_eq
  intro i hi
  simp only [BitVec.getLsbD_extractLsb', BitVec.getLsbD_append]
  interval_cases i <;> simp

end Sys2Proof
end

