-- ==== Sys2Proof/Laws/Events.lean ====
section
/-! SUPPORT. The notification events of a layout (42_pack_unpack.md R253): how they change when entries
are appended, and what an event word holds. -/

namespace Sys2Proof.Machine

/-- An entry outside every group adds no event. -/
theorem eventsFrom_append_ungrouped (g : Option (LayoutEntry × Nat)) (es : List LayoutEntry)
    {e : LayoutEntry} (he : e.grouped = false) : eventsFrom g (es ++ [e]) = eventsFrom g es := by
  induction es generalizing g with
  | nil => simp [eventsFrom, he, closeGroup]
  | cons f es ih =>
    simp only [List.cons_append, eventsFrom]
    split
    · split
      · split <;> rw [ih]
      · rw [ih]
    · rw [ih]

/-- Entries outside every group add no event. -/
theorem layoutEvents_append_ungrouped (es new : List LayoutEntry)
    (h : ∀ e ∈ new, e.grouped = false) : layoutEvents (es ++ new) = layoutEvents es := by
  induction new generalizing es with
  | nil => simp
  | cons e new ih =>
    rw [show es ++ e :: new = es ++ [e] ++ new by simp, ih _ fun f hf => h f (by simp [hf])]
    exact eventsFrom_append_ungrouped none es (h e (by simp))

/-- An open group takes every further entry of its origin. -/
theorem eventsFrom_same_origin (first : LayoutEntry) (n : Nat) (new : List LayoutEntry)
    (h : ∀ e ∈ new, e.grouped = true ∧ e.origin = first.origin) :
    eventsFrom (some (first, n)) new = groupEvents first (n + new.length) := by
  induction new generalizing n with
  | nil => rfl
  | cons e new ih =>
    have he := h e (by simp)
    simp only [eventsFrom, he.1, he.2, if_true, List.length_cons]
    rw [ih _ fun f hf => h f (by simp [hf])]
    congr 1
    omega

/-- The origin of the last entry, or of the open group before any entry. -/
def lastOrigin (g : Option (LayoutEntry × Nat)) (es : List LayoutEntry) : Option (BitVec 16) :=
  match es.getLast? with
  | some f => some f.origin
  | none => g.map fun x => x.1.origin

/-- A new group after entries of other origins adds its own events. -/
theorem eventsFrom_append_group (g : Option (LayoutEntry × Nat)) (es : List LayoutEntry)
    (e : LayoutEntry) (new : List LayoutEntry)
    (h : ∀ f ∈ e :: new, f.grouped = true ∧ f.origin = e.origin)
    (hl : lastOrigin g es ≠ some e.origin) :
    eventsFrom g (es ++ e :: new) = eventsFrom g es ++ groupEvents e (new.length + 1) := by
  induction es generalizing g with
  | nil =>
    have he := h e (by simp)
    have hn : eventsFrom (some (e, 1)) new = groupEvents e (new.length + 1) := by
      rw [eventsFrom_same_origin e 1 new fun f hf => h f (by simp [hf])]
      congr 1
      omega
    simp only [List.nil_append, eventsFrom, he.1, if_true]
    cases g with
    | none => simp [closeGroup, hn]
    | some x =>
      obtain ⟨f, c⟩ := x
      have : e.origin ≠ f.origin := by
        intro hc
        apply hl
        simp [lastOrigin, hc]
      simp [this, closeGroup, hn]
  | cons f es ih =>
    have hstep : ∀ g', lastOrigin g (f :: es) = some (match es.getLast? with
        | some x => x.origin
        | none => f.origin) → (∀ x, g' = some x → x.1.origin = f.origin) →
        lastOrigin g' es ≠ some e.origin := by
      intro g' h1 h2 hc
      apply hl
      rw [h1]
      unfold lastOrigin at hc
      cases hes : es.getLast? with
      | some x => simpa [hes] using hc
      | none =>
        simp only [hes] at hc ⊢
        cases g' with
        | none => simp at hc
        | some x =>
          have := h2 x rfl
          simp at hc
          rw [← this, hc]
    have hlo : lastOrigin g (f :: es) = some (match es.getLast? with
        | some x => x.origin
        | none => f.origin) := by
      unfold lastOrigin
      cases es with
      | nil => simp
      | cons x es =>
        rw [List.getLast?_cons_cons]
        cases hx : (x :: es).getLast? with
        | none => simp at hx
        | some y => rfl
    simp only [List.cons_append, eventsFrom]
    split
    · cases g with
      | none => exact ih _ (hstep _ hlo fun x hx => by cases hx; rfl)
      | some y =>
        obtain ⟨a, c⟩ := y
        simp only
        split
        · rename_i hfa
          exact ih _ (hstep _ hlo fun x hx => by cases hx; exact hfa.symm)
        · rw [ih _ (hstep _ hlo fun x hx => by cases hx; rfl), List.append_assoc]
    · rw [ih _ (hstep _ hlo fun x hx => by cases hx), List.append_assoc]

/-- A group at the end of a layout, of an origin no earlier entry has. -/
theorem layoutEvents_append_group (es : List LayoutEntry) (e : LayoutEntry) (new : List LayoutEntry)
    (h : ∀ f ∈ e :: new, f.grouped = true ∧ f.origin = e.origin)
    (hl : ∀ f, es.getLast? = some f → f.origin ≠ e.origin) :
    layoutEvents (es ++ e :: new) = layoutEvents es ++ groupEvents e (new.length + 1) := by
  apply eventsFrom_append_group none es e new h
  unfold lastOrigin
  cases hes : es.getLast? with
  | none => simp
  | some f => simpa using hl f hes

/-- A group gives one event or none. -/
theorem groupEvents_length (e : LayoutEntry) (n : Nat) :
    (groupEvents e n).length = if e.hook.notifies then 1 else 0 := by
  unfold groupEvents
  split <;> simp

/-- INSTANCE of an event word (10_state.md R60). -/
theorem eventWord_inst (e : LayoutEntry) (n : Nat) :
    (eventWord e n).extractLsb' 0 16 = e.inst := by
  unfold eventWord
  apply BitVec.eq_of_getLsbD_eq
  intro i hi
  rw [BitVec.getLsbD_extractLsb', BitVec.getLsbD_append]
  simp [hi]

/-- COUNT of an event word (10_state.md R60). -/
theorem eventWord_count (e : LayoutEntry) (n : Nat) :
    (eventWord e n).extractLsb' 24 8 = BitVec.ofNat 8 n := by
  unfold eventWord
  apply BitVec.eq_of_getLsbD_eq
  intro i hi
  rw [BitVec.getLsbD_extractLsb', BitVec.getLsbD_append, BitVec.getLsbD_append]
  simp [hi, show ¬ 24 + i < 16 by omega, show ¬ 24 + i - 16 < 8 by omega,
    show 24 + i - 16 - 8 = i by omega]

end Sys2Proof.Machine
end

