-- ==== Sys2Proof/Laws/Exchange.lean ====
section
/-! SUPPORT. What the loops of PACK and UNPACK do (42_pack_unpack.md R242 to R255): the bounds check,
the bits PACK writes, the slots UNPACK stores. -/

namespace Sys2Proof.Machine

open Sys2Proof.Config

/-- An entry that copies is a data entry of the direction. -/
theorem copies_iff (e : LayoutEntry) (d : Dir) :
    e.copies d = true ↔ e.dir = d ∧ e.kind = .data := by
  simp [LayoutEntry.copies]

/-! ### The bounds check -/

/-- No data entry ends past the limit exactly when the check finds none (R242, R250). -/
theorem firstOverrun_eq_none (d : Dir) (limit n : Nat) (es : List LayoutEntry) :
    firstOverrun d limit n es = none ↔
      ∀ e ∈ es, e.copies d = true → e.endPos ≤ limit := by
  induction es generalizing n with
  | nil => simp [firstOverrun]
  | cons e es ih =>
    unfold firstOverrun
    split
    · rename_i h
      simp only [Bool.and_eq_true, decide_eq_true_eq] at h
      simp only [reduceCtorEq, List.mem_cons, false_iff, not_forall]
      exact ⟨e, .inl rfl, h.1, by omega⟩
    · rename_i h
      rw [ih]
      simp only [List.mem_cons, forall_eq_or_imp]
      constructor
      · intro hall
        refine ⟨fun hc => ?_, hall⟩
        by_contra hgt
        exact h (by simp [hc]; omega)
      · exact fun hall => hall.2

/-- The check answers the first data entry that ends past the limit (R242, R250). -/
theorem firstOverrun_eq_some (d : Dir) (limit n : Nat) (es : List LayoutEntry) (j : Nat)
    (e : LayoutEntry) (he : es[j]? = some e) (hc : e.copies d = true) (hlim : limit < e.endPos)
    (hmin : ∀ i f, i < j → es[i]? = some f → f.copies d = true → f.endPos ≤ limit) :
    firstOverrun d limit n es = some (n + j) := by
  induction es generalizing n j with
  | nil => simp at he
  | cons f es ih =>
    unfold firstOverrun
    cases j with
    | zero =>
      simp only [List.getElem?_cons_zero, Option.some.injEq] at he
      subst he
      simp [hc, hlim]
    | succ j =>
      have hf := hmin 0 f (by omega) (by simp)
      have : (f.copies d && decide (f.endPos > limit)) = false := by
        cases hfc : f.copies d with
        | false => rfl
        | true =>
          have := hf hfc
          simp
          omega
      rw [this]
      simp only [Bool.false_eq_true, if_false]
      rw [ih (n + 1) j (by simpa using he) fun i f hi hf => hmin (i + 1) f (by omega) (by simpa using hf)]
      congr 1
      omega

/-! ### Tiling -/

/-- Entries that tile the bits p to b lie inside them (R225 a). -/
theorem tiles_bounds {d : Dir} {p b : Nat} {es : List LayoutEntry} (h : tiles d p es b = true) :
    p ≤ b ∧ ∀ e ∈ es, e.dir = d → p ≤ e.pos ∧ e.endPos ≤ b := by
  induction es generalizing p with
  | nil => simpa [tiles] using Nat.le_of_eq (by simpa [tiles] using h)
  | cons e es ih =>
    unfold tiles at h
    split at h
    · rename_i hd
      simp only [Bool.and_eq_true, decide_eq_true_eq] at h
      obtain ⟨h1, h2⟩ := ih h.2
      have hle : e.pos ≤ e.endPos := Nat.le_add_right _ _
      refine ⟨by omega, fun f hf hfd => ?_⟩
      rcases List.mem_cons.mp hf with rfl | hf
      · exact ⟨by omega, h1⟩
      · have := h2 f hf hfd
        exact ⟨by omega, this.2⟩
    · rename_i hd
      obtain ⟨h1, h2⟩ := ih h
      refine ⟨h1, fun f hf hfd => ?_⟩
      rcases List.mem_cons.mp hf with rfl | hf
      · exact absurd hfd hd
      · exact h2 f hf hfd

/-- Of two entries that tile, the later one starts where or after the earlier one ends (R225 a). -/
theorem tiles_later {d : Dir} {p b : Nat} {pre post : List LayoutEntry} {e : LayoutEntry}
    (h : tiles d p (pre ++ e :: post) b = true) (he : e.dir = d) :
    ∀ f ∈ post, f.dir = d → e.endPos ≤ f.pos := by
  induction pre generalizing p with
  | nil =>
    simp only [List.nil_append, tiles, he, if_true, Bool.and_eq_true] at h
    exact fun f hf hfd => ((tiles_bounds h.2).2 f hf hfd).1
  | cons g pre ih =>
    simp only [List.cons_append, tiles] at h
    split at h
    · simp only [Bool.and_eq_true] at h
      exact ih h.2
    · exact ih h

/-! ### PACK -/

theorem packItems_wf {s : State} {e : LayoutEntry} {m : Memory} (h : Memory.wf m) (n : Nat) :
    Memory.wf (packItems s e m n) := by
  induction n with
  | zero => exact h
  | succ n ih => exact fieldWrite_wf ih _ _ _

theorem packEntries_wf {s : State} (es : List LayoutEntry) {m : Memory} (h : Memory.wf m) :
    Memory.wf (packEntries s es m) := by
  induction es generalizing m with
  | nil => exact h
  | cons e es ih =>
    unfold packEntries
    split
    · exact ih (packItems_wf h _)
    · exact ih h

theorem packItems_below {s : State} {e : LayoutEntry} {m : Memory} {b : Nat}
    (h : Memory.below m b) (hs : e.stride = e.width.setWidth 16) (n : Nat)
    (hn : e.pos + n * e.stride.toNat ≤ 8 * b) : Memory.below (packItems s e m n) b := by
  have hw : e.stride.toNat = e.width.toNat := by
    rw [hs]
    simp
    have := e.width.isLt
    omega
  induction n with
  | zero => exact h
  | succ n ih =>
    rw [Nat.succ_mul] at hn
    refine fieldWrite_below (ih (by omega)) _ _ _ ?_
    unfold LayoutEntry.itemPos
    omega

theorem packEntries_below {s : State} (es : List LayoutEntry) {m : Memory} {b : Nat}
    (h : Memory.below m b)
    (hs : ∀ e ∈ es, e.copies .write = true → e.stride = e.width.setWidth 16)
    (he : ∀ e ∈ es, e.copies .write = true → e.endPos ≤ 8 * b) :
    Memory.below (packEntries s es m) b := by
  induction es generalizing m with
  | nil => exact h
  | cons e es ih =>
    unfold packEntries
    have hs' : ∀ f ∈ es, f.copies .write = true → f.stride = f.width.setWidth 16 :=
      fun f hf => hs f (by simp [hf])
    have he' : ∀ f ∈ es, f.copies .write = true → f.endPos ≤ 8 * b := fun f hf => he f (by simp [hf])
    split
    · rename_i hc
      refine ih (packItems_below h (hs e (by simp) hc) _ ?_) hs' he'
      have := he e (by simp) hc
      unfold LayoutEntry.endPos LayoutEntry.extent at this
      rw [Nat.mul_comm]
      exact this
    · exact ih h hs' he'

/-- The bits the first items of a data entry write (R243): item i covers the WIDTH bits at
pos + i·STRIDE, and STRIDE is WIDTH (R225 d). -/
theorem bitAt_packItems {s : State} {e : LayoutEntry} {m : Memory} (h : Memory.wf m)
    (hw : e.stride.toNat = e.width.toNat) (h0 : 1 ≤ e.width.toNat) (n q : Nat) :
    Memory.bitAt (packItems s e m n) q =
      if e.pos ≤ q ∧ q < e.pos + n * e.width.toNat then
        (s.vsSlot (e.slot.toNat + (q - e.pos) / e.width.toNat)).getLsbD
          ((q - e.pos) % e.width.toNat)
      else Memory.bitAt m q := by
  induction n with
  | zero =>
    rw [if_neg (by omega)]
    rfl
  | succ n ih =>
    rw [packItems, bitAt_fieldWrite (packItems_wf h n), ih]
    unfold LayoutEntry.itemPos
    rw [hw, Nat.succ_mul]
    by_cases h1 : e.pos + n * e.width.toNat ≤ q ∧ q < e.pos + n * e.width.toNat + e.width.toNat
    · rw [if_pos h1, if_pos (by omega)]
      have hq : q - e.pos = (q - (e.pos + n * e.width.toNat)) + e.width.toNat * n := by
        rw [Nat.mul_comm e.width.toNat n]
        omega
      have hlt : q - (e.pos + n * e.width.toNat) < e.width.toNat := by omega
      rw [hq, Nat.add_mul_div_left _ _ (by omega), Nat.add_mul_mod_self_left,
        Nat.div_eq_of_lt hlt, Nat.mod_eq_of_lt hlt, Nat.zero_add]
    · rw [if_neg h1]
      by_cases h2 : e.pos ≤ q ∧ q < e.pos + n * e.width.toNat
      · rw [if_pos h2, if_pos (by omega)]
      · rw [if_neg h2, if_neg (by omega)]

/-- Bit `q` lies in an entry. -/
def LayoutEntry.covers (e : LayoutEntry) (q : Nat) : Prop := e.pos ≤ q ∧ q < e.endPos

/-- PACK keeps every bit no write-direction data entry covers (R244). -/
theorem bitAt_packEntries_outside {s : State} (es : List LayoutEntry) {m : Memory}
    (h : Memory.wf m) (q : Nat)
    (hw : ∀ e ∈ es, e.copies .write = true → e.stride.toNat = e.width.toNat ∧ 1 ≤ e.width.toNat)
    (hq : ∀ e ∈ es, e.copies .write = true → ¬ e.covers q) :
    Memory.bitAt (packEntries s es m) q = Memory.bitAt m q := by
  induction es generalizing m with
  | nil => rfl
  | cons e es ih =>
    have hw' := fun f (hf : f ∈ es) => hw f (by simp [hf])
    have hq' := fun f (hf : f ∈ es) => hq f (by simp [hf])
    unfold packEntries
    split
    · rename_i hc
      rw [ih (packItems_wf h _) hw' hq']
      obtain ⟨h1, h2⟩ := hw e (by simp) hc
      have h3 := hq e (by simp) hc
      rw [bitAt_packItems h h1 h2, if_neg]
      unfold LayoutEntry.covers LayoutEntry.endPos LayoutEntry.extent at h3
      rw [h1, Nat.mul_comm] at h3
      exact h3
    · exact ih h hw' hq'

/-- The bits of a write-direction data entry after PACK (R243, R246), in a layout that tiles. -/
theorem bitAt_packEntries_inside {s : State} {es : List LayoutEntry} {m : Memory} {p b : Nat}
    (h : Memory.wf m) (ht : tiles .write p es b = true)
    (hw : ∀ e ∈ es, e.copies .write = true → e.stride.toNat = e.width.toNat ∧ 1 ≤ e.width.toNat)
    {e : LayoutEntry} (he : e ∈ es) (hc : e.copies .write = true) {q : Nat} (hq : e.covers q) :
    Memory.bitAt (packEntries s es m) q =
      (s.vsSlot (e.slot.toNat + (q - e.pos) / e.width.toNat)).getLsbD
        ((q - e.pos) % e.width.toNat) := by
  induction es generalizing m p with
  | nil => cases he
  | cons f es ih =>
    have hw' := fun g (hg : g ∈ es) => hw g (by simp [hg])
    have ht' : ∃ p', tiles .write p' es b = true := by
      unfold tiles at ht
      split at ht
      · simp only [Bool.and_eq_true] at ht
        exact ⟨_, ht.2⟩
      · exact ⟨_, ht⟩
    obtain ⟨p', ht'⟩ := ht'
    unfold packEntries
    rcases List.mem_cons.mp he with rfl | he
    · rw [if_pos hc]
      have hlater := tiles_later (pre := []) ht ((copies_iff _ _).mp hc).1
      rw [bitAt_packEntries_outside es (packItems_wf h _) q hw']
      · obtain ⟨h1, h2⟩ := hw e (by simp) hc
        rw [bitAt_packItems h h1 h2, if_pos]
        unfold LayoutEntry.covers LayoutEntry.endPos LayoutEntry.extent at hq
        rw [h1, Nat.mul_comm] at hq
        exact hq
      · intro g hg hgc hgq
        have := hlater g hg ((copies_iff _ _).mp hgc).1
        unfold LayoutEntry.covers at hq hgq
        omega
    · split
      · exact ih (packItems_wf h _) ht' hw' he
      · exact ih h ht' hw' he

/-! ### UNPACK -/

@[simp] theorem unpackItems_length (m : Memory) (e : LayoutEntry) (vs : List Slot) (n : Nat) :
    (unpackItems m e vs n).length = vs.length := by
  induction n with
  | zero => rfl
  | succ n ih => simp [unpackItems, ih]

@[simp] theorem unpackEntries_length (m : Memory) (es : List LayoutEntry) (vs : List Slot) :
    (unpackEntries m es vs).length = vs.length := by
  induction es generalizing vs with
  | nil => rfl
  | cons e es ih =>
    unfold unpackEntries
    split <;> simp [ih]

/-- What an item of an entry stores (R251). -/
def itemValue (m : Memory) (e : LayoutEntry) (i : Nat) : Slot :=
  (fieldRead m (e.itemPos i) e.width.toNat).setWidth 64

/-- The slots the first items of a data entry store into (R251). -/
theorem getElem?_unpackItems (m : Memory) (e : LayoutEntry) (vs : List Slot) (n k : Nat) :
    (unpackItems m e vs n)[k]? =
      if e.slot.toNat ≤ k ∧ k < e.slot.toNat + n ∧ k < vs.length then
        some (itemValue m e (k - e.slot.toNat))
      else vs[k]? := by
  induction n with
  | zero =>
    rw [if_neg (by omega)]
    rfl
  | succ n ih =>
    rw [unpackItems, List.getElem?_set, ih, unpackItems_length]
    by_cases hk : e.slot.toNat + n = k
    · subst hk
      by_cases hl : e.slot.toNat + n < vs.length
      · rw [if_pos rfl, if_pos hl, if_pos (by omega), Nat.add_sub_cancel_left]
        rfl
      · rw [if_pos rfl, if_neg hl, if_neg (by omega)]
        simp
        omega
    · rw [if_neg hk]
      by_cases h1 : e.slot.toNat ≤ k ∧ k < e.slot.toNat + n ∧ k < vs.length
      · rw [if_pos h1, if_pos (by omega)]
      · rw [if_neg h1, if_neg (by omega)]

/-- An entry stores into slot `k` (R251). -/
def LayoutEntry.names (e : LayoutEntry) (k : Nat) : Prop :=
  e.copies .read = true ∧ e.slot.toNat ≤ k ∧ k < e.slot.toNat + e.span.toNat

/-- UNPACK keeps every slot no read-direction data entry names (R255). -/
theorem getElem?_unpackEntries_outside (m : Memory) (es : List LayoutEntry) (vs : List Slot) (k : Nat)
    (h : ∀ e ∈ es, ¬ e.names k) : (unpackEntries m es vs)[k]? = vs[k]? := by
  induction es generalizing vs with
  | nil => rfl
  | cons e es ih =>
    have ih := fun vs => ih vs fun f hf => h f (by simp [hf])
    unfold unpackEntries
    split
    · rename_i hc
      rw [ih, getElem?_unpackItems, if_neg]
      exact fun hk => h e (by simp) ⟨hc, hk.1, hk.2.1⟩
    · exact ih vs

/-- The last entry that names a slot gives its value (R252, R255). -/
theorem getElem?_unpackEntries_last (m : Memory) (pre post : List LayoutEntry) (e : LayoutEntry)
    (vs : List Slot) (k : Nat) (he : e.names k) (hk : k < vs.length)
    (h : ∀ f ∈ post, ¬ f.names k) :
    (unpackEntries m (pre ++ e :: post) vs)[k]? = some (itemValue m e (k - e.slot.toNat)) := by
  induction pre generalizing vs with
  | nil =>
    rw [List.nil_append, unpackEntries, if_pos he.1, getElem?_unpackEntries_outside _ _ _ _ h,
      getElem?_unpackItems, if_pos ⟨he.2.1, he.2.2, hk⟩]
  | cons f pre ih =>
    rw [List.cons_append, unpackEntries]
    split
    · exact ih _ (by simpa using hk)
    · exact ih _ hk

end Sys2Proof.Machine
end

