-- ==== Sys2Proof/Laws/Layout.lean ====
section
/-! SUPPORT. What a finished walk of COMPILE has built: the layout properties of
41_config_and_compile.md R225 and the notification count of R219. -/

namespace Sys2Proof.Machine

open Sys2Proof.Config

/-- The entry of a resolved element (R217), field by field. -/
theorem elemEntry_fields (s : State) (t : ElemType) (r : Resolved) (d : Dir) (cur k : Nat)
    (id : BitVec 16) (el : Nat) (hook : Hook) :
    let e := elemEntry s t r d cur k id el hook
    e.dir = d ∧ e.inst = id ∧ e.hook = hook ∧ e.origin = BitVec.ofNat 16 k ∧
      (el < 256 → e.elem.toNat = el) ∧ (cur ≤ 8 * 65535 → e.pos = cur) := by
  refine ⟨rfl, rfl, rfl, rfl, fun h => ?_, fun h => pos_of_fields (by omega)⟩
  simp only [elemEntry, BitVec.toNat_ofNat]
  omega

/-- The entry of a resolved element keeps the ranges of R225 (d). -/
theorem elemEntry_ranges {s : State} {c : BitVec 8} {t : ElemType} {r : Resolved} {d : Dir}
    {cur k el : Nat} {id : BitVec 16} {hook : Hook} (ht : elemType c = some t)
    (hs1 : 1 ≤ r.span) (hs2 : r.span ≤ 255) (hel : el < 255)
    (hst : t.isPad = false → r.slot + r.span ≤ s.params.vsSlots) (_ : s.params.vsSlots ≤ 65536) :
    entryRanges s.params (elemEntry s t r d cur k id el hook) = true := by
  have hw := (width_bounds ht s.params.boolBits).1
  unfold entryRanges elemEntry
  cases hp : t.isPad with
  | true =>
    simp [BitVec.toNat_ofNat]
    omega
  | false =>
    have hw := hw hp
    have hst := hst hp
    simp [BitVec.toNat_ofNat]
    omega

/-- The entry of a resolved element is what the tables say (R203, R217; R225 c). -/
theorem elemEntry_tables {s : State} {t : ElemType} {d : Dir} {cur i k el : Nat} {id : BitVec 16}
    (hi : s.lookup id = some i) (hid : id ≠ 0)
    (ht : elemType (s.resolve i el).code = some t)
    (hel : el < (s.entry .desc i).descNelem.toNat) (hs2 : (s.resolve i el).span ≤ 255)
    (hs1 : 1 ≤ (s.resolve i el).span)
    (hst : t.isPad = false → (s.resolve i el).slot + (s.resolve i el).span ≤ s.params.vsSlots)
    (hvs : s.params.vsSlots ≤ 65536)
    (hb : t.byteClass s.params.boolBits = true → cur % 8 = 0) (hk : k < 65536)
    (hdir : (s.entry .map k).mapDir = .dir d) (hinst : (s.entry .map k).mapInst = id) :
    entryFromTables s
      (elemEntry s t (s.resolve i el) d cur k id el (s.entry .desc i).descHook) = true := by
  have hn := ((s.entry .desc i).descNelem).isLt
  have hw := width_bounds ht s.params.boolBits
  set e := elemEntry s t (s.resolve i el) d cur k id el (s.entry .desc i).descHook with he
  have helem : e.elem.toNat = el :=
    (elemEntry_fields s t (s.resolve i el) d cur k id el _).2.2.2.2.1 (by omega)
  have hmap : entryFromMap s e = true := by
    have hko : e.origin.toNat = k := by
      simp only [he, elemEntry, BitVec.toNat_ofNat]
      omega
    have hei : e.inst = id := rfl
    have hed : e.dir = d := rfl
    simp [entryFromMap, hko, hdir, hinst, hei, hed]
  have hinst : e.inst = id := rfl
  have hhook : e.hook = (s.entry .desc i).descHook := rfl
  have hbit : t.byteClass s.params.boolBits = true → e.bit = 0 := by
    intro h
    simp only [he, elemEntry, hb h]
    rfl
  unfold entryFromTables
  rw [hmap, Bool.true_and]
  simp only [hinst, if_neg hid, hi, helem, ht, hhook, hel, decide_true, Bool.true_and]
  cases hp : t.isPad with
  | true =>
    have hw := hw.2 hp
    have hprod : t.width s.params.boolBits * (s.resolve i el).span ≤ 16 * 255 :=
      Nat.mul_le_mul hw hs2
    have hext : e.extent = t.width s.params.boolBits * (s.resolve i el).span := by
      simp only [he, elemEntry, LayoutEntry.extent, hp, if_true, BitVec.toNat_ofNat]
      rw [Nat.mod_eq_of_lt (by omega)]
      simp
    have hk : e.kind = .noop := by simp [he, elemEntry, hp]
    have hnc : t.byteClass s.params.boolBits = false := by
      cases hc : t.byteClass s.params.boolBits with
      | true => rw [(byteClass_width hc).1] at hp; cases hp
      | false => rfl
    simp [hk, hext, hnc]
  | false =>
    have hw := hw.1 hp
    have hst := hst hp
    have hk : e.kind = .data := by simp [he, elemEntry, hp]
    have hwd : e.width.toNat = t.width s.params.boolBits := by
      simp [he, elemEntry, hp, BitVec.toNat_ofNat]
      omega
    have hsp : e.span.toNat = (s.resolve i el).span := by
      simp [he, elemEntry, hp, BitVec.toNat_ofNat]
      omega
    have hsl : e.slot.toNat = (s.resolve i el).slot := by
      simp [he, elemEntry, hp, BitVec.toNat_ofNat]
      omega
    simp only [Bool.false_eq_true, if_false, hk, hwd, hsp, hsl, decide_true, Bool.true_and]
    cases hc : t.byteClass s.params.boolBits with
    | true => simp [hbit hc, (byteClass_width hc).2]
    | false => rfl

/-- What stands before element `el` of the map entry `k` that begins at `start`: nothing or an entry of
an earlier map entry, `el` being the first, or the element before of the same map entry (R225 e). -/
def Precedes (k : Nat) (d : Dir) (id : BitVec 16) (hook : Hook) (start el : Nat)
    (before : Option LayoutEntry) : Prop :=
  (el = start ∧ ∀ f, before = some f → f.origin.toNat < k) ∨
    ∃ f, before = some f ∧ f.origin = BitVec.ofNat 16 k ∧ f.dir = d ∧ f.inst = id ∧ f.hook = hook ∧
      f.elem.toNat + 1 = el

/-- What the entries of one ADI map entry share (R217). -/
def MadeBy (k : Nat) (d : Dir) (id : BitVec 16) (hook : Hook) (e : LayoutEntry) : Prop :=
  e.origin = BitVec.ofNat 16 k ∧ e.dir = d ∧ e.inst = id ∧ e.hook = hook

/-- What the elements of one ADI entry append (R202, R203, R214 to R217). -/
theorem compileElems_ok {s : State} {i k : Nat} {d : Dir} {id : BitVec 16}
    (hvs : s.params.vsSlots ≤ 65536) (hk : k < 65536) (hid : id ≠ 0)
    (hi : s.lookup id = some i) (hv : s.validDesc i = true)
    (hdir : (s.entry .map k).mapDir = .dir d) (hinst : (s.entry .map k).mapInst = id) :
    ∀ {n el : Nat} {p p' : Plan}, s.compileElems i k d id n el p = .ok p' → PlanOk s p →
      el + n ≤ (s.entry .desc i).descNelem.toNat →
      Precedes k d id (s.entry .desc i).descHook (s.entry .map k).mapStart.toNat el
        p.entries.getLast? →
      PlanOk s p' ∧ p'.need = p.need ∧
        ∃ new, p'.entries = p.entries ++ new ∧ new.length = n ∧
          ∀ e ∈ new, MadeBy k d id (s.entry .desc i).descHook e := by
  intro n
  induction n with
  | zero =>
    intro el p p' h hp _ _
    obtain rfl := Except.ok.inj h
    exact ⟨hp, rfl, [], by simp⟩
  | succ n ih =>
    intro el p p' h hp hel hlast
    unfold State.compileElems at h
    split at h
    · cases h
    · rename_i q hq
      obtain ⟨t, ht, hb, hst, hlen, rfl⟩ := compileElem_ok hq
      have hn := ((s.entry .desc i).descNelem).isLt
      obtain ⟨-, hs1, hs2⟩ := resolve_valid hv (el := el) (by omega)
      have hf := elemEntry_fields s t (s.resolve i el) d (p.cur d) k id el
        (s.entry .desc i).descHook
      simp only at hf
      set e := elemEntry s t (s.resolve i el) d (p.cur d) k id el (s.entry .desc i).descHook
      obtain ⟨hfd, hfi, hfh, hfo, hfe, hfp⟩ := hf
      have hfe := hfe (by omega)
      have hq : PlanOk s (p.append e) := by
        apply planOk_append hp hlen
        · rw [hfd]; exact hfp
        · exact elemEntry_ranges ht hs1 hs2 (by omega) hst hvs
        · exact elemEntry_tables hi hid ht (by omega) hs2 hs1 hst hvs hb hk hdir hinst
        · have hko : e.origin.toNat = k := by
            rw [hfo, BitVec.toNat_ofNat]
            omega
          rcases hlast with ⟨hst, hf⟩ | ⟨f, hf, h1, h2, h3, h4, h5⟩
          · have hstart : startsMapEntry s e = true := by
              simp [startsMapEntry, hko, hfe, hst]
            cases hb : p.entries.getLast? with
            | none => exact hstart
            | some f =>
              have := hf f hb
              simp only [originStep, hstart, hko, Bool.and_true, Bool.or_eq_true]
              exact .inl (by simpa using this)
          · rw [hf]
            simp [originStep, hfo, h1, hfd, h2, hfi, h3, hfh, h4, hfe]
            omega
      obtain ⟨hok, hneed, new, hnew, hnl, hmade⟩ := ih h hq (by omega) (by
        refine .inr ⟨e, ?_, hfo, hfd, hfi, hfh, by omega⟩
        rw [append_entries, List.getLast?_append]
        rfl)
      refine ⟨hok, by rw [hneed, append_need], e :: new, ?_, by simp [hnl], ?_⟩
      · rw [hnew, append_entries]
        simp
      · intro f hf
        rcases List.mem_cons.mp hf with rfl | hf
        · exact ⟨hfo, hfd, hfi, hfh⟩
        · exact hmade f hf

/-- A plan between two map entries: everything so far comes from earlier map entries, and the
notification count is the number of events (R219, R253). -/
structure AtMapEntry (s : State) (k : Nat) (p : Plan) : Prop where
  plan : PlanOk s p
  earlier : ∀ e ∈ p.entries, e.origin.toNat < k
  events : p.need = (layoutEvents p.entries).length

theorem atMapEntry_start (s : State) : AtMapEntry s 0 .start where
  plan := planOk_start s
  earlier e h := by cases h
  events := rfl

/-- A pad map entry (R201). -/
theorem compilePad_step {s : State} {e : TableEntry} {d : Dir} {k : Nat} {p p' : Plan}
    (hk : k < 65536) (hdir : (s.entry .map k).mapDir = .dir d) (hinst : (s.entry .map k).mapInst = 0)
    (hp : AtMapEntry s k p) (h : s.compilePad e d k p = .ok p') : AtMapEntry s (k + 1) p' := by
  obtain ⟨hlen, rfl⟩ := compilePad_ok h
  have hko : (padEntry d (p.cur d) e.mapCount.toNat k).origin.toNat = k := by
    simp only [padEntry, BitVec.toNat_ofNat]
    omega
  refine ⟨planOk_append hp.plan hlen ?_ ?_ ?_ ?_, ?_, ?_⟩
  · intro hc
    exact pos_of_fields (by
      have : p.cur d ≤ 8 * 65535 := hc
      omega)
  · rfl
  · have : entryFromMap s (padEntry d (p.cur d) e.mapCount.toNat k) = true := by
      unfold entryFromMap
      rw [hko, hdir, hinst]
      simp [padEntry]
    rw [entryFromTables, this]
    rfl
  · have hstart : startsMapEntry s (padEntry d (p.cur d) e.mapCount.toNat k) = true := rfl
    cases hf : p.entries.getLast? with
    | none => exact hstart
    | some f =>
      have := hp.earlier f (List.mem_of_getLast? hf)
      simp only [originStep, hstart, hko, Bool.and_true, Bool.or_eq_true]
      exact .inl (by simpa using this)
  · intro f hf
    rw [append_entries, List.mem_append, List.mem_singleton] at hf
    rcases hf with hf | rfl
    · have := hp.earlier f hf
      omega
    · omega
  · rw [append_need, append_entries, hp.events,
      layoutEvents_append_ungrouped _ _ (by simp [LayoutEntry.grouped, padEntry])]

/-- An ADI map entry (R202 to R219). -/
theorem compileAdi_step {s : State} {e : TableEntry} {d : Dir} {k : Nat} {p p' : Plan}
    (he : s.entry .map k = e) (hdir : e.mapDir = .dir d) (hvs : s.params.vsSlots ≤ 65536) (hk : k < 65536) (hid : e.mapInst ≠ 0)
    (hreg : ∀ j, j < s.descs → s.validDesc j = true)
    (hp : AtMapEntry s k p) (h : s.compileAdi e d k p = .ok p') : AtMapEntry s (k + 1) p' := by
  obtain ⟨i, cnt, q, hi, hc, hq, rfl⟩ := compileAdi_ok h
  obtain ⟨hok, hneed, new, hnew, hnl, hmade⟩ :=
    compileElems_ok hvs hk hid hi (hreg i (lookup_some hi).1) (by rw [he]; exact hdir)
      (by rw [he]) hq hp.plan (elemCount_some hc)
      (.inl ⟨by rw [he], fun f hf => hp.earlier f (List.mem_of_getLast? hf)⟩)
  have hko : (BitVec.ofNat 16 k).toNat = k := by
    rw [BitVec.toNat_ofNat]
    omega
  have hearlier : ∀ f ∈ q.entries, f.origin.toNat < k + 1 := by
    intro f hf
    rw [hnew, List.mem_append] at hf
    rcases hf with hf | hf
    · have := hp.earlier f hf
      omega
    · rw [(hmade f hf).1]
      omega
  have hev : (layoutEvents q.entries).length =
      p.need + if needsEvent d cnt (s.entry .desc i).descHook then 1 else 0 := by
    rw [hnew, hp.events]
    by_cases hd : d = .read
    · cases new with
      | nil =>
        have : cnt = 0 := by simpa using hnl.symm
        simp [needsEvent, this]
      | cons f new =>
        rw [layoutEvents_append_group]
        · rw [List.length_append, groupEvents_length, (hmade f (by simp)).2.2.2]
          have : 0 < cnt := by rw [← hnl]; simp
          simp [needsEvent, hd, this]
        · intro g hg
          have hm := hmade g hg
          refine ⟨?_, ?_⟩
          · simpa [LayoutEntry.grouped, hm.2.1, hd, hm.2.2.1] using hid
          · rw [hm.1, (hmade f (by simp)).1]
        · intro g hg hc
          have := hp.earlier g (List.mem_of_getLast? hg)
          rw [hc, (hmade f (by simp)).1] at this
          omega
    · rw [layoutEvents_append_ungrouped]
      · simp [needsEvent, hd]
      · intro g hg
        simp [LayoutEntry.grouped, (hmade g hg).2.1, hd]
  split
  · rename_i hn
    refine ⟨⟨hok.len, fun d => hok.tile d, hok.ranges, hok.tables, hok.order⟩, hearlier, ?_⟩
    rw [hev, hn, hneed]
    rfl
  · rename_i hn
    refine ⟨hok, hearlier, ?_⟩
    rw [hev, if_neg hn, hneed]
    rfl

/-- A walk that ends at a terminal entry (R200) leaves a plan between two map entries. -/
theorem walk_ok {s : State} (hvs : s.params.vsSlots ≤ 65536) (hmap : s.params.mapMax ≤ 65536)
    (hreg : ∀ j, j < s.descs → s.validDesc j = true) :
    ∀ {n k : Nat} {p p' : Plan}, s.walk n k p = .ok p' → k + n ≤ s.params.mapMax →
      AtMapEntry s k p → ∃ k', AtMapEntry s k' p' := by
  intro n
  induction n with
  | zero =>
    intro k p p' h
    cases h
  | succ n ih =>
    intro k p p' h hk hp
    unfold State.walk at h
    simp only at h
    split at h
    · obtain rfl := Except.ok.inj h
      exact ⟨k, hp⟩
    · cases h
    · rename_i d hdir
      split at h
      · cases h
      · rename_i q hq
        refine ih h (by omega) ?_
        split at hq
        · rename_i hid
          exact compilePad_step (by omega) hdir hid hp hq
        · rename_i hid
          exact compileAdi_step rfl hdir hvs (by omega) hid hreg hp hq

/-- The final checks pass the plan on (R220, R221). -/
theorem finalChecks_ok {s : State} {p p' : Plan} (h : s.finalChecks p = .ok p') :
    p' = p ∧ p.curRd ≤ 8 * s.rdSize.toNat ∧ p.curWr ≤ 8 * s.wrSize.toNat ∧
      p.need ≤ s.params.notifyDepth := by
  unfold State.finalChecks at h
  split at h
  · cases h
  · split at h
    · cases h
    · split at h
      · cases h
      · exact ⟨(Except.ok.inj h).symm, by omega, by omega, by omega⟩

/-- What COMPILE has checked when it commits (R186). -/
theorem compilePlan_ok {s : State} {p : Plan} (h : s.compilePlan = .ok p) :
    s.checkRegistry = .ok () ∧ s.walk s.params.mapMax 0 .start = .ok p ∧
      p.curRd ≤ 8 * s.rdSize.toNat ∧ p.curWr ≤ 8 * s.wrSize.toNat ∧
      p.need ≤ s.params.notifyDepth := by
  unfold State.compilePlan at h
  split at h
  · cases h
  · rename_i u hu
    split at h
    · cases h
    · rename_i q hq
      obtain ⟨rfl, h1, h2, h3⟩ := finalChecks_ok h
      exact ⟨hu, hq, h1, h2, h3⟩

/-- The order of origins depends on MAP alone. -/
theorem originsInOrder_congr {s u : State} (h : s.map = u.map) (before : Option LayoutEntry)
    (es : List LayoutEntry) : originsInOrder s before es = originsInOrder u before es := by
  have hs : ∀ e, startsMapEntry s e = startsMapEntry u e := fun e => by
    simp [startsMapEntry, State.entry, State.table, h]
  induction es generalizing before with
  | nil => rfl
  | cons e es ih =>
    rw [originsInOrder, originsInOrder, ih]
    cases before <;> simp only [originStep, hs]

/-- What the tables give depends on the tables, DESC_COUNT and the parameters alone. -/
theorem entryFromTables_congr {s u : State} (hd : s.desc = u.desc) (hm : s.memb = u.memb)
    (hmap : s.map = u.map) (hc : s.descCount = u.descCount) (hp : s.params = u.params)
    (e : LayoutEntry) : entryFromTables s e = entryFromTables u e := by
  have he : ∀ t i, s.entry t i = u.entry t i := fun t i => by
    cases t <;> simp only [State.entry, State.table, hd, hm, hmap]
  have hl : s.lookup e.inst = u.lookup e.inst := by
    simp only [State.lookup, State.descs, hc, he]
  have hr : ∀ i el, s.resolve i el = u.resolve i el := fun i el => by
    simp only [State.resolve, he]
  simp only [entryFromTables, entryFromMap, he, hl, hr, hp]

/-- A layout stays good while the layout, its counters, the sizes, the tables and the parameters stay. -/
theorem layoutOk_congr {s u : State} (h : s.LayoutOk) (hl : u.layout = s.layout)
    (hlc : u.layoutCount = s.layoutCount) (hrb : u.rdBits = s.rdBits) (hwb : u.wrBits = s.wrBits)
    (hn : u.notifyNeed = s.notifyNeed) (hrs : u.rdSize = s.rdSize) (hws : u.wrSize = s.wrSize)
    (hd : u.desc = s.desc) (hm : u.memb = s.memb) (hmap : u.map = s.map)
    (hc : u.descCount = s.descCount) (hp : u.params = s.params) : u.LayoutOk := by
  unfold State.LayoutOk
  rw [hl, hlc, hrb, hwb, hn, hrs, hws, hp, originsInOrder_congr hmap]
  simp only [entryFromTables_congr hd hm hmap hc hp]
  exact h

/-- A committed plan is a layout with the properties of R225. -/
theorem commit_layoutOk {s : State} {p : Plan} (hl : s.params.Legal) (h : s.compilePlan = .ok p) :
    (s.commit p).LayoutOk := by
  obtain ⟨hreg, hwalk, hrd, hwr, hneed⟩ := compilePlan_ok h
  obtain ⟨k, hk⟩ := walk_ok (by have := hl.2.1; omega) (by have := hl.2.2.2.2.1; omega)
    (fun j hj => ((checkRegistry_ok hreg).2.2 j hj).1) hwalk (by omega) (atMapEntry_start s)
  have hrs := s.rdSize.isLt
  have hws := s.wrSize.isLt
  have hlm := hl.2.2.2.2.2.1.2
  have hnd := hl.2.2.2.2.2.2.2
  have hlen := hk.plan.len
  have h1 : (BitVec.ofNat 16 p.entries.length).toNat = p.entries.length := by
    rw [BitVec.toNat_ofNat]
    omega
  have h2 : (BitVec.ofNat 32 p.curRd).toNat = p.curRd := by
    rw [BitVec.toNat_ofNat]
    omega
  have h3 : (BitVec.ofNat 32 p.curWr).toNat = p.curWr := by
    rw [BitVec.toNat_ofNat]
    omega
  have h4 : (BitVec.ofNat 8 p.need).toNat = p.need := by
    rw [BitVec.toNat_ofNat]
    omega
  refine ⟨h1.symm, hlen, ?_, ?_, ?_, ?_, hk.plan.ranges, hk.plan.tables,
    (originsInOrder_congr (s := s.commit p) (u := s) rfl none p.entries).trans hk.plan.order, ?_, ?_⟩
  · rw [commit_rdBits, h2]
    exact hk.plan.tile .read (by simp only [Plan.cur]; omega)
  · rw [commit_wrBits, h3]
    exact hk.plan.tile .write (by simp only [Plan.cur]; omega)
  · rw [commit_rdBits, h2]
    exact hrd
  · rw [commit_wrBits, h3]
    exact hwr
  · rw [commit_notifyNeed, h4]
    exact hk.events
  · rw [commit_notifyNeed, h4]
    exact hneed

end Sys2Proof.Machine
end

