-- ==== Sys2Proof/Laws/Registry.lean ====
section
/-! SUPPORT. What the registry checks and the lookup answer on a good registry and at the first bad
descriptor (41_config_and_compile.md R190 to R193), and how COMPILE ends on each plan (R222, R223). -/

namespace Sys2Proof.Machine

/-- The checks accept descriptors that are valid and ascending. -/
theorem checkDescs_of_ascending {s : State} {n i : Nat}
    (hv : ∀ j, i ≤ j → j < i + n → s.validDesc j = true)
    (ha : ∀ j, i ≤ j → j < i + n → 0 < j → s.instAt (j - 1) < s.instAt j) :
    s.checkDescs n i = .ok () := by
  induction n generalizing i with
  | zero => rfl
  | succ n ih =>
    have h0 := hv i (by omega) (by omega)
    have h1 := ha i (by omega) (by omega)
    rw [State.checkDescs, if_neg (by simp [h0]), if_neg (fun h => by have := h1 h.1; omega),
      if_neg (fun h => by have := h1 h.1; omega)]
    exact ih (fun j h2 h3 => hv j (by omega) (by omega)) (fun j h2 h3 => ha j (by omega) (by omega))

/-- The checks stop at the first descriptor that fails one, with that failure. -/
theorem checkDescs_of_bad {s : State} {n i k : Nat} {r : Report} (hik : i ≤ k) (hkn : k < i + n)
    (hv : ∀ j, i ≤ j → j < k → s.validDesc j = true)
    (ha : ∀ j, i ≤ j → j < k → 0 < j → s.instAt (j - 1) < s.instAt j)
    (hbad : ∀ m, s.checkDescs (m + 1) k = .error r) : s.checkDescs n i = .error r := by
  induction n generalizing i with
  | zero => omega
  | succ n ih =>
    by_cases h : i = k
    · subst h
      exact hbad n
    · have h0 := hv i (by omega) (by omega)
      have h1 := ha i (by omega) (by omega)
      rw [State.checkDescs, if_neg (by simp [h0]), if_neg (fun h => by have := h1 h.1; omega),
        if_neg (fun h => by have := h1 h.1; omega)]
      exact ih (by omega) (by omega) (fun j h2 h3 => hv j (by omega) (by omega))
        (fun j h2 h3 => ha j (by omega) (by omega))

theorem checkRegistry_of_registryOk {s : State} (h : s.RegistryOk) : s.checkRegistry = .ok () := by
  obtain ⟨h0, h1, h2, h3⟩ := h
  rw [State.checkRegistry, if_neg (by omega), if_neg (by omega)]
  exact checkDescs_of_ascending (fun j _ hj => h2 j (by omega)) (fun j _ hj h0 => h3 j (by omega) h0)

/-- The instances of a good registry are strictly ascending. -/
theorem instAt_lt {s : State} (h : ∀ i, i < s.descs → 0 < i → s.instAt (i - 1) < s.instAt i)
    {i j : Nat} (hij : i < j) (hj : j < s.descs) : s.instAt i < s.instAt j := by
  induction j with
  | zero => omega
  | succ j ih =>
    have h1 := h (j + 1) hj (by omega)
    by_cases he : i = j
    · subst he
      exact h1
    · have h2 := ih (by omega) (by omega)
      simp only [Nat.add_sub_cancel] at h1
      omega

/-- On a good registry Lookup finds each descriptor in use by its INSTANCE (R193). -/
theorem lookup_of_registryOk {s : State} (h : s.RegistryOk) {i : Nat} (hi : i < s.descs) :
    s.lookup (s.entry .desc i).descInst = some i := by
  unfold State.lookup
  rw [List.find?_range_eq_some]
  refine ⟨by simp, by simpa using hi, fun j hj => ?_⟩
  have hlt := instAt_lt h.2.2.2 hj hi
  unfold State.instAt at hlt
  simp only [Bool.not_eq_true', decide_eq_false_iff_not]
  intro he
  rw [he] at hlt
  omega

/-- The INSTANCE of a valid descriptor is not 0 (R192 a). -/
theorem descInst_ne_zero {s : State} {i : Nat} (h : s.validDesc i = true) :
    (s.entry .desc i).descInst ≠ 0 := by
  unfold State.validDesc at h
  simp only [Bool.and_eq_true, decide_eq_true_eq] at h
  exact h.1

/-- How COMPILE ends without a layout (R222, R223). -/
theorem execCompile_of_error {s : State} (hl : s.layoutValid = false) {r : Report}
    (h : s.compilePlan = .error r) : exec .compile s = .next (s.dropLayout.fail r) := by
  show execCompile s = _
  rw [execCompile, if_neg (by simp [hl]), h]

theorem execCompile_of_ok {s : State} (hl : s.layoutValid = false) {p : Plan}
    (h : s.compilePlan = .ok p) : exec .compile s = .next (s.commit p).ok := by
  show execCompile s = _
  rw [execCompile, if_neg (by simp [hl]), h]

/-- An error code is never 0 (60_exceptions.md R270). -/
theorem errorName_code_ne_zero (e : ErrorName) : e.code ≠ 0 := by
  cases e <;> decide

end Sys2Proof.Machine
end

