-- ==== Sys2Proof/Laws/Frames.lean ====
section
/-! SUPPORT. The outcomes of SETSZ, COMPILE, PACK and UNPACK, one inversion lemma each, the frame of a
codec access, and that a good layout never overruns. -/

namespace Sys2Proof.Machine

/-- SETSZ either reports and changes nothing, or resets the sizes (41_config_and_compile.md R180). -/
theorem exec_setsz_cases {s t : State} (h : exec .setsz s = .next t) :
    t = s.fail ⟨.sizeTooLarge, s.arg⟩ ∨
      s.argReadSize.toNat ≤ s.params.pdMaxBytes ∧ s.argWriteSize.toNat ≤ s.params.pdMaxBytes ∧
        t = ({ s.sizeReset with rdSize := s.argReadSize, wrSize := s.argWriteSize } : State).ok := by
  unfold exec execSetsz at h
  simp only at h
  split at h
  · exact .inl (Host.Outcome.next.inj h).symm
  · exact .inr ⟨by omega, by omega, (Host.Outcome.next.inj h).symm⟩

/-- COMPILE keeps a valid layout, or reports and leaves none, or commits a plan (R186, R222 to R224). -/
theorem exec_compile_cases {s t : State} (h : exec .compile s = .next t) :
    (s.layoutValid = true ∧ t = s.ok) ∨
      s.layoutValid = false ∧
        ((∃ r, s.compilePlan = .error r ∧ t = s.dropLayout.fail r) ∨
          ∃ p, s.compilePlan = .ok p ∧ t = (s.commit p).ok) := by
  unfold exec execCompile at h
  simp only at h
  split at h
  · exact .inl ⟨‹_›, (Host.Outcome.next.inj h).symm⟩
  · rename_i hl
    refine .inr ⟨by simpa using hl, ?_⟩
    split at h
    · exact .inl ⟨_, ‹_›, (Host.Outcome.next.inj h).symm⟩
    · exact .inr ⟨_, ‹_›, (Host.Outcome.next.inj h).symm⟩

/-- PACK reports NoLayout, stops fatally at an overrun, or writes WRPD (42_pack_unpack.md R240). -/
theorem exec_pack_cases {s t : State} (h : exec .pack s = .next t) :
    t = s.fail (reportAt .noLayout 0) ∨
      s.layoutValid = true ∧
        ((∃ n, s.overrun .write = some n ∧ t = s.fatalFail (reportAt .outOfBounds n)) ∨
          s.overrun .write = none ∧
            t = ({ s with wrpd := packEntries s s.activeLayout s.wrpd } : State).ok) := by
  unfold exec execPack at h
  simp only at h
  split at h
  · exact .inl (Host.Outcome.next.inj h).symm
  · rename_i hl
    refine .inr ⟨by simpa using hl, ?_⟩
    split at h
    · exact .inl ⟨_, ‹_›, (Host.Outcome.next.inj h).symm⟩
    · exact .inr ⟨‹_›, (Host.Outcome.next.inj h).symm⟩

/-- UNPACK reports NoLayout or NotifyFull, stops fatally at an overrun, or writes VS and NQ (R248). -/
theorem exec_unpack_cases {s t : State} (h : exec .unpack s = .next t) :
    t = s.fail (reportAt .noLayout 0) ∨ t = s.fail (reportAt .notifyFull s.notifyNeed.toNat) ∨
      s.layoutValid = true ∧ s.lacksRoom = false ∧
        ((∃ n, s.overrun .read = some n ∧ t = s.fatalFail (reportAt .outOfBounds n)) ∨
          s.overrun .read = none ∧
            t = ({ s with
              vs := unpackEntries s.rdpd s.activeLayout s.vs
              nq := s.nq ++ layoutEvents s.activeLayout } : State).ok) := by
  unfold exec execUnpack at h
  simp only at h
  split at h
  · exact .inl (Host.Outcome.next.inj h).symm
  · split at h
    · exact .inr (.inl (Host.Outcome.next.inj h).symm)
    · rename_i hl hr
      refine .inr (.inr ⟨by simpa using hl, by simpa using hr, ?_⟩)
      split at h
      · exact .inl ⟨_, ‹_›, (Host.Outcome.next.inj h).symm⟩
      · exact .inr ⟨‹_›, (Host.Outcome.next.inj h).symm⟩

/-- A codec read writes CURSOR, RESULT and the report. -/
theorem codecRead_frame (buf : Buf) (p w : Nat) (s : State) :
    ∃ c r e i, codecRead buf p w s =
      { s with cursor := c, result := r, errcode := e, errinfo := i } := by
  unfold codecRead
  split <;> exact ⟨_, _, _, _, rfl⟩

/-- A codec write writes its buffer, CURSOR and the report. -/
theorem codecWrite_frame (buf : Buf) (p w : Nat) (s : State) :
    ∃ m c e i, codecWrite buf p w s =
      State.withMem buf m { s with cursor := c, errcode := e, errinfo := i } := by
  unfold codecWrite
  split
  · exact ⟨_, _, _, _, rfl⟩
  · refine ⟨s.mem buf, s.cursor, ErrorName.code .outOfBounds, BitVec.ofNat 32 p, ?_⟩
    cases buf <;> rfl

/-- In a good layout every entry ends inside its buffer (41_config_and_compile.md R225 a, b). -/
theorem endPos_le {s : State} (h : s.LayoutOk) {e : LayoutEntry} (he : e ∈ s.layout) :
    e.endPos ≤ 8 * s.size e.dir.buf := by
  cases hd : e.dir with
  | read => exact Nat.le_trans ((tiles_bounds h.2.2.1).2 e he hd).2 h.2.2.2.2.1
  | write => exact Nat.le_trans ((tiles_bounds h.2.2.2.1).2 e he hd).2 h.2.2.2.2.2.1

/-- In a good layout no entry overruns its buffer (42_pack_unpack.md R254). -/
theorem overrun_eq_none {s : State} (h : s.LayoutOk) (d : Dir) : s.overrun d = none := by
  unfold State.overrun State.activeLayout
  rw [← h.1, List.take_length, firstOverrun_eq_none]
  intro e he hc
  obtain rfl := ((copies_iff _ _).1 hc).1
  exact endPos_le h he

end Sys2Proof.Machine
end

