-- ==== Sys2Proof/Laws/MapList.lean ====
section
/-! SUPPORT. The map walk over a list of map entries whose elements are known: what it has built when it
reaches an entry (41_config_and_compile.md R200 to R219). -/

namespace Sys2Proof.Machine

open Sys2Proof.Config

/-! ### Lists of elements -/

theorem mappedBits_append (bb : BoolBits) (d : Dir) (xs ys : List MappedItem) :
    mappedBits bb d (xs ++ ys) = mappedBits bb d xs + mappedBits bb d ys := by
  simp [mappedBits]

theorem mappedBits_singleton (bb : BoolBits) (d : Dir) (x : MappedItem) :
    mappedBits bb d [x] = if x.dir = d then x.bits bb else 0 := by
  by_cases h : x.dir = d <;> simp [mappedBits, h]

theorem mappedLayout_concat (bb : BoolBits) (xs : List MappedItem) (x : MappedItem) :
    mappedLayout bb (xs ++ [x]) =
      mappedLayout bb xs ++ [x.layoutEntry bb (mappedBits bb x.dir xs)] := by
  unfold mappedLayout
  rw [List.mapIdx_append]
  congr 1
  · apply List.ext_getElem?
    intro n
    simp only [List.getElem?_mapIdx]
    rcases Nat.lt_or_ge n xs.length with hn | hn
    · simp [List.take_append_of_le_length (Nat.le_of_lt hn)]
    · simp [hn]
  · simp

@[simp] theorem mappedLayout_length (bb : BoolBits) (xs : List MappedItem) :
    (mappedLayout bb xs).length = xs.length := by
  simp [mappedLayout]

/-- The plan that a list of map entries builds, each entry given by its elements. -/
def planOf (bb : BoolBits) (xs : List MappedItem) (need : Nat) : Plan where
  entries := mappedLayout bb xs
  curRd := mappedBits bb .read xs
  curWr := mappedBits bb .write xs
  need := need

@[simp] theorem planOf_entries (bb : BoolBits) (xs : List MappedItem) (need : Nat) :
    (planOf bb xs need).entries = mappedLayout bb xs := rfl

@[simp] theorem planOf_need (bb : BoolBits) (xs : List MappedItem) (need : Nat) :
    (planOf bb xs need).need = need := rfl

@[simp] theorem planOf_cur (bb : BoolBits) (xs : List MappedItem) (need : Nat) (d : Dir) :
    (planOf bb xs need).cur d = mappedBits bb d xs := by
  cases d <;> rfl

/-- The element's layout entry covers its bits: the fields STRIDE and SPAN lose nothing. -/
abbrev MappedItem.fits (bb : BoolBits) (x : MappedItem) : Prop :=
  if x.type.isPad then x.bits bb < 65536 else x.type.width bb < 65536 ∧ x.span < 256

theorem layoutEntry_extent {bb : BoolBits} {x : MappedItem} (h : x.fits bb) (p : Nat) :
    (x.layoutEntry bb p).extent = x.bits bb := by
  unfold MappedItem.fits at h
  cases hp : x.type.isPad with
  | true =>
    rw [hp, if_pos rfl] at h
    simp [LayoutEntry.extent, MappedItem.layoutEntry, hp, BitVec.toNat_ofNat, Nat.mod_eq_of_lt h]
  | false =>
    rw [hp, if_neg (by simp)] at h
    simp [LayoutEntry.extent, MappedItem.layoutEntry, hp, BitVec.toNat_ofNat, Nat.mod_eq_of_lt h.1,
      MappedItem.bits, h.2]

/-- Appending one more element's entry (R201, R217). -/
theorem planOf_append {bb : BoolBits} {x : MappedItem} (h : x.fits bb) (xs : List MappedItem)
    (need : Nat) :
    (planOf bb xs need).append (x.layoutEntry bb (mappedBits bb x.dir xs)) =
      planOf bb (xs ++ [x]) need := by
  have he := layoutEntry_extent h (mappedBits bb x.dir xs)
  unfold Plan.append
  rw [he]
  have hd : (x.layoutEntry bb (mappedBits bb x.dir xs)).dir = x.dir := rfl
  rw [hd]
  cases hx : x.dir <;>
    simp [Plan.advance, planOf, mappedLayout_concat, mappedBits_append, mappedBits_singleton, hx]

theorem mappedEvents_concat (xss : List (List MappedItem)) (xs : List MappedItem) :
    mappedEvents (xss ++ [xs]) = mappedEvents xss + mappedEvents [xs] := by
  simp [mappedEvents]

/-! ### One element -/

theorem resolve_of_isElement {s : State} {d : Dir} {k i el : Nat} {x : MappedItem}
    (h : s.isElement d k i el x) :
    elemType (s.resolve i el).code = some x.type ∧ (s.resolve i el).span = x.span ∧
      (s.resolve i el).slot = x.slot := by
  obtain ⟨-, -, -, -, -, h⟩ := h
  unfold State.resolve
  cases hs : (s.entry .desc i).descStruct with
  | true =>
    rw [hs, if_pos rfl] at h
    simp only [hs, if_true]
    exact ⟨h.1, h.2.1.symm, h.2.2.symm⟩
  | false =>
    rw [hs, if_neg (by simp)] at h
    simp only [hs, Bool.false_eq_true, if_false]
    exact ⟨h.1, h.2.1.symm, h.2.2.symm⟩

/-- The elements of a good registry fit their layout entries (R52, R192). -/
theorem fits_of_isElement {s : State} {d : Dir} {k i el : Nat} {x : MappedItem}
    (hv : s.validDesc i = true) (hel : el < (s.entry .desc i).descNelem.toNat)
    (h : s.isElement d k i el x) : x.fits s.params.boolBits := by
  obtain ⟨ht, hsp, -⟩ := resolve_of_isElement h
  obtain ⟨-, -, hs⟩ := resolve_valid hv hel
  rw [hsp] at hs
  have hw := width_bounds ht s.params.boolBits
  unfold MappedItem.fits
  split
  · rename_i hp
    have : x.bits s.params.boolBits ≤ 16 * 255 := Nat.mul_le_mul (hw.2 hp) hs
    omega
  · rename_i hp
    have := hw.1 (by simpa using hp)
    omega

theorem elemEntry_of_isElement {s : State} {d : Dir} {k i el : Nat} {x : MappedItem}
    (h : s.isElement d k i el x) (cur : Nat) :
    elemEntry s x.type (s.resolve i el) d cur k (s.entry .map k).mapInst el
      (s.entry .desc i).descHook = x.layoutEntry s.params.boolBits cur := by
  obtain ⟨-, hsp, hsl⟩ := resolve_of_isElement h
  obtain ⟨h1, h2, h3, h4, h5, -⟩ := h
  unfold elemEntry MappedItem.layoutEntry MappedItem.bits
  rw [hsp, hsl, h1, h2, h3, h4, h5]
  cases x.type.isPad <;> rfl

/-- One element whose checks hold (R214 to R217). -/
theorem compileElem_of_ok {s : State} {d : Dir} {k i el need : Nat} {x : MappedItem}
    {xs : List MappedItem} (hv : s.validDesc i = true)
    (hel : el < (s.entry .desc i).descNelem.toNat) (h : s.isElement d k i el x)
    (hm : ¬ s.misaligned xs x) (hs : ¬ s.lacksSlots x) (hl : xs.length ≠ s.params.layoutMax) :
    s.compileElem i k d (s.entry .map k).mapInst el (planOf s.params.boolBits xs need) =
      .ok (planOf s.params.boolBits (xs ++ [x]) need) := by
  obtain ⟨ht, hsp, hsl⟩ := resolve_of_isElement h
  have hd : x.dir = d := h.1
  unfold State.compileElem
  simp only [ht, planOf_cur, planOf_entries, mappedLayout_length]
  rw [if_neg (by rw [← hd]; exact hm), if_neg (by
    rw [hsp, hsl]
    exact fun hc => hs ⟨by simpa using hc.1, hc.2⟩), if_neg hl, elemEntry_of_isElement h, ← hd,
    planOf_append (fits_of_isElement hv hel h)]

/-- One element whose first failing check is known (R214 to R216). -/
theorem compileElem_of_bad {s : State} {d : Dir} {k i el need : Nat} {x : MappedItem}
    {xs : List MappedItem} (h : s.isElement d k i el x) :
    (s.misaligned xs x →
      s.compileElem i k d (s.entry .map k).mapInst el (planOf s.params.boolBits xs need) =
        .error (reportAt .offsetAlignmentError k)) ∧
    (¬ s.misaligned xs x → s.lacksSlots x →
      s.compileElem i k d (s.entry .map k).mapInst el (planOf s.params.boolBits xs need) =
        .error (reportAt .storageRangeError k)) ∧
    (¬ s.misaligned xs x → ¬ s.lacksSlots x → xs.length = s.params.layoutMax →
      s.compileElem i k d (s.entry .map k).mapInst el (planOf s.params.boolBits xs need) =
        .error (reportAt .layoutFull k)) := by
  obtain ⟨ht, hsp, hsl⟩ := resolve_of_isElement h
  have hd : x.dir = d := h.1
  unfold State.compileElem
  simp only [ht, planOf_cur, planOf_entries, mappedLayout_length]
  have h1 : (x.type.byteClass s.params.boolBits = true ∧
      mappedBits s.params.boolBits d xs % 8 ≠ 0) ↔ s.misaligned xs x := by rw [← hd]
  have h2 : (((!x.type.isPad) = true ∧ (s.resolve i el).slot + (s.resolve i el).span >
      s.params.vsSlots)) ↔ s.lacksSlots x := by
    rw [hsp, hsl]
    simp [State.lacksSlots]
  refine ⟨fun hm => if_pos (h1.2 hm), fun hm hs => ?_, fun hm hs hl => ?_⟩
  · rw [if_neg (fun hc => hm (h1.1 hc)), if_pos (h2.2 hs)]
  · rw [if_neg (fun hc => hm (h1.1 hc)), if_neg (fun hc => hs (h2.1 hc)), if_pos hl]

/-! ### One map entry -/

/-- Elements `m` on of an ADI map entry, up to and with element `m + n - 1`, all passing (R217). -/
theorem compileElems_of_ok {s : State} {d : Dir} {k i start need : Nat} {xs ys : List MappedItem}
    (hv : s.validDesc i = true) (hn : start + ys.length ≤ (s.entry .desc i).descNelem.toNat)
    (hys : ∀ m x, ys[m]? = some x → s.isElement d k i (start + m) x)
    (hok : s.elementsOk (xs ++ ys)) :
    s.compileElems i k d (s.entry .map k).mapInst ys.length start
        (planOf s.params.boolBits xs need) =
      .ok (planOf s.params.boolBits (xs ++ ys) need) := by
  induction ys generalizing start xs with
  | nil => simp [State.compileElems]
  | cons y ys ih =>
    have hy := hys 0 y rfl
    have h := hok.2 xs.length y (by simp)
    rw [List.take_left] at h
    have hlen := hok.1
    simp only [List.length_append, List.length_cons] at hlen hn
    rw [List.length_cons, State.compileElems,
      compileElem_of_ok hv (by omega) (by simpa using hy) h.1 h.2 (by omega)]
    simp only
    rw [ih (by omega) (fun m x hx => by
      have := hys (m + 1) x (by simpa using hx)
      rwa [show start + (m + 1) = start + 1 + m by omega] at this) (by simpa using hok)]
    simp

/-- Elements of an ADI map entry up to the first failing one (R217). -/
theorem compileElems_of_bad {s : State} {d : Dir} {k i start need : Nat} {r : Report}
    {xs ys : List MappedItem} {rest : Nat} (hv : s.validDesc i = true)
    (hn : start + ys.length ≤ (s.entry .desc i).descNelem.toNat)
    (hys : ∀ m x, ys[m]? = some x → s.isElement d k i (start + m) x)
    (hok : s.elementsOk (xs ++ ys))
    (hbad : s.compileElem i k d (s.entry .map k).mapInst (start + ys.length)
      (planOf s.params.boolBits (xs ++ ys) need) = .error r) :
    s.compileElems i k d (s.entry .map k).mapInst (ys.length + (rest + 1)) start
        (planOf s.params.boolBits xs need) = .error r := by
  induction ys generalizing start xs with
  | nil =>
    rw [List.append_nil] at hbad
    simp only [List.length_nil, Nat.add_zero] at hbad
    rw [List.length_nil, Nat.zero_add, State.compileElems, hbad]
  | cons y ys ih =>
    have hy := hys 0 y rfl
    have h := hok.2 xs.length y (by simp)
    rw [List.take_left] at h
    have hlen := hok.1
    simp only [List.length_append, List.length_cons] at hlen hn
    rw [List.length_cons, show ys.length + 1 + (rest + 1) = ys.length + (rest + 1) + 1 by omega,
      State.compileElems, compileElem_of_ok hv (by omega) (by simpa using hy) h.1 h.2 (by omega)]
    simp only
    refine ih (by omega) (fun m x hx => ?_) (by simpa using hok) ?_
    · have := hys (m + 1) x (by simpa using hx)
      rwa [show start + (m + 1) = start + 1 + m by omega] at this
    · rw [List.length_cons] at hbad
      rw [show start + 1 + ys.length = start + (ys.length + 1) by omega]
      simpa using hbad

theorem elemCount_of_range {s : State} {k n cnt : Nat} (h : s.elementRange k n cnt) :
    elemCount (s.entry .map k) n = some cnt := by
  obtain ⟨h1, h2⟩ := h
  unfold elemCount
  split at h2
  · rename_i hc
    rw [if_pos hc, if_neg (by omega), Option.some.injEq]
    omega
  · rename_i hc
    rw [if_neg hc, if_neg (by omega), h2]

theorem hook_notifies_iff (h : Hook) :
    h.notifies = true ↔ h = .notifyOnSet ∨ h = .validateOnSet := by
  cases h <;> simp [Hook.notifies]

/-- A pad or an ADI entry whose elements all pass (R201 to R219): its elements and its notification are
added to the plan. -/
theorem walk_entry_of_ok {s : State} {n k need : Nat} {xs ys : List MappedItem} (hr : s.RegistryOk)
    (hm : s.mapsTo k ys) (hok : s.elementsOk (xs ++ ys)) :
    s.walk (n + 1) k (planOf s.params.boolBits xs need) =
      s.walk n (k + 1) (planOf s.params.boolBits (xs ++ ys) (need + mappedEvents [ys])) := by
  obtain ⟨d, hd, ⟨hi, x, hx, rfl⟩ | ⟨hi, i, cnt, hid, hin, hrange, hlen, hys⟩⟩ := hm
  · have hlen := hok.1
    simp only [List.length_append, List.length_singleton] at hlen
    have hxd : x.dir = d := by rw [hx]
    have he : padEntry d (mappedBits s.params.boolBits d xs) (s.entry .map k).mapCount.toNat k =
        x.layoutEntry s.params.boolBits (mappedBits s.params.boolBits x.dir xs) := by
      rw [hx]
      simp [padEntry, MappedItem.layoutEntry, MappedItem.bits, ElemType.isPad, ElemType.width]
    have hfit : x.fits s.params.boolBits := by
      have := (s.entry .map k).mapCount.isLt
      rw [hx]
      simp [MappedItem.fits, MappedItem.bits, ElemType.isPad, ElemType.width]
      omega
    have hev : mappedEvents [[x]] = 0 := by
      rw [hx]
      simp [mappedEvents]
    rw [State.walk]
    simp only [hd, hi, if_true, State.compilePad, planOf_entries, mappedLayout_length, planOf_cur]
    rw [if_neg (by omega), he, planOf_append hfit, hev]
    rfl
  · have hv := hr.2.2.1 i hid
    rw [State.walk]
    simp only [hd, if_neg hi, State.compileAdi]
    rw [← hin, lookup_of_registryOk hr hid]
    simp only
    rw [elemCount_of_range hrange, ← hlen, hin]
    simp only
    rw [compileElems_of_ok hv (by rw [hlen]; exact hrange.1) hys hok]
    simp only
    have hev : needsEvent d ys.length (s.entry .desc i).descHook = true ↔ mappedEvents [ys] = 1 := by
      cases ys with
      | nil => simp [needsEvent, mappedEvents]
      | cons y ys =>
        obtain ⟨h1, -, h3, -, h5, -⟩ := hys 0 y rfl
        simp only [needsEvent, Bool.and_eq_true, decide_eq_true_eq, hook_notifies_iff, mappedEvents,
          List.length_cons, List.filter_cons, List.filter_nil, h1, h3, h5, ne_eq, hi,
          not_false_eq_true, true_and]
        cases d <;> by_cases hh : (s.entry .desc i).descHook = .notifyOnSet ∨
          (s.entry .desc i).descHook = .validateOnSet <;> simp [hh]
    have h01 : mappedEvents [ys] = 0 ∨ mappedEvents [ys] = 1 := by
      have : mappedEvents [ys] ≤ 1 := List.length_filter_le _ [ys]
      omega
    split
    · rename_i hn
      rw [hev.1 hn]
      rfl
    · rename_i hn
      rw [h01.resolve_right (fun h => hn (hev.2 h))]
      rfl

/-- An entry with a failing element (R201, R214 to R216). -/
theorem walk_entry_of_bad {s : State} {n k need : Nat} {xs ys : List MappedItem} {m : Nat}
    {x : MappedItem} (hr : s.RegistryOk) (hm : s.mapsTo k ys) (hx : ys[m]? = some x)
    (hok : s.elementsOk (xs ++ ys.take m)) :
    (s.misaligned (xs ++ ys.take m) x →
      s.walk (n + 1) k (planOf s.params.boolBits xs need) =
        .error (reportAt .offsetAlignmentError k)) ∧
    (¬ s.misaligned (xs ++ ys.take m) x → s.lacksSlots x →
      s.walk (n + 1) k (planOf s.params.boolBits xs need) =
        .error (reportAt .storageRangeError k)) ∧
    (¬ s.misaligned (xs ++ ys.take m) x → ¬ s.lacksSlots x →
      (xs ++ ys.take m).length = s.params.layoutMax →
      s.walk (n + 1) k (planOf s.params.boolBits xs need) =
        .error (reportAt .layoutFull k)) := by
  obtain ⟨d, hd, ⟨hi, y, hy, rfl⟩ | ⟨hi, i, cnt, hid, hin, hrange, hlen, hys⟩⟩ := hm
  · have hm0 : m = 0 := by
      have := (List.getElem?_eq_some_iff.1 hx).1
      simpa using this
    subst hm0
    obtain rfl : y = x := by simpa using hx
    have hp : y.type = .pad (s.entry .map k).mapCount.toNat := by rw [hy]
    refine ⟨fun h => ?_, fun _ h => ?_, fun _ _ h => ?_⟩
    · simp [State.misaligned, hp, ElemType.byteClass] at h
    · simp [State.lacksSlots, hp, ElemType.isPad] at h
    · rw [State.walk]
      simp only [hd, hi, if_true, State.compilePad, planOf_entries, mappedLayout_length]
      rw [if_pos (by simpa using h)]
  · have hv := hr.2.2.1 i hid
    have hmlt : m < ys.length := (List.getElem?_eq_some_iff.1 hx).1
    have htake : (ys.take m).length = m := by simp; omega
    have key : ∀ r, s.compileElem i k d (s.entry .map k).mapInst
          ((s.entry .map k).mapStart.toNat + m)
          (planOf s.params.boolBits (xs ++ ys.take m) need) = .error r →
        s.walk (n + 1) k (planOf s.params.boolBits xs need) = .error r := by
      intro r hb
      have := compileElems_of_bad (s := s) (d := d) (k := k) (i := i) (need := need) (r := r)
        (xs := xs) (ys := ys.take m) (start := (s.entry .map k).mapStart.toNat)
        (rest := ys.length - m - 1) hv (by have := hrange.1; omega)
        (fun j y hj => hys j y (by
          have hjm : j < m := by
            have := (List.getElem?_eq_some_iff.1 hj).1
            omega
          rwa [List.getElem?_take_of_lt hjm] at hj)) hok (by rw [htake]; exact hb)
      rw [htake, show m + (ys.length - m - 1 + 1) = ys.length by omega] at this
      rw [State.walk]
      simp only [hd, if_neg hi, State.compileAdi]
      rw [← hin, lookup_of_registryOk hr hid]
      simp only
      rw [elemCount_of_range hrange, ← hlen, hin]
      simp only
      rw [this]
    obtain ⟨h1, h2, h3⟩ := compileElem_of_bad (need := need) (xs := xs ++ ys.take m) (hys m x hx)
    exact ⟨fun h => key _ (h1 h), fun h h' => key _ (h2 h h'), fun h h' h'' => key _ (h3 h h' h'')⟩

/-! ### The list -/

theorem elementsOk_prefix {s : State} {xs ys : List MappedItem} (h : s.elementsOk (xs ++ ys)) :
    s.elementsOk xs := by
  refine ⟨by have := h.1; simp at this; omega, fun m x hx => ?_⟩
  have hm := (List.getElem?_eq_some_iff.1 hx).1
  have := h.2 m x (by rwa [List.getElem?_append_left hm])
  rwa [List.take_append_of_le_length (by omega)] at this

/-- The walk reaches entry `xss.length` with the plan of the entries before it, if their elements all
pass (R200 to R219). -/
theorem walk_of_mapsTo {s : State} (hr : s.RegistryOk) {xss : List (List MappedItem)}
    (hm : ∀ j xs, xss[j]? = some xs → s.mapsTo j xs) (hok : s.elementsOk xss.flatten) (n : Nat) :
    s.walk (xss.length + n) 0 .start =
      s.walk n xss.length (planOf s.params.boolBits xss.flatten (mappedEvents xss)) := by
  induction xss using List.reverseRecOn generalizing n with
  | nil => simp [planOf, mappedLayout, mappedBits, mappedEvents, Plan.start]
  | append_singleton xss ys ih =>
    have hflat : (xss ++ [ys]).flatten = xss.flatten ++ ys := by simp
    rw [hflat] at hok ⊢
    have ih := ih (fun j xs hj => hm j xs (by
      rwa [List.getElem?_append_left (List.getElem?_eq_some_iff.1 hj).1]))
      (elementsOk_prefix hok) (n + 1)
    rw [List.length_append, List.length_singleton, Nat.add_assoc, Nat.add_comm 1 n, ih,
      walk_entry_of_ok hr (hm xss.length ys (by simp)) hok, mappedEvents_concat]

/-- The checks after the terminal entry, on what a list of map entries built (R220, R221). -/
theorem finalChecks_planOf (s : State) (xs : List MappedItem) (need : Nat) :
    s.finalChecks (planOf s.params.boolBits xs need) =
      if mappedBits s.params.boolBits .read xs > 8 * s.rdSize.toNat then
        .error (reportAt .bufferOverflowError (sat31 (mappedBits s.params.boolBits .read xs)))
      else if mappedBits s.params.boolBits .write xs > 8 * s.wrSize.toNat then
        .error (reportAt .bufferOverflowError
          (2 ^ 31 + sat31 (mappedBits s.params.boolBits .write xs)))
      else if need > s.params.notifyDepth then .error (reportAt .notifyCapacity need)
      else .ok (planOf s.params.boolBits xs need) := rfl

end Sys2Proof.Machine
end

