-- ==== Sys2Proof/Laws/PerInstr.lean ====
section
/-! SUPPORT. The word of a well-formed command matches its row of the match and mask table
(30_encoding.md R117), one lemma for each constructor. -/

namespace Sys2Proof.Laws.EncodesItsRow

/-- The word of the command is selected by the row that has its mnemonic. -/
def Statement (i : Instr) : Prop :=
  i.wellFormed = true →
    ∀ r ∈ opcodeRows, r.mnemonic = i.mnemonic → r.selects (encode i) = true

theorem mask_formatC (high : BitVec 16) (bitOff : BitVec 3) (width : BitVec 6) (buf : BitVec 1)
    (op : BitVec 4) :
    assemble high bitOff width buf op &&& 0x0000C00F#32 = op.setWidth 32 := by
  unfold assemble
  apply BitVec.eq_of_getLsbD_eq
  intro i hi
  simp only [BitVec.getLsbD_and, BitVec.getLsbD_append, BitVec.getLsbD_setWidth]
  interval_cases i <;> simp

theorem mask_formatK (width : BitVec 6) (buf : BitVec 1) (op : BitVec 4) :
    assemble 0 0 width buf op &&& 0xFFFFF80F#32 = op.setWidth 32 := by
  unfold assemble
  apply BitVec.eq_of_getLsbD_eq
  intro i hi
  simp only [BitVec.getLsbD_and, BitVec.getLsbD_append, BitVec.getLsbD_setWidth]
  interval_cases i <;> simp

theorem mask_formatS (n : BitVec 16) (op : BitVec 4) :
    assemble n 0 0 0 op &&& 0x0000FFFF#32 = op.setWidth 32 := by
  unfold assemble
  apply BitVec.eq_of_getLsbD_eq
  intro i hi
  simp only [BitVec.getLsbD_and, BitVec.getLsbD_append, BitVec.getLsbD_setWidth]
  interval_cases i <;> simp

theorem rdb (buf : Buf) (width : BitVec 6) (bitOff : BitVec 3) (byteOff : BitVec 16) :
    Statement (.rdb buf width bitOff byteOff) := by
  intro h r hr hm
  simp only [opcodeRows, List.mem_cons, List.not_mem_nil, or_false] at hr
  rcases hr with rfl | rfl | rfl | rfl | rfl | rfl | rfl | rfl | rfl <;> simp [Instr.mnemonic] at hm
  simp only [OpcodeRow.selects, encode, mask_formatC, widthField_assemble, Bool.and_eq_true]
  exact ⟨by decide, h⟩

theorem wrb (buf : Buf) (width : BitVec 6) (bitOff : BitVec 3) (byteOff : BitVec 16) :
    Statement (.wrb buf width bitOff byteOff) := by
  intro h r hr hm
  simp only [opcodeRows, List.mem_cons, List.not_mem_nil, or_false] at hr
  rcases hr with rfl | rfl | rfl | rfl | rfl | rfl | rfl | rfl | rfl <;> simp [Instr.mnemonic] at hm
  simp only [OpcodeRow.selects, encode, mask_formatC, widthField_assemble, Bool.and_eq_true]
  exact ⟨by decide, h⟩

theorem rdc (buf : Buf) (width : BitVec 6) : Statement (.rdc buf width) := by
  intro h r hr hm
  simp only [opcodeRows, List.mem_cons, List.not_mem_nil, or_false] at hr
  rcases hr with rfl | rfl | rfl | rfl | rfl | rfl | rfl | rfl | rfl <;> simp [Instr.mnemonic] at hm
  simp only [OpcodeRow.selects, encode, mask_formatK, widthField_assemble, Bool.and_eq_true]
  exact ⟨by decide, h⟩

theorem wrc (buf : Buf) (width : BitVec 6) : Statement (.wrc buf width) := by
  intro h r hr hm
  simp only [opcodeRows, List.mem_cons, List.not_mem_nil, or_false] at hr
  rcases hr with rfl | rfl | rfl | rfl | rfl | rfl | rfl | rfl | rfl <;> simp [Instr.mnemonic] at hm
  simp only [OpcodeRow.selects, encode, mask_formatK, widthField_assemble, Bool.and_eq_true]
  exact ⟨by decide, h⟩

theorem skip (n : BitVec 16) : Statement (.skip n) := by
  intro _ r hr hm
  simp only [opcodeRows, List.mem_cons, List.not_mem_nil, or_false] at hr
  rcases hr with rfl | rfl | rfl | rfl | rfl | rfl | rfl | rfl | rfl <;> simp [Instr.mnemonic] at hm
  simp only [OpcodeRow.selects, encode, mask_formatS, Bool.and_eq_true]
  exact ⟨by decide, rfl⟩

theorem setsz : Statement .setsz := by
  unfold Statement
  decide

theorem compile : Statement .compile := by
  unfold Statement
  decide

theorem pack : Statement .pack := by
  unfold Statement
  decide

theorem unpack : Statement .unpack := by
  unfold Statement
  decide

end Sys2Proof.Laws.EncodesItsRow
end

