-- ==== Sys2Proof/Laws/Run.lean ====
section
/-! SUPPORT. One turn of `Host.Core.run`. -/

namespace Sys2Proof.Laws

theorem run_of_step {M : Host.Core} {n : Nat} {s u : M.State} (h : M.step s = .next u) :
    Host.Core.run M (n + 1) s = Host.Core.run M n u := by
  simp only [Host.Core.run, h]

theorem run_next {M : Host.Core} {n : Nat} {s t : M.State}
    (h : Host.Core.run M (n + 1) s = .next t) :
    ∃ u, M.step s = .next u ∧ Host.Core.run M n u = .next t := by
  simp only [Host.Core.run] at h
  split at h
  · exact ⟨_, by assumption, h⟩
  · cases h
  · cases h

end Sys2Proof.Laws
end

