-- ==== Sys2Proof/Laws/Runs.lean ====
section
/-! SUPPORT. The events UNPACK queues are those of the maximal runs of one origin group
(42_pack_unpack.md R253): the one pass of `eventsFrom` against the cut into `originRuns`. -/

namespace Sys2Proof.Machine

theorem originRuns_of_cons {e f : LayoutEntry} {es run : List LayoutEntry}
    {runs : List (List LayoutEntry)} (h : originRuns es = (f :: run) :: runs) :
    originRuns (e :: es) =
      if sameGroup e f then (e :: f :: run) :: runs else [e] :: (f :: run) :: runs := by
  rw [originRuns, h]

/-- The runs of a list that is not empty begin with a run that is not empty. -/
theorem originRuns_cons (e : LayoutEntry) (es : List LayoutEntry) :
    ∃ run runs, originRuns (e :: es) = (e :: run) :: runs := by
  rw [originRuns]
  split
  · split <;> exact ⟨_, _, rfl⟩
  · exact ⟨_, _, rfl⟩

theorem originRuns_eq_nil {es : List LayoutEntry} (h : originRuns es = []) : es = [] := by
  cases es with
  | nil => rfl
  | cons e es =>
    obtain ⟨_, _, h'⟩ := originRuns_cons e es
    rw [h'] at h
    cases h

theorem originRuns_ne_nil {es : List LayoutEntry} {rs : List (List LayoutEntry)} :
    originRuns es ≠ [] :: rs := by
  cases es with
  | nil => intro h; cases h
  | cons e es =>
    obtain ⟨_, _, h'⟩ := originRuns_cons e es
    rw [h']
    intro h
    cases h

theorem originRuns_ungrouped {e : LayoutEntry} (es : List LayoutEntry) (h : e.grouped = false) :
    originRuns (e :: es) = [e] :: originRuns es := by
  rw [originRuns]
  split
  · rename_i f run runs heq
    rw [if_neg (by simp [sameGroup, h]), heq]
  · rfl

theorem runEvents_grouped {e : LayoutEntry} (run : List LayoutEntry) (h : e.grouped = true) :
    runEvents (e :: run) = groupEvents e (run.length + 1) := by
  simp [runEvents, groupEvents, h, eventWord]

theorem runEvents_ungrouped {e : LayoutEntry} (run : List LayoutEntry) (h : e.grouped = false) :
    runEvents (e :: run) = [] := by
  simp [runEvents, h]

/-- The events of the entries still to come, by runs: an open group takes in the first run if that is
of its origin. -/
def eventsByRuns (g : Option (LayoutEntry × Nat)) (runs : List (List LayoutEntry)) : List Word :=
  match g with
  | none => runs.flatMap runEvents
  | some (first, c) =>
    match runs with
    | (f :: run) :: rest =>
      if f.grouped = true ∧ f.origin = first.origin then
        groupEvents first (c + run.length + 1) ++ rest.flatMap runEvents
      else groupEvents first c ++ runs.flatMap runEvents
    | _ => groupEvents first c ++ runs.flatMap runEvents

/-- An open group before a grouped entry of another origin closes. -/
theorem eventsByRuns_other {first f : LayoutEntry} {c : Nat} {run : List LayoutEntry}
    {rest : List (List LayoutEntry)} (h : ¬ (f.grouped = true ∧ f.origin = first.origin)) :
    eventsByRuns (some (first, c)) ((f :: run) :: rest) =
      groupEvents first c ++ ((f :: run) :: rest).flatMap runEvents := by
  rw [eventsByRuns, if_neg h]

/-- A grouped entry opens the group of its run. -/
theorem eventsByRuns_open {e : LayoutEntry} (es : List LayoutEntry) (hg : e.grouped = true) :
    eventsByRuns (some (e, 1)) (originRuns es) = (originRuns (e :: es)).flatMap runEvents := by
  match h : originRuns es with
  | [] => rw [originRuns_eq_nil h]; simp [eventsByRuns, originRuns, runEvents_grouped _ hg]
  | [] :: _ => exact absurd h originRuns_ne_nil
  | (f :: run) :: runs =>
    rw [originRuns_of_cons h]
    by_cases hs : f.grouped = true ∧ f.origin = e.origin
    · rw [eventsByRuns, if_pos hs, if_pos (by simp [sameGroup, hg, hs]), List.flatMap_cons,
        runEvents_grouped _ hg, List.length_cons]
      congr 2
      omega
    · have hn : sameGroup e f = false := by
        by_contra hc
        simp only [sameGroup, hg, Bool.true_and, Bool.not_eq_false, Bool.and_eq_true,
          decide_eq_true_eq] at hc
        exact hs ⟨hc.1, hc.2.symm⟩
      rw [eventsByRuns_other hs, if_neg (by simp [hn]), List.flatMap_cons (x := [e]),
        runEvents_grouped _ hg]
      rfl

/-- An open group goes on through a grouped entry of its origin. -/
theorem eventsByRuns_next {first e : LayoutEntry} (c : Nat) (es : List LayoutEntry)
    (hg : e.grouped = true) (ho : e.origin = first.origin) :
    eventsByRuns (some (first, c + 1)) (originRuns es) =
      eventsByRuns (some (first, c)) (originRuns (e :: es)) := by
  match h : originRuns es with
  | [] => rw [originRuns_eq_nil h]; simp [eventsByRuns, originRuns, hg, ho]
  | [] :: _ => exact absurd h originRuns_ne_nil
  | (f :: run) :: runs =>
    rw [originRuns_of_cons h]
    by_cases hs : f.grouped = true ∧ f.origin = first.origin
    · rw [eventsByRuns, if_pos hs, if_pos (by simp [sameGroup, hg, hs, ho]), eventsByRuns,
        if_pos ⟨hg, ho⟩, List.length_cons]
      congr 2
      omega
    · have hn : sameGroup e f = false := by
        by_contra hc
        simp only [sameGroup, hg, Bool.true_and, Bool.not_eq_false, Bool.and_eq_true,
          decide_eq_true_eq] at hc
        exact hs ⟨hc.1, by rw [← hc.2, ho]⟩
      rw [eventsByRuns_other hs, if_neg (by simp [hn]), eventsByRuns, if_pos ⟨hg, ho⟩]
      rfl

/-- The one pass of `eventsFrom` gives the events of the runs (42_pack_unpack.md R253). -/
theorem eventsFrom_eq_runs (es : List LayoutEntry) (g : Option (LayoutEntry × Nat)) :
    eventsFrom g es = eventsByRuns g (originRuns es) := by
  induction es generalizing g with
  | nil =>
    match g with
    | none => rfl
    | some (first, c) => simp [eventsFrom, closeGroup, originRuns, eventsByRuns]
  | cons e es ih =>
    by_cases hg : e.grouped = true
    · match g with
      | none => rw [eventsFrom, if_pos hg, ih, eventsByRuns_open es hg]; rfl
      | some (first, c) =>
        rw [eventsFrom, if_pos hg]
        by_cases ho : e.origin = first.origin
        · simp only [if_pos ho, ih, eventsByRuns_next c es hg ho]
        · simp only [if_neg ho, ih, eventsByRuns_open es hg]
          obtain ⟨run, runs, h⟩ := originRuns_cons e es
          rw [h, eventsByRuns_other fun hh => ho hh.2]
    · have hg : e.grouped = false := by simpa using hg
      rw [originRuns_ungrouped es hg]
      match g with
      | none =>
        rw [eventsFrom, if_neg (by simp [hg]), ih]
        simp [eventsByRuns, closeGroup, runEvents_ungrouped [] hg]
      | some (first, c) =>
        rw [eventsFrom, if_neg (by simp [hg]), ih, eventsByRuns_other (by simp [hg]),
          List.flatMap_cons, runEvents_ungrouped [] hg]
        rfl

/-- The events of a layout are those of its runs. -/
theorem layoutEvents_eq_runs (es : List LayoutEntry) :
    layoutEvents es = (originRuns es).flatMap runEvents :=
  eventsFrom_eq_runs es none

end Sys2Proof.Machine
end

