-- ==== Sys2Proof/Laws/Step.lean ====
section
/-! SUPPORT. What a port access, the ENGINE's turn and a step can do, once each (30_encoding.md R126;
20_memory.md R88, R92; 70_reset_and_hazards.md R300, R306). -/

namespace Sys2Proof.Machine

/-- The buffers of the reset state are in canonical form. -/
theorem reset_memory_wf : Memory.wf State.reset.rdpd ∧ Memory.wf State.reset.wrpd :=
  ⟨⟨List.Pairwise.nil, fun _ h => nomatch h⟩, ⟨List.Pairwise.nil, fun _ h => nomatch h⟩⟩

/-- A port access with BUSY = 0 answers the state after it. -/
theorem portAccess_of_idle {s : State} (hb : s.busy = false) (a : Access) :
    portAccess a s = .next ((s.accessEffect a).reply (s.readValue a)) := by
  simp [portAccess, hb]

/-- The step of a port access by either agent with BUSY = 0. -/
theorem step_of_accesses {s : State} {a : Access} {rest : List Event} (hb : s.busy = false)
    (h : s.accesses a rest) :
    step s = .next ((({ s with sched := rest } : State).accessEffect a).reply
      (({ s with sched := rest } : State).readValue a)) := by
  rcases h with h | h <;> simp [step, nextEvent, h, runEvent, portAccess_of_idle, hb]

/-- Two port accesses by either agent, the first of which leaves BUSY = 0. -/
theorem run_of_accesses {s u : State} {a b : Access} {e : Event} {rest : List Event}
    (hb : s.busy = false) (h : s.accesses a (e :: rest)) (he : e = .host b ∨ e = .transport b)
    (hu : (({ s with sched := e :: rest } : State).accessEffect a).reply
      (({ s with sched := e :: rest } : State).readValue a) = u)
    (hub : u.busy = false) (hus : u.sched = e :: rest) :
    Host.Core.run Sys2Proof.core 2 s = .next ((({ u with sched := rest } : State).accessEffect b).reply
      (({ u with sched := rest } : State).readValue b)) := by
  have h1 := step_of_accesses hb h
  rw [hu] at h1
  have h2 : u.accesses b rest := by
    rcases he with rfl | rfl
    · exact .inl hus
    · exact .inr hus
  rw [Sys2Proof.Laws.run_of_step (M := Sys2Proof.core) h1,
    Sys2Proof.Laws.run_of_step (M := Sys2Proof.core) (step_of_accesses hub h2)]
  rfl

/-- A port access answers a next state only with BUSY = 0 or as a read of STATUS (R306). -/
theorem portAccess_cases {s t : State} {a : Access} (h : portAccess a s = .next t) :
    (s.busy = true → a.isStatusRead = true) ∧ t = (s.accessEffect a).reply (s.readValue a) := by
  unfold portAccess at h
  split at h
  · cases h
  · rename_i hh
    exact ⟨fun hb => by simpa [hb] using hh, (Host.Outcome.next.inj h).symm⟩

/-- The fields no port access writes. -/
theorem access_frame (s : State) (a : Access) (v : Option (BitVec 64)) :
    ∃ pending busy arg descCount nq rdpd wrpd vs desc memb map replies,
      (s.accessEffect a).reply v = { s with
        pending := pending, busy := busy, arg := arg, descCount := descCount, nq := nq
        rdpd := rdpd, wrpd := wrpd, vs := vs, desc := desc, memb := memb, map := map
        replies := replies } := by
  have h : ∃ pending busy arg descCount nq rdpd wrpd vs desc memb map,
      s.accessEffect a = { s with
        pending := pending, busy := busy, arg := arg, descCount := descCount, nq := nq
        rdpd := rdpd, wrpd := wrpd, vs := vs, desc := desc, memb := memb, map := map } := by
    cases a with
    | regRead off =>
      simp only [State.accessEffect, State.regReadEffect]
      split
      · unfold State.popNq
        split <;> exact ⟨_, _, _, _, _, _, _, _, _, _, _, rfl⟩
      · exact ⟨_, _, _, _, _, _, _, _, _, _, _, rfl⟩
    | regWrite off v =>
      simp only [State.accessEffect, State.regWrite]
      split
      · exact ⟨_, _, _, _, _, _, _, _, _, _, _, rfl⟩
      · exact ⟨_, _, _, _, _, _, _, _, _, _, _, rfl⟩
      · split <;> exact ⟨_, _, _, _, _, _, _, _, _, _, _, rfl⟩
      · exact ⟨_, _, _, _, _, _, _, _, _, _, _, rfl⟩
    | bufWrite buf i v =>
      simp only [State.accessEffect, State.bufWrite]
      split
      · cases buf <;> exact ⟨_, _, _, _, _, _, _, _, _, _, _, rfl⟩
      · exact ⟨_, _, _, _, _, _, _, _, _, _, _, rfl⟩
    | vsWrite i v =>
      simp only [State.accessEffect, State.vsWrite]
      split <;> exact ⟨_, _, _, _, _, _, _, _, _, _, _, rfl⟩
    | tableWrite t i j v =>
      simp only [State.accessEffect, State.tableWrite]
      split
      · exact ⟨_, _, _, _, _, _, _, _, _, _, _, rfl⟩
      · split
        · cases t <;> exact ⟨_, _, _, _, _, _, _, _, _, _, _, rfl⟩
        · exact ⟨_, _, _, _, _, _, _, _, _, _, _, rfl⟩
    | bufRead _ _ => exact ⟨_, _, _, _, _, _, _, _, _, _, _, rfl⟩
    | vsRead _ => exact ⟨_, _, _, _, _, _, _, _, _, _, _, rfl⟩
    | tableRead _ _ _ => exact ⟨_, _, _, _, _, _, _, _, _, _, _, rfl⟩
    | layoutRead _ _ => exact ⟨_, _, _, _, _, _, _, _, _, _, _, rfl⟩
    | layoutWrite _ _ _ => exact ⟨_, _, _, _, _, _, _, _, _, _, _, rfl⟩
  obtain ⟨_, _, _, _, _, _, _, _, _, _, _, h⟩ := h
  rw [h]
  cases v <;> exact ⟨_, _, _, _, _, _, _, _, _, _, _, _, rfl⟩

/-- The ENGINE's turn: nothing with BUSY = 0; else FATAL, an illegal word, or a command (R126). -/
theorem engineTurn_cases {s t : State} (h : engineTurn s = .next t) :
    (s.busy = false ∧ t = s) ∨
      s.busy = true ∧
        ((s.fatal = true ∧ t = s.idle) ∨
          s.fatal = false ∧
            ((∃ e, decode s.pending = .error e ∧ t = (s.fail ⟨.illegalCommand, s.pending⟩).idle) ∨
              ∃ i u, decode s.pending = .ok i ∧ exec i s = .next u ∧ t = u.idle)) := by
  unfold engineTurn execute at h
  split at h
  · rename_i hb
    refine .inr ⟨hb, ?_⟩
    split at h
    · rename_i hf
      exact .inl ⟨hf, (Host.Outcome.next.inj h).symm⟩
    · rename_i hf
      refine .inr ⟨by simpa using hf, ?_⟩
      split at h
      · rename_i e hd
        exact .inl ⟨e, hd, (Host.Outcome.next.inj h).symm⟩
      · rename_i i hd
        unfold endCommand at h
        split at h
        · rename_i u hu
          exact .inr ⟨i, u, hd, hu, (Host.Outcome.next.inj h).symm⟩
        · cases h
        · cases h
  · rename_i hb
    exact .inl ⟨by simpa using hb, (Host.Outcome.next.inj h).symm⟩

/-- A step: the ENGINE's turn when nothing is scheduled, else the first event scheduled (R92). -/
theorem step_cases {s t : State} (h : step s = .next t) :
    (s.sched = [] ∧ engineTurn s = .next t) ∨
      ∃ e es, s.sched = e :: es ∧
        ((e = .engine ∧ engineTurn { s with sched := es } = .next t) ∨
          (e = .reset ∧ t = State.assertReset { s with sched := es }) ∨
          ∃ a, (e = .host a ∨ e = .transport a) ∧ portAccess a { s with sched := es } = .next t) := by
  unfold step nextEvent at h
  split at h
  · exact .inl ⟨by assumption, h⟩
  · rename_i e es hs
    refine .inr ⟨e, es, hs, ?_⟩
    cases e with
    | engine => exact .inl ⟨rfl, h⟩
    | reset => exact .inr (.inl ⟨rfl, (Host.Outcome.next.inj h).symm⟩)
    | host a => exact .inr (.inr ⟨a, .inl rfl, h⟩)
    | transport a => exact .inr (.inr ⟨a, .inr rfl, h⟩)

end Sys2Proof.Machine
end

