-- ==== Sys2Proof/Tests/Slice0.lean ====
section
/-! SUPPORT. Tests: ill-formed commands refused, words written out from 30_encoding.md, single steps with
the values of 95_test_vectors.md (each names its vector), and for every statement of
Certificates/Slice0/Obligations.lean with hypotheses a state and operands that meet them. -/

namespace Sys2Proof.Tests

-- One theorem at a time: each kernel evaluation waits for the one before, so side threads only queue up.
set_option Elab.async false

open Sys2Proof.Machine

/-! ### Helpers -/

/-- A table of 16 entries that begins with the given words, the rest 0. -/
def filled (es : List (Word × Word)) : List TableEntry :=
  es.map (fun e => ⟨e.1, e.2⟩) ++ List.replicate (16 - es.length) ⟨0, 0⟩

/-- The reset state with the sizes and tables given and every value slot 0 (95_test_vectors.md
section 0). -/
def start (rs ws : BitVec 16) (desc map : List (Word × Word)) : State :=
  { State.reset with
    rdSize := rs, wrSize := ws, descCount := BitVec.ofNat 16 desc.length
    vs := List.replicate 64 0, desc := filled desc, map := filled map
    memb := filled [(0x00000323#32, 0x00000000#32), (0x00000144#32, 0x00000000#32),
      (0x00000105#32, 0x00000003#32)] }

/-- The state after a command. -/
def after (i : Instr) (s : State) : State :=
  match exec i s with
  | .next t => t
  | .fault _ => s
  | .refused _ => s

/-- The state after one step. -/
def stepped (s : State) : State :=
  match step s with
  | .next t => t
  | .fault _ => s
  | .refused _ => s

/-- The outcome is a next state. -/
def isNext (o : Host.Outcome State Fault Refusal) : Bool :=
  match o with
  | .next _ => true
  | .fault _ => false
  | .refused _ => false

theorem exec_after {i : Instr} {s : State} (h : isNext (exec i s) = true) :
    exec i s = .next (after i s) := by
  unfold after
  revert h
  cases exec i s <;> simp [isNext]

theorem step_stepped {s : State} (h : isNext (step s) = true) : step s = .next (stepped s) := by
  unfold stepped
  revert h
  cases step s <;> simp [isNext]

theorem run_two {s : State} (h : isNext (step s) = true) (h' : isNext (step (stepped s)) = true) :
    Host.Core.run Sys2Proof.core 2 s = .next (stepped (stepped s)) := by
  simp [Host.Core.run, Sys2Proof.core, step_stepped h, step_stepped h']

/-- The last reply. -/
def reply (s : State) : Option (BitVec 64) := s.replies.head?

/-- A step faults. -/
def faults (s : State) : Bool :=
  match step s with
  | .next _ => false
  | .fault _ => true
  | .refused _ => false

def A3 : Word × Word := (0x01000003#32, 0x00000000#32)
def A5 : Word × Word := (0x01050005#32, 0x00000000#32)
def A5h3 : Word × Word := (0x01050005#32, 0x00300000#32)
def A7 : Word × Word := (0x01050007#32, 0x00000001#32)
def A7h3 : Word × Word := (0x04050007#32, 0x00300000#32)
def A8 : Word × Word := (0x01220008#32, 0x00000002#32)
def A9 : Word × Word := (0x01050009#32, 0x00000003#32)
def A11 : Word × Word := (0x0106000B#32, 0x00000004#32)
def A12 : Word × Word := (0x0320000C#32, 0x00000005#32)
def S40 : Word × Word := (0x03000028#32, 0x00400000#32)
def END : Word × Word := (0x00000000#32, 0x00000003#32)

/-- An empty block with two buffers of `n` bytes. -/
def sized (n : BitVec 16) : State := start n n [] []

/-- P-1 compiled: ADI 5 written at bit 0, VS[0] = 0x1FF. -/
def packReady : State :=
  after .compile { start 0 1 [A5] [(0x00010005#32, 1#32), END] with
    vs := 0x1FF#64 :: List.replicate 63 0 }

/-- U-4 compiled: ADI 7, HOOK 3, elements 1 to 3 read, VS[0] = 0x55. -/
def unpackReady : State :=
  after .compile { start 3 0 [A7h3] [(0x01000007#32, 0#32), END] with
    rdpd := [(0, 1#8), (1, 2#8), (2, 3#8)], vs := 0x55#64 :: List.replicate 63 0 }

/-- The exchange round trip of 95_test_vectors.md section 2.5, compiled. -/
def exchangeReady : State :=
  after .compile { start 3 3 [A8, A11] [(0x00010008#32, 1#32), (0x00050000#32, 1#32),
      (0x0001000B#32, 1#32), (0x00010008#32, 0#32), (0x00050000#32, 0#32), (0x0001000B#32, 0#32),
      END] with
    vs := [0#64, 0#64, 0x7#64, 0#64, 0x12345#64] ++ List.replicate 59 0 }

/-! ### Ill-formed commands (30_encoding.md R118) -/

theorem test_rdb_width_33_ill_formed : (Instr.rdb .rd 33#6 0#3 0#16).wellFormed = false := by decide
theorem test_wrb_width_33_ill_formed : (Instr.wrb .wr 33#6 7#3 5#16).wellFormed = false := by decide
theorem test_rdc_width_63_ill_formed : (Instr.rdc .rd 63#6).wellFormed = false := by decide
theorem test_wrc_width_33_ill_formed : (Instr.wrc .wr 33#6).wellFormed = false := by decide

/-! ### Words (30_encoding.md R111 to R117, R128, R129; 95_test_vectors.md X1 to X10) -/

/-- BYTEOFF 1, RSV 0, BITOFF 3, WIDTH 12, BUF 0, OP 1. -/
theorem test_decode_rdb :
    decode 0b0000000000000001_00_011_001100_0_0001#32 = .ok (.rdb .rd 12#6 3#3 1#16) := by rfl

/-- BYTEOFF 0x8001, BITOFF 7, WIDTH 32, BUF 1, OP 2. -/
theorem test_decode_wrb :
    decode 0b1000000000000001_00_111_100000_1_0010#32 = .ok (.wrb .wr 32#6 7#3 0x8001#16) := by rfl

theorem test_decode_rdc :
    decode 0b0000000000000000_00_000_001000_0_0011#32 = .ok (.rdc .rd 8#6) := by rfl

theorem test_decode_wrc :
    decode 0b0000000000000000_00_000_000100_1_0100#32 = .ok (.wrc .wr 4#6) := by rfl

theorem test_decode_skip :
    decode 0b1000000000000100_00_000_000000_0_0101#32 = .ok (.skip 0x8004#16) := by rfl

theorem test_decode_setsz : decode 0x00000006#32 = .ok .setsz := by rfl
theorem test_decode_compile : decode 0x00000008#32 = .ok .compile := by rfl
theorem test_decode_pack : decode 0x00000009#32 = .ok .pack := by rfl
theorem test_decode_unpack : decode 0x0000000A#32 = .ok .unpack := by rfl

theorem test_illegal_words :
    ([0x00000000#32, 0x00000421#32, 0x00004001#32, 0x00000803#32, 0x00010003#32, 0x00000015#32,
      0x00000106#32, 0x00000007#32, 0x00010009#32, 0x0000000B#32] : List Word).all
      (fun c => decodeTableWord 32 c.toNat == none) = true := by decide

theorem test_table_word : decodeTableWord 32 0x00011981 = some (.rdb .rd 12#6 3#3 1#16) := by decide

theorem test_fetch_word :
    (stepped (State.reset.withFetchWord 32 0x00040005)).cursor = 4#32 ∧
      (stepped (State.reset.withFetchWord 32 0x00040005)).busy = false := by decide +kernel

/-! ### Single commands -/

/-- K2 with p = 12, w = 12 (K8). -/
theorem test_rdb_spans_bytes :
    let t := after (.rdb .rd 12#6 4#3 1#16)
      { sized 4 with rdpd := [(0, 0x78#8), (1, 0x56#8), (2, 0x34#8), (3, 0x12#8)] }
    t.result = 0x345#32 ∧ t.cursor = 24#32 ∧ t.errcode = 0#8 := by decide +kernel

/-- K3: one bit past the end. -/
theorem test_rdb_out_of_bounds :
    let t := after (.rdb .rd 32#6 1#3 0#16) { sized 4 with result := 0xAAAAAAAA#32, cursor := 0x77#32 }
    t.result = 0xAAAAAAAA#32 ∧ t.cursor = 0x77#32 ∧ t.errcode = 1#8 ∧ t.errinfo = 1#32 := by
  decide +kernel

/-- K12: bits outside the field are kept. -/
theorem test_wrb_keeps_other_bits :
    let t := after (.wrb .wr 12#6 3#3 0#16)
      { sized 2 with wrpd := [(0, 0xFF#8), (1, 0xFF#8)], arg := 0xFFFFFABC#32 }
    t.wrpd = [(0, 0xE7#8), (1, 0xD5#8)] ∧ t.cursor = 15#32 := by decide +kernel

/-- 95_test_vectors.md 1.9: a field that straddles the end writes nothing. -/
theorem test_wrb_straddles_end :
    let t := after (.wrb .wr 12#6 6#3 1#16) { sized 3 with arg := 0xFFF#32 }
    t.wrpd = [] ∧ t.errcode = 1#8 ∧ t.errinfo = 14#32 := by decide +kernel

/-- K17. -/
theorem test_rdc :
    let t := after (.rdc .rd 16#6) { sized 2 with rdpd := [(0, 0x34#8), (1, 0x12#8)] }
    t.result = 0x1234#32 ∧ t.cursor = 16#32 := by decide +kernel

/-- K20. -/
theorem test_wrc :
    let t := after (.wrc .wr 4#6) { sized 1 with cursor := 4#32, arg := 0xF#32 }
    t.wrpd = [(0, 0xF0#8)] ∧ t.cursor = 8#32 := by decide +kernel

/-- K21: w = 0 is still checked. -/
theorem test_wrc_width_0_checked :
    (after (.wrc .wr 0#6) { sized 1 with cursor := 9#32 }).errinfo = 9#32 := by decide +kernel

/-- K23. -/
theorem test_skip_wraps :
    (after (.skip 0x20#16) { sized 0 with cursor := 0xFFFFFFF0#32 }).cursor = 0x10#32 := by
  decide +kernel

/-- Z5, in part. -/
theorem test_setsz :
    let t := after .setsz { unpackReady with arg := 0x00040002#32, cursor := 7#32, nq := [0x0200000D#32] }
    t.pdsize = 0x00040002#32 ∧ t.layoutValid = false ∧ t.rdpd = [] ∧ t.cursor = 0#32 ∧
      t.nq = [0x0200000D#32] := by decide +kernel

/-- Z2. -/
theorem test_setsz_too_large :
    let t := after .setsz { start 2 4 [] [] with arg := 0x00110000#32 }
    t.errcode = 0x12#8 ∧ t.errinfo = 0x00110000#32 ∧ t.wrSize = 4#16 := by decide +kernel

/-- E23 with its read-back. -/
theorem test_compile_structured :
    let t := after .compile (start 3 2 [S40] [(0x00000028#32, 0#32), END])
    t.rdBits = 24#32 ∧ t.layout.map (fun e => [e.word 0, e.word 1, e.word 2, e.word 3]) =
      [[0x00000000#32, 0x00040304#32, 0x00000000#32, 0x00000028#32],
       [0x00140001#32, 0x00040100#32, 0x00000000#32, 0x00010028#32],
       [0x00000002#32, 0x00080108#32, 0x00000003#32, 0x00020028#32]] := by decide +kernel

/-- E17: the write direction overflows. -/
theorem test_compile_overflow :
    let t := after .compile (start 2 1 [A11] [(0x0001000B#32, 1#32), END])
    t.errcode = 8#8 ∧ t.errinfo = 0x80000010#32 ∧ t.layoutValid = false := by decide +kernel

/-- P-1. -/
theorem test_pack_masks : (after .pack packReady).wrpd = [(0, 0xFF#8)] := by decide +kernel

/-- P-6. -/
theorem test_pack_no_layout : (after .pack (sized 1)).errcode = 0x0A#8 := by decide +kernel

/-- U-4. -/
theorem test_unpack_queues_one_event :
    let t := after .unpack unpackReady
    t.vs.take 4 = [0x55#64, 1#64, 2#64, 3#64] ∧ t.nq = [0x03010007#32] := by decide +kernel

/-- U-6: no room, nothing stored. -/
theorem test_unpack_no_room :
    let t := after .unpack { unpackReady with nq := List.replicate 4 0x03010007#32 }
    t.errcode = 0x0F#8 ∧ t.errinfo = 1#32 ∧ t.vs = unpackReady.vs := by decide +kernel

/-! ### Ports and reset -/

/-- H1, H2. -/
theorem test_busy_hazard :
    faults { sized 1 with busy := true, sched := [.host (.regRead 0x08)] } = true ∧
      reply (stepped { sized 1 with busy := true, sched := [.host (.regRead 0x0C)] }) = some 1#64 := by
  decide +kernel

/-- P3 step 12: STATUS with a full queue, a layout and NotifyFull. -/
theorem test_status_word :
    { unpackReady with nq := List.replicate 4 1#32, errcode := 0x0F#8 }.status = 0x00040F0A#32 := by
  decide +kernel

/-- 10_state.md R62: past LAYOUT_COUNT the bits R62 calls 0 are 0, whatever the rest holds. -/
theorem test_undefined_entry_zero_bits :
    undefinedEntryWord 0 0xFFFFFFFF#32 = 0x007FFFFF#32 ∧
      undefinedEntryWord 3 0xFFFFFFFF#32 = 0x00FFFFFF#32 ∧
      undefinedEntryWord 1 0xFFFFFFFF#32 = 0xFFFFFFFF#32 := by decide

/-- 10_state.md R43: WR_SIZE is the upper half of PDSIZE. -/
theorem test_pdsize_read :
    reply (stepped { start 0x0201 0x0403 [] [] with sched := [.host (.regRead 0x18)] }) =
      some 0x04030201#64 := by decide +kernel

/-- H8. -/
theorem test_reset_status : State.reset.status = 0#32 := by decide +kernel

/-! ### Every statement's hypotheses are met -/

theorem witness_DecodeOfEncodeGivesTheInstruction :
    (Instr.rdb .wr 32#6 7#3 0xFFFF#16).wellFormed = true ∧ (Instr.wrc .rd 0#6).wellFormed = true := by
  decide

theorem witness_EncodeOfDecodeGivesTheWord :
    decode 0xFFFF3C11#32 = .ok (.rdb .wr 32#6 7#3 0xFFFF#16) := by rfl

theorem witness_LegalWordsAreTheRowsOfTheOpcodeMap :
    decode 0x00000401#32 = .ok (.rdb .rd 32#6 0#3 0#16) ∧
      (⟨"RDB", 0x00000001#32, 0x0000C00F#32, true⟩ : OpcodeRow) ∈ opcodeRows ∧
      OpcodeRow.selects ⟨"RDB", 0x00000001#32, 0x0000C00F#32, true⟩ 0x00000401#32 = true :=
  ⟨rfl, by decide, by decide⟩

/-- A command pending with the given events to come. -/
def pendingState (c : Word) (sched : List Event) : State :=
  { sized 1 with pending := c, busy := true, sched := sched }

theorem witness_EngineTurnRunsTheDecodedCommand :
    (pendingState 0x00040005#32 [.engine, .reset]).busy = true ∧
      (pendingState 0x00040005#32 []).fatal = false ∧
      decode (pendingState 0x00040005#32 []).pending = .ok (.skip 4#16) ∧
      (pendingState 0x00040005#32 [.engine, .reset]).sched = .engine :: [.reset] ∧
      (pendingState 0x00040005#32 []).sched = [] := ⟨rfl, rfl, rfl, rfl, rfl⟩

theorem witness_PrologueChecksFatalThenLegality :
    ({ pendingState 0x9#32 [.engine] with fatal := true }.fatal = true) ∧
      (∀ i, decode (pendingState 0x421#32 [.engine]).pending ≠ .ok i) ∧
      decode (pendingState 0x9#32 [.engine]).pending = .ok .pack ∧
      exec .pack { pendingState 0x9#32 [.engine] with sched := [] } =
        .next (after .pack { pendingState 0x9#32 [.engine] with sched := [] }) := by
  refine ⟨rfl, ?_, rfl, exec_after (by decide +kernel)⟩
  have h : decode (pendingState 0x421#32 [.engine]).pending = .error .widthAbove32 := rfl
  rw [h]
  exact nofun

theorem witness_WordOutsideTheOpcodeMapIsReported :
    (pendingState 0x421#32 [.engine]).busy = true ∧ (pendingState 0x421#32 [.engine]).fatal = false ∧
      ∀ r ∈ opcodeRows, r.selects (pendingState 0x421#32 [.engine]).pending = false := by decide +kernel

theorem witness_BusyAccessIsAHazardExceptStatusReads :
    (pendingState 5#32 [.transport (.bufRead .rd 0)]).busy = true ∧
      (pendingState 5#32 [.transport (.bufRead .rd 0)]).sched = .transport (.bufRead .rd 0) :: [] ∧
      Access.bufRead .rd 0 ≠ .regRead 0x0C ∧
      (pendingState 5#32 [.host (.regRead 0x0C)]).sched = .host (.regRead 0x0C) :: [] := by
  decide +kernel

theorem witness_IdleBlockHoldsAllState :
    (sized 1).busy = false ∧ (sized 1).sched = [] ∧
      { sized 1 with sched := [.engine] }.busy = false ∧
      { sized 1 with sched := [.engine] }.sched = .engine :: [] := by decide +kernel

theorem witness_PollingEndsWithBusyClear :
    (pendingState 5#32 (List.replicate 2 (.host (.regRead 0x0C)))).busy = true ∧
      (pendingState 5#32 (List.replicate 2 (.host (.regRead 0x0C)))).sched =
        List.replicate 2 (.host (.regRead 0x0C)) ∧
      (pendingState 5#32 []).sched = List.replicate 0 (.host (.regRead 0x0C)) := by decide +kernel

/-- The field ends exactly at the end (K4), and w = 0 at the end (K19). -/
theorem witness_ReadCommandsReturnTheField :
    8 * (3#16).toNat + (0#3).toNat + (8#6).toNat ≤ 8 * (sized 4).size .rd ∧
      { sized 2 with cursor := 16#32 }.cursor.toNat + (0#6).toNat ≤ 8 * (sized 2).size .rd := by
  decide +kernel

theorem witness_WriteCommandsWriteExactlyTheField :
    writtenField (.wrb .wr 32#6 7#3 0#16) (sized 5) = some (.wr, 7, 32) ∧
      Memory.wf ((sized 5).mem .wr) ∧ 7 + 32 ≤ 8 * (sized 5).size .wr ∧
      writtenField (.wrc .rd 4#6) { sized 1 with cursor := 4#32 } = some (.rd, 4, 4) ∧
      Memory.wf ((sized 1).mem .rd) ∧ 4 + 4 ≤ 8 * (sized 1).size .rd := by decide +kernel

/-- One bit too far, and the last bit. -/
theorem witness_OutOfBoundsAccessOnlyReports :
    8 * (sized 4).size .rd < 8 * (0#16).toNat + (1#3).toNat + (32#6).toNat ∧
      8 * (0#16).toNat + (0#3).toNat + (32#6).toNat ≤ 8 * (sized 4).size .rd ∧
      8 * (sized 2).size .wr < { sized 2 with cursor := 16#32 }.cursor.toNat + (1#6).toNat ∧
      { sized 2 with cursor := 15#32 }.cursor.toNat + (1#6).toNat ≤ 8 * (sized 2).size .wr := by
  decide +kernel

theorem witness_SuccessfulAccessMovesTheCursorPastTheField :
    exec (.wrb .wr 8#6 0#3 3#16) (sized 4) = .next (after (.wrb .wr 8#6 0#3 3#16) (sized 4)) ∧
      (after (.wrb .wr 8#6 0#3 3#16) (sized 4)).errcode = 0 ∧
      exec (.rdc .rd 32#6) (sized 4) = .next (after (.rdc .rd 32#6) (sized 4)) ∧
      (after (.rdc .rd 32#6) (sized 4)).errcode = 0 := ⟨exec_after (by decide +kernel), by decide +kernel, exec_after (by decide +kernel), by decide +kernel⟩

theorem witness_WriteThenReadReturnsTheMaskedValue :
    Memory.wf ((sized 8).mem .rd) ∧ (32#6).toNat ≤ 32 ∧
      8 * (4#16).toNat + (0#3).toNat + (32#6).toNat ≤ 8 * (sized 8).size .rd ∧
      exec (.wrb .rd 32#6 0#3 4#16) (sized 8) = .next (after (.wrb .rd 32#6 0#3 4#16) (sized 8)) ∧
      { after (.wrb .rd 32#6 0#3 4#16) (sized 8) with cursor := 0 }.mem .rd =
        (after (.wrb .rd 32#6 0#3 4#16) (sized 8)).mem .rd :=
  ⟨by decide +kernel, by decide, by decide +kernel, exec_after (by decide +kernel), rfl⟩

theorem witness_CodecWritesKeepDisjointFields :
    writtenField (.wrc .wr 4#6) { sized 1 with cursor := 4#32 } = some (.wr, 4, 4) ∧
      Memory.wf ({ sized 1 with cursor := 4#32 }.mem .wr) ∧
      exec (.wrc .wr 4#6) { sized 1 with cursor := 4#32 } =
        .next (after (.wrc .wr 4#6) { sized 1 with cursor := 4#32 }) ∧
      (after (.wrc .wr 4#6) { sized 1 with cursor := 4#32 }).errcode = 0 ∧
      (0 + 4 ≤ 4 ∨ 4 + 4 ≤ 0) ∧
      exec (.rdc .rd 8#6) (sized 1) = .next (after (.rdc .rd 8#6) (sized 1)) :=
  ⟨by decide +kernel, by decide +kernel, exec_after (by decide +kernel), by decide +kernel,
    by decide, exec_after (by decide +kernel)⟩

/-- Bits 3 to 14, then bits 12 to 19: they overlap in 12 to 14. -/
theorem witness_LaterWriteWinsOnTheOverlap :
    let s := { sized 4 with arg := 0xFFF#32 }
    let t := after (.wrb .wr 12#6 3#3 0#16) s
    let v := after (.wrb .wr 8#6 4#3 1#16) { t with arg := 0 }
    writtenField (.wrb .wr 12#6 3#3 0#16) s = some (.wr, 3, 12) ∧ Memory.wf (s.mem .wr) ∧
      exec (.wrb .wr 12#6 3#3 0#16) s = .next t ∧ t.errcode = 0 ∧
      writtenField (.wrb .wr 8#6 4#3 1#16) { t with arg := 0 } = some (.wr, 12, 8) ∧
      exec (.wrb .wr 8#6 4#3 1#16) { t with arg := 0 } = .next v ∧ v.errcode = 0 ∧
      3 ≤ 12 ∧ 12 < 3 + 12 ∧ 12 ≤ 12 ∧ 12 < 12 + 8 :=
  ⟨by decide +kernel, by decide +kernel, exec_after (by decide +kernel), by decide +kernel,
    by decide +kernel, exec_after (by decide +kernel), by decide +kernel, by decide⟩

theorem witness_AlignedFieldIsLittleEndian :
    Memory.wf ((sized 8).mem .rd) ∧ 4 ≤ 4 ∧ (4#16).toNat + 4 ≤ (sized 8).size .rd ∧
      (8#16).toNat + 0 ≤ (sized 8).size .rd := by decide +kernel

/-- PD_MAX_BYTES = 16: 16 is accepted, 17 is not. -/
theorem witness_SetszSetsBothSizesOrOnlyReports :
    let s := { sized 0 with arg := 0x00100010#32 }
    let u := { sized 0 with arg := 0x00110000#32 }
    (s.arg.extractLsb' 0 16).toNat ≤ s.params.pdMaxBytes ∧
      (s.arg.extractLsb' 16 16).toNat ≤ s.params.pdMaxBytes ∧
      u.params.pdMaxBytes < (u.arg.extractLsb' 16 16).toNat := by decide +kernel

theorem witness_TypeCodesHaveTheirWidthAndClass :
    elemType 0x50#8 = some (.pad 16) ∧ elemType 0x3F#8 = some (.bits 32) ∧
      elemType 0x0D#8 = some .octet := by decide

/-- S40, MEMB[0] and a map entry of ADI 12 of DIR 1, composed of their fields. -/
theorem witness_ValidDescriptorConditions :
    (⟨0x03000028#32, 0x00400000#32⟩ : TableEntry) = ⟨3#8 ++ 0#8 ++ 0x28#16,
        0#9 ++ BitVec.ofBool true ++ 0#2 ++ 0#4 ++ 0#16⟩ ∧
      (⟨0x00000323#32, 0#32⟩ : TableEntry) = ⟨0#4 ++ 0#8 ++ 0#4 ++ 3#8 ++ 0x23#8, 0#16 ++ 0#16⟩ ∧
      (⟨0x0201000C#32, 1#32⟩ : TableEntry) = ⟨2#8 ++ 1#8 ++ 0xC#16, 0#30 ++ 1#2⟩ ∧
      (0#2 = 0 ∧ 1#2 = 1 ∧ 2#2 = 2 ∧ 3#2 = 3) := by decide

/-- E2 and E1. -/
theorem witness_DescriptorCountIsCheckedFirst :
    let s := { sized 2 with descCount := 17#16 }
    s.layoutValid = false ∧ s.params.descMax < s.descCount.toNat ∧
      (sized 2).layoutValid = false ∧ (sized 2).descCount.toNat = 0 := by decide +kernel

/-- E5 (first and only descriptor invalid), E3 and E4 (at index 1), and a registry that compiles. -/
theorem witness_FirstBadDescriptorIsReported :
    let bad := start 2 2 [(0x01050000#32, 0#32)] [END]
    let dup := start 2 2 [A5, A5] [END]
    let low := start 2 2 [A7, A5] [END]
    let good := start 2 2 [A5, A7] [END]
    (bad.layoutValid = false ∧ bad.descCount.toNat ≤ bad.params.descMax ∧ 0 < bad.descCount.toNat ∧
      bad.validDesc 0 = false) ∧
    (dup.validDesc 0 = true ∧ dup.validDesc 1 = true ∧ 1 < dup.descCount.toNat ∧
      (dup.entry .desc 1).descInst = (dup.entry .desc 0).descInst) ∧
    (low.validDesc 0 = true ∧ low.validDesc 1 = true ∧
      (low.entry .desc 1).descInst.toNat < (low.entry .desc 0).descInst.toNat) ∧
    (good.layoutValid = false ∧ exec .compile good = .next (after .compile good) ∧
      (after .compile good).layoutValid = true) :=
  ⟨by decide +kernel, by decide +kernel, by decide +kernel, rfl,
    exec_after (by decide +kernel), by decide +kernel⟩

/-- Two entries of one INSTANCE with another between them (95_test_vectors.md 1.3). -/
theorem witness_RepeatedInstanceIsNeverAccepted :
    let s := start 2 2 [A5, A7, A5] [END]
    s.layoutValid = false ∧ 0 < 2 ∧ 2 < s.descCount.toNat ∧
      (s.entry .desc 0).descInst = (s.entry .desc 2).descInst := by decide +kernel

/-- 16 pads fill MAP_MAX = 16 entries. -/
theorem witness_MapWithoutTerminatorIsRefused :
    let s := start 2 2 [A5] (List.replicate 16 (0x00010000#32, 0#32))
    s.layoutValid = false ∧ s.RegistryOk ∧ s.params.mapMax ≤ s.params.layoutMax ∧
      ∀ k, k < s.params.mapMax → (s.entry .map k).mapDir ≠ .endMarker ∧
        (s.entry .map k).mapDir ≠ .invalid ∧ (s.entry .map k).mapInst = 0 := by decide +kernel

/-- A pad of 8 bits fits a buffer of one byte exactly, one of 9 does not. -/
theorem witness_SinglePadCompilesOrOverflows :
    let s := start 1 0 [A5] [(0x00080000#32, 0#32), END]
    let u := start 0 1 [A5] [(0x00090000#32, 1#32), END]
    (s.layoutValid = false ∧ s.params.Legal ∧ s.RegistryOk ∧ 2 ≤ s.params.mapMax ∧
      (s.entry .map 0).mapDir = .dir .read ∧ (s.entry .map 0).mapInst = 0 ∧
      (s.entry .map 0).mapCount.toNat = 8 ∧ (s.entry .map 1).mapDir = .endMarker ∧
      8 ≤ 8 * s.size Dir.read.buf) ∧
    (u.layoutValid = false ∧ u.RegistryOk ∧ (u.entry .map 0).mapDir = .dir .write ∧
      (u.entry .map 0).mapInst = 0 ∧ (u.entry .map 0).mapCount.toNat = 9 ∧
      (u.entry .map 1).mapDir = .endMarker ∧ 8 * u.size Dir.write.buf < 9) := by decide +kernel

/-- R226: all 3 elements of ADI 12; and one element of it from START 2, the last. -/
theorem witness_ScalarEntryExpandsToConsecutiveElements :
    let s := start 2 2 [A12] [(0x0000000C#32, 0#32), END]
    let u := start 2 2 [A12] [(0x0201000C#32, 1#32), END]
    (s.layoutValid = false ∧ s.params.Legal ∧ s.RegistryOk ∧ 2 ≤ s.params.mapMax ∧
      (s.entry .map 0).mapDir = .dir .read ∧ (s.entry .map 1).mapDir = .endMarker ∧ 0 < s.descs ∧
      (s.entry .map 0).mapInst = (s.entry .desc 0).descInst ∧
      (s.entry .desc 0).descStruct = false ∧
      elemType (s.entry .desc 0).descType = some (.bits 1) ∧ ElemType.isPad (.bits 1) = false ∧
      (s.entry .map 0).mapCount = 0 ∧
      (s.entry .map 0).mapStart.toNat + 3 = (s.entry .desc 0).descNelem.toNat ∧
      (s.entry .desc 0).descBase.toNat + (s.entry .map 0).mapStart.toNat + 3 ≤ s.params.vsSlots ∧
      3 ≤ s.params.layoutMax ∧
      3 * ElemType.width s.params.boolBits (.bits 1) ≤ 8 * s.size Dir.read.buf) ∧
    (u.RegistryOk ∧ (u.entry .map 0).mapDir = .dir .write ∧ (u.entry .map 0).mapCount ≠ 0 ∧
      (u.entry .map 0).mapCount.toNat = 1 ∧
      (u.entry .map 0).mapStart.toNat + 1 ≤ (u.entry .desc 0).descNelem.toNat) := by decide +kernel

/-- E12. -/
theorem witness_MisalignedByteElementIsRefused :
    let s := start 2 2 [A9] [(0x00050000#32, 0#32), (0x00010009#32, 0#32), END]
    s.layoutValid = false ∧ s.params.Legal ∧ s.RegistryOk ∧ 2 ≤ s.params.mapMax ∧
      (s.entry .map 0).mapDir = .dir .read ∧ (s.entry .map 0).mapInst = 0 ∧
      (s.entry .map 0).mapCount.toNat % 8 ≠ 0 ∧ (s.entry .map 1).mapDir = .dir .read ∧
      0 < s.descs ∧ (s.entry .map 1).mapInst = (s.entry .desc 0).descInst ∧
      (s.entry .desc 0).descStruct = false ∧ elemType (s.entry .desc 0).descType = some .uint8 ∧
      ElemType.byteClass s.params.boolBits .uint8 = true ∧ (s.entry .map 1).mapCount ≠ 0 ∧
      (s.entry .map 1).mapStart.toNat + (s.entry .map 1).mapCount.toNat ≤
        (s.entry .desc 0).descNelem.toNat := by decide +kernel

/-- Scenario 1 (95_test_vectors.md 1.5). -/
theorem witness_SuccessfulCompileGivesAValidLayout :
    let s := start 0 1 [A3] [(0x00000003#32, 1#32), END]
    s.params.Legal ∧ s.layoutValid = false ∧ exec .compile s = .next (after .compile s) ∧
      (after .compile s).layoutValid = true :=
  ⟨by decide +kernel, rfl, exec_after (by decide +kernel), by decide +kernel⟩

theorem witness_FailingCompileLeavesNoLayout :
    let s := start 2 1 [A11] [(0x0001000B#32, 1#32), END]
    s.layoutValid = false ∧ (after .compile s).layoutValid = false := by decide +kernel

theorem witness_CompileIsIdempotentAndReadsOnlyItsInputs :
    let s := start 0 1 [A3] [(0x00000003#32, 1#32), END]
    let u := { s with cursor := 9#32, nq := [1#32] }
    let t := after .compile s
    let r := { t with arg := t.wrSize ++ t.rdSize }
    t.layoutValid = true ∧ s.layoutValid = false ∧ u.layoutValid = false ∧ s.desc = u.desc ∧
      s.map = u.map ∧ exec .compile s = .next t ∧
      exec .setsz r = .next (after .setsz r) ∧ (after .setsz r).errcode = 0 :=
  ⟨by decide +kernel, rfl, rfl, rfl, rfl, exec_after (by decide +kernel),
    exec_after (by decide +kernel), by decide +kernel⟩

theorem witness_ExchangeWithoutLayoutOnlyReports : (sized 1).layoutValid = false := by rfl

/-- The exchange round trip's entry of ADI 11: 16 bits at byte 1, slot 4. -/
def exchangeEntry (d : Dir) (origin : BitVec 16) : LayoutEntry where
  dir := d
  kind := .data
  byte := 1
  bit := 0
  width := 16
  stride := 16
  span := 1
  slot := 4
  origin := origin
  inst := 11
  elem := 0
  hook := .none

/-- The exchange round trip's layout in buffers one byte too short, as no run leaves it. -/
def shrunk : State := { exchangeReady with rdSize := 2, wrSize := 2 }

/-- Entry 2 is the first write-direction data entry that ends too late. -/
theorem witness_PackStopsFatallyAtTheFirstOverrun :
    shrunk.layoutValid = true ∧
      (shrunk.layout.take shrunk.layoutCount.toNat)[2]? = some (exchangeEntry .write 2) ∧
      8 * shrunk.wrSize.toNat < (exchangeEntry .write 2).endPos ∧
      ((shrunk.layout.take shrunk.layoutCount.toNat).take 2).all
        (fun f => decide (f.endPos ≤ 8 * shrunk.wrSize.toNat)) = true := by decide +kernel

/-- Entry 5 is the first read-direction data entry that ends too late. -/
theorem witness_UnpackStopsFatallyAtTheFirstOverrun :
    shrunk.layoutValid = true ∧
      shrunk.notifyNeed.toNat ≤ shrunk.params.notifyDepth - shrunk.nq.length ∧
      (shrunk.layout.take shrunk.layoutCount.toNat)[5]? = some (exchangeEntry .read 5) ∧
      8 * shrunk.rdSize.toNat < (exchangeEntry .read 5).endPos ∧
      ((shrunk.layout.take shrunk.layoutCount.toNat).take 5).all
        (fun f => decide (f.dir = .write ∨ f.endPos ≤ 8 * shrunk.rdSize.toNat)) = true := by
  decide +kernel

theorem witness_PackWritesExactlyTheMappedFields :
    exchangeReady.layoutValid = true ∧ exchangeReady.LayoutOk ∧ Memory.wf exchangeReady.wrpd := by
  decide +kernel

theorem witness_UnpackWithoutRoomOnlyReports :
    let s := { unpackReady with nq := List.replicate 4 0x03010007#32 }
    s.layoutValid = true ∧ s.params.notifyDepth - s.nq.length < s.notifyNeed.toNat := by
  decide +kernel

/-- One free place for one event. -/
theorem witness_UnpackStoresTheLastNamedFields :
    let s := { unpackReady with nq := List.replicate 3 0x03010007#32 }
    s.layoutValid = true ∧ s.LayoutOk ∧ s.vs.length = s.params.vsSlots ∧
      s.notifyNeed.toNat ≤ s.params.notifyDepth - s.nq.length := by decide +kernel

theorem witness_UnpackQueuesOneEventPerOriginGroup :
    unpackReady.layoutValid = true ∧ unpackReady.LayoutOk ∧
      unpackReady.notifyNeed.toNat ≤ unpackReady.params.notifyDepth - unpackReady.nq.length ∧
      exec .unpack unpackReady = .next (after .unpack unpackReady) := by
  refine ⟨by decide +kernel, by decide +kernel, by decide +kernel,
    exec_after (by decide +kernel)⟩

theorem witness_PackCopyUnpackReturnsTheValues :
    let s := exchangeReady
    let ew := exchangeEntry .write 2
    let er := exchangeEntry .read 5
    s.layoutValid = true ∧ s.LayoutOk ∧ Memory.wf s.wrpd ∧ s.vs.length = s.params.vsSlots ∧
      s.notifyNeed.toNat ≤ s.params.notifyDepth - s.nq.length ∧
      exec .pack s = .next (after .pack s) ∧ ew ∈ s.layout ∧ s.layout = s.layout.take 5 ++ er :: [] ∧
      ew.dir = .write ∧ ew.kind = .data ∧ er.dir = .read ∧ er.kind = .data ∧
      er.pos = ew.pos ∧ er.width = ew.width ∧ er.span = ew.span ∧ 0 < er.span.toNat :=
  ⟨by decide +kernel, by decide +kernel, by decide +kernel, by decide +kernel, by decide +kernel,
    exec_after (by decide +kernel),
    by decide +kernel, by decide +kernel, rfl, rfl, rfl, rfl, rfl, rfl, rfl, by decide⟩

/-- An idle state with one access of HOST to come, and one of TRANSPORT. -/
def eventState (a : Access) : State := { sized 1 with sched := [.host a] }

def transportState (a : Access) : State := { sized 1 with sched := [.transport a] }

/-- An idle state with a write of one agent and a read of the other to come. -/
def pairState (a b : Access) : State := { sized 1 with sched := [.host a, .transport b] }

theorem eventState_accesses (a : Access) : (eventState a).accesses a [] := .inl rfl

theorem transportState_accesses (a : Access) : (transportState a).accesses a [] := .inr rfl

theorem pairState_accesses (a b : Access) : (pairState a b).accesses a (.transport b :: []) :=
  .inl rfl

theorem witness_StatusWordFields :
    (eventState (.regRead 0x0C)).accesses (.regRead 0x0C) [] ∧
      { transportState (.regRead 0x0C) with busy := true }.accesses (.regRead 0x0C) [] :=
  ⟨.inl rfl, .inr rfl⟩

theorem witness_CommandWriteLatchesTheWord :
    (eventState (.regWrite 0x00 9#32)).busy = false ∧
      (eventState (.regWrite 0x00 9#32)).accesses (.regWrite 0x00 9#32) [] ∧
      (transportState (.regRead 0x00)).busy = false ∧
      (transportState (.regRead 0x00)).accesses (.regRead 0x00) [] :=
  ⟨rfl, .inl rfl, rfl, .inr rfl⟩

/-- PDSIZE among the reads; a DESC_COUNT write whose upper half is not 0. -/
theorem witness_ArgAndDescCountTakeWrites :
    (transportState (.regRead 0x18)).busy = false ∧
      (transportState (.regRead 0x18)).accesses (.regRead 0x18) [] ∧
      (0x18, 65537) ∈ [(0x14, (transportState (.regRead 0x18)).cursor.toNat),
        (0x18, 2 ^ 16 * (transportState (.regRead 0x18)).wrSize.toNat +
          (transportState (.regRead 0x18)).rdSize.toNat)] ∧
      (eventState (.regWrite 0x04 9#32)).accesses (.regWrite 0x04 9#32) [] ∧
      (eventState (.regWrite 0x1C 0xFFFFFFFF#32)).accesses (.regWrite 0x1C 0xFFFFFFFF#32) [] ∧
      (eventState (.regWrite 0x1C 0xFFFFFFFF#32)).layoutValid = false :=
  ⟨rfl, .inr rfl, by decide, .inl rfl, .inl rfl, rfl⟩

/-- H5 and H6: an unassigned offset, and a read-only register. -/
theorem witness_OtherRegisterWritesAreIgnored :
    (eventState (.regWrite 0x08 5#32)).busy = false ∧ 0x08 ∉ [0x00, 0x04, 0x1C] ∧
      (eventState (.regWrite 0x08 5#32)).accesses (.regWrite 0x08 5#32) [] ∧
      0x34 ∉ [0x00, 0x04, 0x08, 0x0C, 0x10, 0x14, 0x18, 0x1C, 0x20, 0x24, 0x28, 0x2C, 0x30] ∧
      (transportState (.regRead 0x34)).accesses (.regRead 0x34) [] :=
  ⟨rfl, by decide, .inl rfl, by decide, .inr rfl⟩

/-- `packReady` with one access of TRANSPORT to come. -/
def lockedState (a : Access) : State := { packReady with sched := [.transport a] }

/-- Under a layout; and without one at the last entry of MAP. -/
theorem witness_LayoutLocksTheTables :
    ((lockedState (.tableWrite .desc 0 0 1#32)).busy = false ∧
      (lockedState (.tableWrite .desc 0 0 1#32)).layoutValid = true ∧
      (lockedState (.tableWrite .desc 0 0 1#32)).accesses (.tableWrite .desc 0 0 1#32) [] ∧
      (lockedState (.regWrite 0x1C 0#32)).accesses (.regWrite 0x1C 0#32) [] ∧
      0 < (lockedState (.tableRead .desc 0 1)).tableMax .desc ∧
      ((lockedState (.tableRead .desc 0 1)).table .desc)[0]? = some ⟨A5.1, A5.2⟩ ∧
      (lockedState (.tableRead .desc 0 1)).accesses (.tableRead .desc 0 1) []) ∧
    ((eventState (.tableWrite .map 15 1 1#32)).busy = false ∧
      (eventState (.tableWrite .map 15 1 1#32)).layoutValid = false ∧
      15 < (eventState (.tableWrite .map 15 1 1#32)).tableMax .map ∧
      ((eventState (.tableWrite .map 15 1 1#32)).table .map).length =
        (eventState (.tableWrite .map 15 1 1#32)).tableMax .map ∧ 1 < 2 ∧
      (eventState (.tableWrite .map 15 1 1#32)).accesses (.tableWrite .map 15 1 1#32) [] ∧
      (eventState (.regWrite 0x1C 0#32)).accesses (.regWrite 0x1C 0#32) []) :=
  ⟨⟨by decide +kernel, by decide +kernel, .inr rfl, .inr rfl, by decide +kernel, by decide +kernel,
      .inr rfl⟩,
    ⟨rfl, rfl, by decide +kernel, by decide +kernel, by decide, .inl rfl, .inl rfl⟩⟩

/-- The last byte, the last slot and the last table word: read, written, and written then read. -/
theorem witness_PortWritesAreReadBack :
    (sized 1).MemoriesOk ∧ (sized 1).busy = false ∧ (sized 1).layoutValid = false ∧
      15 < (sized 1).params.pdMaxBytes ∧ 63 < (sized 1).params.vsSlots ∧
      15 < (sized 1).tableMax .memb ∧ 1 < 2 ∧
      (eventState (.bufRead .rd 15)).accesses (.bufRead .rd 15) [] ∧
      (transportState (.bufWrite .wr 15 7#8)).accesses (.bufWrite .wr 15 7#8) [] ∧
      (pairState (.bufWrite .wr 15 7#8) (.bufRead .wr 15)).accesses (.bufWrite .wr 15 7#8)
        (.transport (.bufRead .wr 15) :: []) ∧
      (eventState (.vsRead 63)).accesses (.vsRead 63) [] ∧
      (transportState (.vsWrite 63 7#64)).accesses (.vsWrite 63 7#64) [] ∧
      (pairState (.vsWrite 63 7#64) (.vsRead 63)).accesses (.vsWrite 63 7#64)
        (.transport (.vsRead 63) :: []) ∧
      (eventState (.tableRead .memb 15 1)).accesses (.tableRead .memb 15 1) [] ∧
      (transportState (.tableWrite .memb 15 1 7#32)).accesses (.tableWrite .memb 15 1 7#32) [] ∧
      (pairState (.tableWrite .memb 15 1 7#32) (.tableRead .memb 15 1)).accesses
        (.tableWrite .memb 15 1 7#32) (.transport (.tableRead .memb 15 1) :: []) :=
  ⟨by decide +kernel, rfl, rfl, by decide, by decide, by decide, by decide, .inl rfl, .inr rfl,
    .inl rfl, .inl rfl, .inr rfl, .inl rfl, .inl rfl, .inr rfl, .inl rfl⟩

/-- The first index, or word number, past each space. -/
theorem witness_OutOfRangeIndicesReadZeroAndIgnoreWrites :
    (sized 1).busy = false ∧ (sized 1).params.pdMaxBytes ≤ 16 ∧ (sized 1).params.vsSlots ≤ 64 ∧
      (sized 1).tableMax .map ≤ 16 ∧ (sized 1).params.layoutMax ≤ 64 ∧ 2 ≤ 2 ∧ 4 ≤ 4 ∧
      (eventState (.bufRead .rd 16)).accesses (.bufRead .rd 16) [] ∧
      (transportState (.vsRead 64)).accesses (.vsRead 64) [] ∧
      (eventState (.tableRead .map 16 0)).accesses (.tableRead .map 16 0) [] ∧
      (transportState (.tableRead .desc 0 2)).accesses (.tableRead .desc 0 2) [] ∧
      (eventState (.layoutRead 64 0)).accesses (.layoutRead 64 0) [] ∧
      (transportState (.layoutRead 0 4)).accesses (.layoutRead 0 4) [] ∧
      (eventState (.bufWrite .wr 16 1#8)).accesses (.bufWrite .wr 16 1#8) [] ∧
      (transportState (.vsWrite 64 1#64)).accesses (.vsWrite 64 1#64) [] ∧
      (eventState (.tableWrite .map 16 0 1#32)).accesses (.tableWrite .map 16 0 1#32) [] ∧
      (transportState (.tableWrite .desc 0 2 1#32)).accesses (.tableWrite .desc 0 2 1#32) [] :=
  ⟨rfl, by decide, by decide, by decide, by decide, by decide, by decide, .inl rfl, .inr rfl,
    .inl rfl, .inr rfl, .inl rfl, .inr rfl, .inl rfl, .inr rfl, .inl rfl, .inr rfl⟩

theorem witness_NotifyPopTakesTheHead :
    let s := { transportState (.regRead 0x30) with nq := [0x03010007#32] }
    s.busy = false ∧ s.nq = 0x03010007#32 :: [] ∧ s.accesses (.regRead 0x30) [] ∧
      s.RangesOk ∧ (eventState (.regRead 0x30)).nq = [] ∧
      (eventState (.regRead 0x30)).accesses (.regRead 0x30) [] ∧
      (eventState (.regWrite 0x30 1#32)).accesses (.regWrite 0x30 1#32) [] :=
  ⟨rfl, rfl, .inr rfl, ⟨by decide +kernel, by decide +kernel, by decide +kernel,
    fun w h => by obtain rfl := List.mem_singleton.1 h; decide⟩, rfl, .inl rfl, .inl rfl⟩

/-- The last entry of a layout of three; reads of it and past it. -/
theorem witness_LayoutReadBackWords :
    unpackReady.layoutValid = true ∧ 2 < unpackReady.params.layoutMax ∧
      2 < unpackReady.layoutCount.toNat ∧ (unpackReady.layout[2]?).isSome = true ∧
      (eventState (.layoutRead 3 0)).busy = false ∧
      (eventState (.layoutRead 3 0)).accesses (.layoutRead 3 0) [] ∧
      (transportState (.layoutWrite 0 0 1#32)).busy = false ∧
      (transportState (.layoutWrite 0 0 1#32)).accesses (.layoutWrite 0 0 1#32) [] :=
  ⟨by decide +kernel, by decide +kernel, by decide +kernel, by decide +kernel, rfl, .inl rfl, rfl,
    .inr rfl⟩

theorem witness_ResetRestoresTheResetState :
    (pendingState 9#32 [.reset]).sched = .reset :: [] := by rfl

theorem witness_RightAfterReset :
    0 < 8 * (0#16).toNat + (0#3).toNat + (1#6).toNat ∧
      8 * (0#16).toNat + (0#3).toNat + (0#6).toNat = 0 := by decide

theorem witness_ResetMeetsTheInvariant : Config.params.Legal := by decide

theorem witness_EveryStepKeepsTheInvariant :
    let s := { unpackReady with pending := 0x0000000A#32, busy := true, sched := [.engine] }
    s.Inv ∧ step s = .next (stepped s) := 
  ⟨⟨by decide +kernel, by decide +kernel, ⟨by decide +kernel, by decide +kernel, by decide +kernel,
      fun _ h => nomatch h⟩, ⟨fun _ => by decide +kernel, nofun⟩, by decide +kernel⟩,
    step_stepped (by decide +kernel)⟩

theorem witness_FatalIsUnreachableFromReset :
    let s := State.resetWith Config.params 0 [.host (.regWrite 0x00 5#32), .engine] []
    Config.params.Legal ∧ Host.Core.run Sys2Proof.core 2 s = .next (stepped (stepped s)) :=
  ⟨by decide, run_two (by decide +kernel) (by decide +kernel)⟩

/-- A state no run reaches in which PACK sets FATAL, one in which FATAL is set, and a reset. -/
theorem witness_OnlyExchangeSetsAndOnlyResetClearsFatal :
    let s := { exchangeReady with wrSize := 2, pending := 9#32, busy := true, sched := [.engine] }
    let u := { pendingState 5#32 [.engine] with fatal := true }
    let v := { pendingState 5#32 [.reset] with fatal := true }
    (step s = .next (stepped s) ∧ s.fatal = false ∧ (stepped s).fatal = true) ∧
      (step u = .next (stepped u) ∧ u.fatal = true ∧ u.sched = .engine :: []) ∧
      (step v = .next (stepped v) ∧ v.fatal = true ∧ (stepped v).fatal = false) :=
  ⟨⟨step_stepped (by decide +kernel), rfl, by decide +kernel⟩,
    ⟨step_stepped (by decide +kernel), rfl, rfl⟩,
    ⟨step_stepped (by decide +kernel), rfl, by decide +kernel⟩⟩

/-- A command of each kind that changes what only it may change. -/
theorem witness_CommandsWriteOnlyTheirOwnState :
    let s := { sized 1 with rdpd := [(0, 1#8)], arg := 1#32 }
    (exec (.rdc .rd 8#6) s = .next (after (.rdc .rd 8#6) s) ∧
      (after (.rdc .rd 8#6) s).result ≠ s.result ∧ (after (.rdc .rd 8#6) s).cursor ≠ s.cursor) ∧
    (exec (.wrc .wr 8#6) s = .next (after (.wrc .wr 8#6) s) ∧
      (after (.wrc .wr 8#6) s).wrpd ≠ s.wrpd) ∧
    (exec .setsz s = .next (after .setsz s) ∧ (after .setsz s).wrSize ≠ s.wrSize ∧
      (after .setsz s).rdpd ≠ s.rdpd) ∧
    (exec .unpack unpackReady = .next (after .unpack unpackReady) ∧
      (after .unpack unpackReady).nq ≠ unpackReady.nq) :=
  ⟨⟨exec_after (by decide +kernel), by decide +kernel, by decide +kernel⟩, ⟨exec_after (by decide +kernel), by decide +kernel⟩,
    ⟨exec_after (by decide +kernel), by decide +kernel, by decide +kernel⟩, ⟨exec_after (by decide +kernel), by decide +kernel⟩⟩

theorem witness_FailingCommandChangesNothingElse :
    exec .pack (sized 1) = .next (after .pack (sized 1)) ∧ (after .pack (sized 1)).errcode ≠ 0 ∧
      Instr.pack ≠ .compile := ⟨exec_after (by decide +kernel), by decide +kernel, by decide⟩

/-! ### Map lists (95_test_vectors.md section 0) -/

/-- A pad of `n` bits as map entry `k`. -/
def pad (d : Dir) (n k : Nat) : MappedItem := ⟨d, .pad n, 1, 0, k, 0, 0, .none⟩

/-- The hypotheses that the statements about map lists share. -/
def listMeets (s : State) (xss : List (List MappedItem)) : Prop :=
  s.layoutValid = false ∧ s.RegistryOk ∧ xss.length ≤ s.params.mapMax ∧
    (∀ j xs, xss[j]? = some xs → s.mapsTo j xs) ∧ s.elementsOk xss.flatten

theorem pad_maps {s : State} {d : Dir} {n k : Nat}
    (h : (s.entry .map k).mapDir = .dir d ∧ (s.entry .map k).mapInst = 0 ∧
      (s.entry .map k).mapCount.toNat = n) : s.mapsTo k [pad d n k] :=
  ⟨d, h.1, .inl ⟨h.2.1, _, rfl, by rw [h.2.2]; rfl⟩⟩

theorem adi_maps {s : State} {k : Nat} {xs : List MappedItem} (d : Dir) (i : Nat)
    (h : (s.entry .map k).mapDir = .dir d ∧ (s.entry .map k).mapInst ≠ 0 ∧ i < s.descs ∧
      (s.entry .desc i).descInst = (s.entry .map k).mapInst ∧
      s.elementRange k (s.entry .desc i).descNelem.toNat xs.length ∧
      ∀ p ∈ xs.zipIdx, s.isElement d k i ((s.entry .map k).mapStart.toNat + p.2) p.1) :
    s.mapsTo k xs :=
  ⟨d, h.1, .inr ⟨h.2.1, i, _, h.2.2.1, h.2.2.2.1, h.2.2.2.2.1, rfl,
    fun m x hx => h.2.2.2.2.2 (x, m) (List.mk_mem_zipIdx_iff_getElem?.2 hx)⟩⟩

theorem elements_ok {s : State} {xs : List MappedItem} (h : xs.length ≤ s.params.layoutMax ∧
    ∀ p ∈ xs.zipIdx, ¬ s.misaligned (xs.take p.2) p.1 ∧ ¬ s.lacksSlots p.1) : s.elementsOk xs :=
  ⟨h.1, fun m x hx => h.2 (x, m) (List.mk_mem_zipIdx_iff_getElem?.2 hx)⟩

theorem none_meet {s : State} (h : s.layoutValid = false ∧ s.RegistryOk) : listMeets s [] :=
  ⟨h.1, h.2, Nat.zero_le _, nofun, Nat.zero_le _, nofun⟩

theorem one_meets {s : State} {xs : List MappedItem} (h : s.layoutValid = false ∧ s.RegistryOk ∧
    1 ≤ s.params.mapMax) (hm : s.mapsTo 0 xs) (hok : s.elementsOk xs) : listMeets s [xs] :=
  ⟨h.1, h.2.1, h.2.2, fun j ys hj => by
    obtain ⟨rfl, rfl⟩ : j = 0 ∧ xs = ys := by
      cases j with
      | zero => simpa using hj
      | succ j => simp at hj
    exact hm, by simpa using hok⟩

theorem two_meet {s : State} {xs ys : List MappedItem} (h : s.layoutValid = false ∧ s.RegistryOk ∧
    2 ≤ s.params.mapMax) (hx : s.mapsTo 0 xs) (hy : s.mapsTo 1 ys) (hok : s.elementsOk (xs ++ ys)) :
    listMeets s [xs, ys] :=
  ⟨h.1, h.2.1, h.2.2, fun j zs hj => by
    match j, hj with
    | 0, hj => obtain rfl : xs = zs := by simpa using hj
               exact hx
    | 1, hj => obtain rfl : ys = zs := by simpa using hj
               exact hy
    | j + 2, hj => simp at hj, by simpa using hok⟩

/-- One pad in a MAP of one entry. -/
def unterminated : State :=
  { start 2 2 [A5] [(0x00050000#32, 0#32)] with params := { Config.params with mapMax := 1 } }

/-- ADI 9 after a pad of 5 bits (E12). -/
def misalignedList : State := start 2 2 [A9] [(0x00050000#32, 0#32), (0x00010009#32, 0#32), END]

/-- ADI 5 in the first slot past the value store, and a map entry one past its elements. -/
def slotless : State := start 2 2 [(0x01050005#32, 64#32)] [(0x00000005#32, 1#32), END]

def outOfElements : State := start 2 2 [A5] [(0x01010005#32, 0#32), END]

/-- A second pad with room for one entry. -/
def crowded : State :=
  { start 2 2 [A5] [(0x00050000#32, 0#32), (0x00010000#32, 1#32), END] with
    params := { Config.params with layoutMax := 1 } }

/-- A pad of 9 bits in the buffer of one byte, in either direction. -/
def overflowing (dir : Word) : State := start 1 1 [A5] [(0x00090000#32, dir), END]

/-- ADI 7, HOOK 3, read in two map entries with room for one event. -/
def noisy : State :=
  { start 3 0 [A7h3] [(0x00010007#32, 0#32), (0x03010007#32, 0#32), END] with
    params := { Config.params with notifyDepth := 1 } }

def element5 : MappedItem := ⟨.write, .uint8, 1, 64, 0, 5#16, 0, .none⟩

def element7 (k el : Nat) : MappedItem := ⟨.read, .uint8, 1, el, k, 7#16, el, .validateOnSet⟩

def element9 : MappedItem := ⟨.read, .uint8, 1, 3, 1, 9#16, 0, .none⟩

/-- Each clause: no entry left, DIR = 2, an unknown INSTANCE, a range past the elements, a misaligned
element, no slot, no room, both overflows, too many notifications. -/
theorem witness_FirstFailingMapCheckIsReported :
    (listMeets unterminated [[pad .read 5 0]] ∧ 1 = unterminated.params.mapMax) ∧
    (listMeets (start 2 2 [A5] [(0#32, 2#32)]) [] ∧
      ((start 2 2 [A5] [(0#32, 2#32)]).entry .map 0).mapDir = .invalid) ∧
    (listMeets (start 2 2 [A5] [(4#32, 0#32)]) [] ∧
      ((start 2 2 [A5] [(4#32, 0#32)]).entry .map 0).mapDir = .dir .read ∧
      ((start 2 2 [A5] [(4#32, 0#32)]).entry .map 0).mapInst ≠ 0 ∧
      ∀ i, i < (start 2 2 [A5] [(4#32, 0#32)]).descs →
        ((start 2 2 [A5] [(4#32, 0#32)]).entry .desc i).descInst ≠
          ((start 2 2 [A5] [(4#32, 0#32)]).entry .map 0).mapInst) ∧
    (listMeets outOfElements [] ∧ (outOfElements.entry .map 0).mapDir = .dir .read ∧
      0 < outOfElements.descs ∧
      (outOfElements.entry .desc 0).descInst = (outOfElements.entry .map 0).mapInst ∧
      (outOfElements.entry .desc 0).descNelem.toNat <
        (outOfElements.entry .map 0).mapStart.toNat + (outOfElements.entry .map 0).mapCount.toNat) ∧
    (listMeets misalignedList [[pad .read 5 0]] ∧ misalignedList.mapsTo 1 [element9] ∧
      misalignedList.misaligned [pad .read 5 0] element9) ∧
    (listMeets slotless [] ∧ slotless.mapsTo 0 [element5] ∧ slotless.elementsOk [] ∧
      ¬ slotless.misaligned [] element5 ∧ slotless.lacksSlots element5) ∧
    (listMeets crowded [[pad .read 5 0]] ∧ crowded.mapsTo 1 [pad .write 1 1] ∧
      crowded.elementsOk [pad .read 5 0] ∧ ¬ crowded.misaligned [pad .read 5 0] (pad .write 1 1) ∧
      ¬ crowded.lacksSlots (pad .write 1 1) ∧ [pad .read 5 0].length = crowded.params.layoutMax) ∧
    (listMeets (overflowing 0) [[pad .read 9 0]] ∧
      ((overflowing 0).entry .map 1).mapDir = .endMarker ∧
      8 * (overflowing 0).rdSize.toNat < mappedBits .one .read [pad .read 9 0]) ∧
    (listMeets (overflowing 1) [[pad .write 9 0]] ∧
      mappedBits .one .read [pad .write 9 0] ≤ 8 * (overflowing 1).rdSize.toNat ∧
      8 * (overflowing 1).wrSize.toNat < mappedBits .one .write [pad .write 9 0]) ∧
    (listMeets noisy [[element7 0 0], [element7 1 3]] ∧ (noisy.entry .map 2).mapDir = .endMarker ∧
      mappedBits .one .read [element7 0 0, element7 1 3] ≤ 8 * noisy.rdSize.toNat ∧
      mappedBits .one .write [element7 0 0, element7 1 3] ≤ 8 * noisy.wrSize.toNat ∧
      noisy.params.notifyDepth < mappedEvents [[element7 0 0], [element7 1 3]]) :=
  ⟨⟨one_meets (by decide +kernel) (pad_maps (by decide +kernel)) (elements_ok (by decide +kernel)),
      by decide⟩,
    ⟨none_meet (by decide +kernel), by decide +kernel⟩,
    ⟨none_meet (by decide +kernel), by decide +kernel⟩,
    ⟨none_meet (by decide +kernel), by decide +kernel⟩,
    ⟨one_meets (by decide +kernel) (pad_maps (by decide +kernel)) (elements_ok (by decide +kernel)),
      adi_maps .read 0 (by decide +kernel), by decide +kernel⟩,
    ⟨none_meet (by decide +kernel), adi_maps .write 0 (by decide +kernel),
      elements_ok (by decide +kernel), by decide +kernel⟩,
    ⟨one_meets (by decide +kernel) (pad_maps (by decide +kernel)) (elements_ok (by decide +kernel)),
      pad_maps (by decide +kernel), elements_ok (by decide +kernel), by decide +kernel⟩,
    ⟨one_meets (by decide +kernel) (pad_maps (by decide +kernel)) (elements_ok (by decide +kernel)),
      by decide +kernel⟩,
    ⟨one_meets (by decide +kernel) (pad_maps (by decide +kernel)) (elements_ok (by decide +kernel)),
      by decide +kernel⟩,
    ⟨two_meet (by decide +kernel) (adi_maps .read 0 (by decide +kernel))
      (adi_maps .read 0 (by decide +kernel)) (elements_ok (by decide +kernel)), by decide +kernel⟩⟩

/-- The structured ADI of 95_test_vectors.md section 0 read whole, then a pad of the other direction. -/
def structuredList : State := start 3 1 [S40] [(0x00000028#32, 0#32), (0x00050000#32, 1#32), END]

def members40 : List MappedItem :=
  [⟨.read, .bits 4, 3, 0, 0, 0x28#16, 0, .none⟩, ⟨.read, .pad 4, 1, 0, 0, 0x28#16, 1, .none⟩,
    ⟨.read, .uint8, 1, 3, 0, 0x28#16, 2, .none⟩]

theorem witness_MapListCompilesToItsElements :
    listMeets structuredList [members40, [pad .write 5 1]] ∧
      2 < structuredList.params.mapMax ∧ (structuredList.entry .map 2).mapDir = .endMarker ∧
      mappedBits .one .read (members40 ++ [pad .write 5 1]) ≤ 8 * structuredList.rdSize.toNat ∧
      mappedBits .one .write (members40 ++ [pad .write 5 1]) ≤ 8 * structuredList.wrSize.toNat ∧
      mappedEvents [members40, [pad .write 5 1]] ≤ structuredList.params.notifyDepth :=
  ⟨two_meet (by decide +kernel) (adi_maps .read 0 (by decide +kernel)) (pad_maps (by decide +kernel))
      (elements_ok (by decide +kernel)), by decide +kernel⟩

/-- The layout of that list: 4 bits three times, a pad of 4, 8 bits; and the other direction's pad. -/
theorem test_structured_positions :
    (after .compile structuredList).layout.map (fun e => (e.pos, e.width.toNat, e.span.toNat)) =
      [(0, 4, 3), (12, 0, 1), (16, 8, 1), (0, 0, 1)] := by decide +kernel

end Sys2Proof.Tests
end

section
/-! The opcode map of 30_encoding.md R117 and the illegal words of R118 (O4), and the worked encodings of
R129 (O1). -/

namespace Sys2Proof

open Laws.EncodesItsRow (mask_formatC mask_formatK mask_formatS)

/-! ### A word under a row's mask -/

/-- A field whose bits the mask selects whole is the masked word's. -/
theorem extractLsb'_of_and_eq {start len : Nat} {mask c d : Word} (h : c &&& mask = d)
    (hm : mask.extractLsb' start len = BitVec.allOnes len) :
    c.extractLsb' start len = d.extractLsb' start len := by
  rw [← h, BitVec.extractLsb'_and, hm, BitVec.and_allOnes]

theorem bufField_of_and_eq {mask c d : Word} (h : c &&& mask = d) (hm : mask.getLsbD 4 = true) :
    bufField c = bufField d := by
  simp [← h, bufField, hm]

/-- The word that is 0 above its OP. -/
theorem setWidth_eq_assemble (op : BitVec 4) : op.setWidth 32 = assemble 0 0 0 0 op := by
  decide +revert

/-- Format C's mask (R112) selects OP and RSV. -/
theorem and_maskC_iff (c : Word) (op : BitVec 4) :
    c &&& 0x0000C00F#32 = op.setWidth 32 ↔ opField c = op ∧ rsvField c = 0 := by
  constructor
  · intro h
    rw [setWidth_eq_assemble] at h
    exact ⟨(extractLsb'_of_and_eq h (by decide)).trans (opField_assemble ..),
      (extractLsb'_of_and_eq h (by decide)).trans (rsvField_assemble ..)⟩
  · rintro ⟨rfl, hrsv⟩
    have hm := mask_formatC (highField c) (bitOffField c) (widthField c) (bufField c).bit (opField c)
    rwa [assemble_fields hrsv] at hm

/-- Format K's mask (R113) selects every field but BUF and WIDTH. -/
theorem and_maskK_iff (c : Word) (op : BitVec 4) :
    c &&& 0xFFFFF80F#32 = op.setWidth 32 ↔
      opField c = op ∧ rsvField c = 0 ∧ bitOffField c = 0 ∧ highField c = 0 := by
  constructor
  · intro h
    rw [setWidth_eq_assemble] at h
    exact ⟨(extractLsb'_of_and_eq h (by decide)).trans (opField_assemble ..),
      (extractLsb'_of_and_eq h (by decide)).trans (rsvField_assemble ..),
      (extractLsb'_of_and_eq h (by decide)).trans (bitOffField_assemble ..),
      (extractLsb'_of_and_eq h (by decide)).trans (highField_assemble ..)⟩
  · rintro ⟨rfl, hrsv, hoff, hhigh⟩
    have hm := mask_formatK (widthField c) (bufField c).bit (opField c)
    have hc := assemble_fields hrsv
    rw [hoff, hhigh] at hc
    rwa [hc] at hm

/-- Format S's mask (R114) selects every field but N. -/
theorem and_maskS_iff (c : Word) (op : BitVec 4) :
    c &&& 0x0000FFFF#32 = op.setWidth 32 ↔
      opField c = op ∧ rsvField c = 0 ∧ bufField c = .rd ∧ widthField c = 0 ∧ bitOffField c = 0 := by
  constructor
  · intro h
    rw [setWidth_eq_assemble] at h
    exact ⟨(extractLsb'_of_and_eq h (by decide)).trans (opField_assemble ..),
      (extractLsb'_of_and_eq h (by decide)).trans (rsvField_assemble ..),
      (bufField_of_and_eq h (by decide)).trans (bufField_assemble 0 0 0 .rd op),
      (extractLsb'_of_and_eq h (by decide)).trans (widthField_assemble ..),
      (extractLsb'_of_and_eq h (by decide)).trans (bitOffField_assemble ..)⟩
  · rintro ⟨rfl, hrsv, hbuf, hwidth, hoff⟩
    have hm := mask_formatS (highField c) (opField c)
    have hc := assemble_fields hrsv
    rw [hbuf, hwidth, hoff, show Buf.rd.bit = 0 from rfl] at hc
    rwa [hc] at hm

/-- A word is 0 above its OP exactly when it is assembled from its OP alone. -/
theorem above_op_eq_zero_iff (c : Word) :
    c.extractLsb' 4 28 = 0#28 ↔ c = assemble 0 0 0 0 (opField c) := by
  have hzero (op : BitVec 4) : assemble 0 0 0 0 op = 0#28 ++ op := by decide +revert
  have hsplit : c.extractLsb' 4 28 ++ opField c = c :=
    (BitVec.extractLsb'_append_extractLsb'_eq_extractLsb' rfl).trans BitVec.extractLsb'_eq_self
  constructor
  · intro h
    rw [h] at hsplit
    rw [hzero, hsplit]
  · intro h
    rw [h, hzero, BitVec.extractLsb'_append_eq_left]

/-- A word is 0 above its OP exactly when each of its other fields is 0 (R115). -/
theorem above_op_eq_zero_iff_fields (c : Word) :
    c.extractLsb' 4 28 = 0#28 ↔
      rsvField c = 0 ∧ bufField c = .rd ∧ widthField c = 0 ∧ bitOffField c = 0 ∧ highField c = 0 := by
  rw [above_op_eq_zero_iff]
  constructor
  · intro h
    rw [h]
    exact ⟨rsvField_assemble .., bufField_assemble 0 0 0 .rd _, widthField_assemble ..,
      bitOffField_assemble .., highField_assemble ..⟩
  · rintro ⟨hrsv, hbuf, hwidth, hoff, hhigh⟩
    have hc := assemble_fields hrsv
    rw [hbuf, hwidth, hoff, hhigh] at hc
    exact hc.symm

/-- Format Z's mask (R115) selects every bit. -/
theorem and_maskZ_iff (c : Word) (op : BitVec 4) :
    c &&& 0xFFFFFFFF#32 = op.setWidth 32 ↔
      opField c = op ∧ rsvField c = 0 ∧ c.extractLsb' 4 28 = 0#28 := by
  rw [show (0xFFFFFFFF#32 : Word) = BitVec.allOnes 32 from rfl, BitVec.and_allOnes,
    setWidth_eq_assemble]
  constructor
  · rintro rfl
    have hz := (above_op_eq_zero_iff (assemble 0 0 0 0 op)).mpr (by rw [opField_assemble])
    exact ⟨opField_assemble .., rsvField_assemble .., hz⟩
  · rintro ⟨rfl, -, hz⟩
    exact (above_op_eq_zero_iff c).mp hz

/-! ### The legal words -/

/-- The conditions of R118, none of which a legal word breaks. -/
def WordLegal (c : Word) : Prop :=
  (opField c).toNat ∉ [0x0, 0x7, 0xB, 0xC, 0xD, 0xE, 0xF] ∧
  rsvField c = 0 ∧
  ((opField c).toNat ∈ [1, 2, 3, 4] → widthLegal (widthField c) = true) ∧
  ((opField c).toNat ∈ [3, 4] → bitOffField c = 0 ∧ highField c = 0) ∧
  ((opField c).toNat = 5 → bufField c = .rd ∧ widthField c = 0 ∧ bitOffField c = 0) ∧
  ((opField c).toNat ∈ [6, 8, 9, 10] → c.extractLsb' 4 28 = 0#28)

theorem decodeFormatC_eq_ok_iff (mk : Buf → BitVec 6 → BitVec 3 → BitVec 16 → Instr) (c : Word)
    (i : Instr) :
    decodeFormatC mk c = .ok i ↔
      (rsvField c = 0 ∧ widthLegal (widthField c) = true) ∧
        mk (bufField c) (widthField c) (bitOffField c) (highField c) = i := by
  unfold decodeFormatC
  split_ifs <;> simp_all

theorem decodeFormatK_eq_ok_iff (mk : Buf → BitVec 6 → Instr) (c : Word) (i : Instr) :
    decodeFormatK mk c = .ok i ↔
      (rsvField c = 0 ∧ widthLegal (widthField c) = true ∧ bitOffField c = 0 ∧ highField c = 0) ∧
        mk (bufField c) (widthField c) = i := by
  unfold decodeFormatK
  split_ifs <;> simp_all
  tauto

theorem decodeFormatS_eq_ok_iff (mk : BitVec 16 → Instr) (c : Word) (i : Instr) :
    decodeFormatS mk c = .ok i ↔
      (rsvField c = 0 ∧ bufField c = .rd ∧ widthField c = 0 ∧ bitOffField c = 0) ∧
        mk (highField c) = i := by
  unfold decodeFormatS
  split_ifs <;> simp_all
  tauto

theorem decodeFormatZ_eq_ok_iff (j : Instr) (c : Word) (i : Instr) :
    decodeFormatZ j c = .ok i ↔ (rsvField c = 0 ∧ c.extractLsb' 4 28 = 0#28) ∧ j = i := by
  rw [above_op_eq_zero_iff_fields]
  unfold decodeFormatZ
  split_ifs <;> simp_all
  tauto

/-- A word decodes exactly when it breaks none of the conditions of R118. -/
theorem exists_decode_iff (c : Word) : (∃ i, decode c = .ok i) ↔ WordLegal c := by
  unfold decode WordLegal
  split
  case h_1 hop => simp [hop, decodeFormatC_eq_ok_iff]
  case h_2 hop => simp [hop, decodeFormatC_eq_ok_iff]
  case h_3 hop => simp [hop, decodeFormatK_eq_ok_iff]
  case h_4 hop => simp [hop, decodeFormatK_eq_ok_iff]
  case h_5 hop => simp [hop, decodeFormatS_eq_ok_iff]
  case h_6 hop => simp [hop, decodeFormatZ_eq_ok_iff]
  case h_7 hop => simp [hop, decodeFormatZ_eq_ok_iff]
  case h_8 hop => simp [hop, decodeFormatZ_eq_ok_iff]
  case h_9 hop => simp [hop, decodeFormatZ_eq_ok_iff]
  case h_10 =>
    have hun : (opField c).toNat ∈ [0x0, 0x7, 0xB, 0xC, 0xD, 0xE, 0xF] := by
      have hlt := (opField c).isLt
      simp only [imp_false, List.mem_cons, List.not_mem_nil, or_false] at *
      omega
    exact ⟨fun ⟨_, h⟩ => (nomatch h), fun h => absurd hun h.1⟩

/-! ### The rows of the opcode map -/

theorem opField_setWidth (op : BitVec 4) : opField (op.setWidth 32) = op := by
  rw [setWidth_eq_assemble, opField_assemble]

/-- A row of format C (R112) selects the legal words of its OP. -/
theorem selectsC_iff (name : String) (op : BitVec 4) (hop : op.toNat ∈ [1, 2]) (c : Word) :
    OpcodeRow.selects ⟨name, op.setWidth 32, 0x0000C00F#32, true⟩ c = true ↔
      opField c = opField (op.setWidth 32) ∧ WordLegal c := by
  rw [opField_setWidth]
  simp only [OpcodeRow.selects, Bool.and_eq_true, decide_eq_true_eq, and_maskC_iff, and_assoc]
  refine and_congr_right ?_
  rintro rfl
  simp only [List.mem_cons, List.not_mem_nil, or_false] at hop
  rcases hop with h | h <;> simp [WordLegal, h]

/-- A row of format K (R113) selects the legal words of its OP. -/
theorem selectsK_iff (name : String) (op : BitVec 4) (hop : op.toNat ∈ [3, 4]) (c : Word) :
    OpcodeRow.selects ⟨name, op.setWidth 32, 0xFFFFF80F#32, true⟩ c = true ↔
      opField c = opField (op.setWidth 32) ∧ WordLegal c := by
  rw [opField_setWidth]
  simp only [OpcodeRow.selects, Bool.and_eq_true, decide_eq_true_eq, and_maskK_iff, and_assoc]
  refine and_congr_right ?_
  rintro rfl
  simp only [List.mem_cons, List.not_mem_nil, or_false] at hop
  rcases hop with h | h <;> simp [WordLegal, h] <;> tauto

/-- A row of format S (R114) selects the legal words of its OP. -/
theorem selectsS_iff (name : String) (op : BitVec 4) (hop : op.toNat = 5) (c : Word) :
    OpcodeRow.selects ⟨name, op.setWidth 32, 0x0000FFFF#32, false⟩ c = true ↔
      opField c = opField (op.setWidth 32) ∧ WordLegal c := by
  rw [opField_setWidth]
  simp only [OpcodeRow.selects, Bool.and_eq_true, decide_eq_true_eq, and_maskS_iff, and_assoc]
  refine and_congr_right ?_
  rintro rfl
  simp [WordLegal, hop]

/-- A row of format Z (R115) selects the legal words of its OP. -/
theorem selectsZ_iff (name : String) (op : BitVec 4) (hop : op.toNat ∈ [6, 8, 9, 10]) (c : Word) :
    OpcodeRow.selects ⟨name, op.setWidth 32, 0xFFFFFFFF#32, false⟩ c = true ↔
      opField c = opField (op.setWidth 32) ∧ WordLegal c := by
  rw [opField_setWidth]
  simp only [OpcodeRow.selects, Bool.and_eq_true, decide_eq_true_eq, and_maskZ_iff, and_assoc]
  refine and_congr_right ?_
  rintro rfl
  simp only [List.mem_cons, List.not_mem_nil, or_false] at hop
  rcases hop with h | h | h | h <;> simp [WordLegal, h]

/-- A row selects exactly the legal words of its OP (R117). -/
theorem selects_iff {r : OpcodeRow} (hr : r ∈ opcodeRows) (c : Word) :
    r.selects c = true ↔ opField c = opField r.pattern ∧ WordLegal c := by
  simp only [opcodeRows, List.mem_cons, List.not_mem_nil, or_false] at hr
  rcases hr with rfl | rfl | rfl | rfl | rfl | rfl | rfl | rfl | rfl
  · exact selectsC_iff "RDB" 1 (by decide) c
  · exact selectsC_iff "WRB" 2 (by decide) c
  · exact selectsK_iff "RDC" 3 (by decide) c
  · exact selectsK_iff "WRC" 4 (by decide) c
  · exact selectsS_iff "SKIP" 5 (by decide) c
  · exact selectsZ_iff "SETSZ" 6 (by decide) c
  · exact selectsZ_iff "COMPILE" 8 (by decide) c
  · exact selectsZ_iff "PACK" 9 (by decide) c
  · exact selectsZ_iff "UNPACK" 10 (by decide) c

/-- No two rows have one OP. -/
theorem row_eq_of_opField_eq {r r' : OpcodeRow} (hr : r ∈ opcodeRows) (hr' : r' ∈ opcodeRows)
    (h : opField r.pattern = opField r'.pattern) : r = r' := by
  have hall : ∀ a ∈ opcodeRows, ∀ b ∈ opcodeRows, opField a.pattern = opField b.pattern → a = b := by
    decide
  exact hall r hr r' hr' h

/-- The row of a decoded command: its OP is the word's and its mnemonic the command's. -/
theorem exists_row_of_decode {c : Word} {i : Instr} (h : decode c = .ok i) :
    ∃ r ∈ opcodeRows, opField c = opField r.pattern ∧ r.mnemonic = i.mnemonic := by
  unfold decode at h
  split at h
  case h_1 hop =>
    obtain ⟨_, rfl⟩ := (decodeFormatC_eq_ok_iff ..).mp h
    exact ⟨opcodeRows[0], List.getElem_mem _, BitVec.eq_of_toNat_eq hop, rfl⟩
  case h_2 hop =>
    obtain ⟨_, rfl⟩ := (decodeFormatC_eq_ok_iff ..).mp h
    exact ⟨opcodeRows[1], List.getElem_mem _, BitVec.eq_of_toNat_eq hop, rfl⟩
  case h_3 hop =>
    obtain ⟨_, rfl⟩ := (decodeFormatK_eq_ok_iff ..).mp h
    exact ⟨opcodeRows[2], List.getElem_mem _, BitVec.eq_of_toNat_eq hop, rfl⟩
  case h_4 hop =>
    obtain ⟨_, rfl⟩ := (decodeFormatK_eq_ok_iff ..).mp h
    exact ⟨opcodeRows[3], List.getElem_mem _, BitVec.eq_of_toNat_eq hop, rfl⟩
  case h_5 hop =>
    obtain ⟨_, rfl⟩ := (decodeFormatS_eq_ok_iff ..).mp h
    exact ⟨opcodeRows[4], List.getElem_mem _, BitVec.eq_of_toNat_eq hop, rfl⟩
  case h_6 hop =>
    obtain ⟨_, rfl⟩ := (decodeFormatZ_eq_ok_iff ..).mp h
    exact ⟨opcodeRows[5], List.getElem_mem _, BitVec.eq_of_toNat_eq hop, rfl⟩
  case h_7 hop =>
    obtain ⟨_, rfl⟩ := (decodeFormatZ_eq_ok_iff ..).mp h
    exact ⟨opcodeRows[6], List.getElem_mem _, BitVec.eq_of_toNat_eq hop, rfl⟩
  case h_8 hop =>
    obtain ⟨_, rfl⟩ := (decodeFormatZ_eq_ok_iff ..).mp h
    exact ⟨opcodeRows[7], List.getElem_mem _, BitVec.eq_of_toNat_eq hop, rfl⟩
  case h_9 hop =>
    obtain ⟨_, rfl⟩ := (decodeFormatZ_eq_ok_iff ..).mp h
    exact ⟨opcodeRows[8], List.getElem_mem _, BitVec.eq_of_toNat_eq hop, rfl⟩
  case h_10 => cases h

/-- A word decodes exactly when a row of the opcode map selects it (R118). -/
theorem exists_decode_iff_exists_row (c : Word) :
    (∃ i, decode c = .ok i) ↔ ∃ r ∈ opcodeRows, r.selects c = true := by
  constructor
  · rintro ⟨i, hi⟩
    obtain ⟨r, hr, hop, -⟩ := exists_row_of_decode hi
    exact ⟨r, hr, (selects_iff hr c).mpr ⟨hop, (exists_decode_iff c).mp ⟨i, hi⟩⟩⟩
  · rintro ⟨r, hr, hsel⟩
    exact (exists_decode_iff c).mpr ((selects_iff hr c).mp hsel).2

/-- A row that selects a word has the mnemonic of the command the word decodes to. -/
theorem mnemonic_of_selects {c : Word} {i : Instr} {r : OpcodeRow} (hi : decode c = .ok i)
    (hr : r ∈ opcodeRows) (hsel : r.selects c = true) : r.mnemonic = i.mnemonic := by
  obtain ⟨r', hr', hop', hname⟩ := exists_row_of_decode hi
  have hop := ((selects_iff hr c).mp hsel).1
  rw [row_eq_of_opField_eq hr hr' (hop.symm.trans hop'), hname]

/-! ### The statements -/

/-- Settles O4: both sides are the legal words (`WordLegal`), by the decoder's formats and by the rows'
masks. -/
theorem legalWordsAreTheRowsOfTheOpcodeMap : Obligations.LegalWordsAreTheRowsOfTheOpcodeMap := by
  unfold Obligations.LegalWordsAreTheRowsOfTheOpcodeMap
  intro c
  refine ⟨exists_decode_iff_exists_row c, fun i hi r hr hsel => mnemonic_of_selects hi hr hsel, ?_⟩
  have hbuf : bufField c = .rd ↔ ¬ c.getLsbD 4 = true := by simp [bufField]
  have hwidth : widthLegal (widthField c) = true ↔ ¬ 33 ≤ (widthField c).toNat := by
    simp [widthLegal, Nat.lt_succ_iff]
  rw [← not_exists, exists_decode_iff]
  simp only [WordLegal, hbuf, hwidth, not_and_or, not_not, Classical.not_imp]
  exact Iff.rfl

/-- Settles O1: both directions are evaluated for each word of R129, and WIDTH 33 is refused. -/
theorem workedEncodingsDecodeAndEncode : Obligations.WorkedEncodingsDecodeAndEncode := by
  unfold Obligations.WorkedEncodingsDecodeAndEncode
  refine ⟨by decide, fun i hi => ?_⟩
  have hwidth : ¬ WordLegal 0x00000421#32 := by
    unfold WordLegal
    decide
  exact hwidth ((exists_decode_iff _).mp ⟨i, hi⟩)

end Sys2Proof
end

section
/-! The common prologue of 30_encoding.md R126 (O6) and R119's report of an illegal word (O7): the
ENGINE's turn with BUSY = 1, branch by branch. -/

namespace Sys2Proof.Machine

/-- With BUSY = 1 and the ENGINE's turn scheduled next, the step executes PENDING. -/
theorem step_of_busy_engine {s : State} {rest : List Event} (hb : s.busy = true)
    (hs : s.sched = .engine :: rest) : step s = execute s.pending { s with sched := rest } := by
  simp [step, nextEvent, hs, runEvent, engineTurn, hb]

/-- With FATAL = 1 a command is ignored. -/
theorem execute_of_fatal {s : State} (hf : s.fatal = true) (c : Word) :
    execute c s = .next s.idle := by
  simp [execute, hf]

/-- With FATAL = 0 an illegal word ends with IllegalCommand and the word (R119). -/
theorem execute_of_illegal {s : State} {c : Word} (hf : s.fatal = false)
    (hd : ∀ i, decode c ≠ .ok i) : execute c s = .next (s.fail ⟨.illegalCommand, c⟩).idle := by
  cases h : decode c with
  | error e => simp [execute, hf, h]
  | ok i => exact absurd h (hd i)

/-- With FATAL = 0 a legal word runs its command. -/
theorem execute_of_legal {s : State} {c : Word} {i : Instr} (hf : s.fatal = false)
    (hd : decode c = .ok i) : execute c s = endCommand (exec i s) := by
  simp [execute, hf, hd]

/-- The step that executes an illegal PENDING, field by field. -/
theorem step_of_illegal {s : State} {rest : List Event} (hb : s.busy = true) (hf : s.fatal = false)
    (hs : s.sched = .engine :: rest) (hd : ∀ i, decode s.pending ≠ .ok i) :
    step s = .next { s with
      sched := rest, busy := false, errcode := 0x09#8, errinfo := s.pending } := by
  rw [step_of_busy_engine hb hs, execute_of_illegal (s := { s with sched := rest }) hf hd]
  rfl

/-- Settles O6, one branch of the prologue at a time. -/
theorem prologueChecksFatalThenLegality : Obligations.PrologueChecksFatalThenLegality := by
  unfold Obligations.PrologueChecksFatalThenLegality
  intro s rest hb hs
  refine ⟨fun hf => ?_, fun hf hd => step_of_illegal hb hf hs hd, fun i t hf hd hx => ?_⟩
  · rw [step_of_busy_engine hb hs, execute_of_fatal (s := { s with sched := rest }) hf]
    rfl
  · rw [step_of_busy_engine hb hs, execute_of_legal (s := { s with sched := rest }) hf hd, hx]
    rfl

/-- Settles O7: a word no row selects does not decode (O4's first clause), so the step reports it. -/
theorem wordOutsideTheOpcodeMapIsReported : Obligations.WordOutsideTheOpcodeMapIsReported := by
  unfold Obligations.WordOutsideTheOpcodeMapIsReported
  intro s rest hb hf hs hrows
  refine step_of_illegal hb hf hs fun i hi => ?_
  obtain ⟨r, hr, hsel⟩ := (exists_decode_iff_exists_row s.pending).mp ⟨i, hi⟩
  simp [hrows r hr] at hsel

end Sys2Proof.Machine
end

section
/-! The codec commands (40_codec.md): fields after a field write, the buffers after a codec access, and
the two outcomes of an access for all four commands (O14, O15, O17, O18, O19). -/

namespace Sys2Proof.Machine

/-! ### A field after a field write -/

/-- A field read back where it was written is the value cut to its width (R160). -/
theorem fieldRead_fieldWrite_same {n : Nat} {m : Memory} (h : Memory.wf m) (p : Nat) (v : BitVec n)
    (w : Nat) : fieldRead (fieldWrite m p v w) p w = v.setWidth w := by
  apply BitVec.eq_of_getLsbD_eq
  intro i hi
  rw [getLsbD_fieldRead, bitAt_fieldWrite h, if_pos (by omega), Nat.add_sub_cancel_left,
    BitVec.getLsbD_setWidth]

/-- A field that shares no bit with the written one reads as before (R161). -/
theorem fieldRead_fieldWrite_of_disjoint {n : Nat} {m : Memory} (h : Memory.wf m) {p w q u : Nat}
    (v : BitVec n) (hd : q + u ≤ p ∨ p + w ≤ q) :
    fieldRead (fieldWrite m p v w) q u = fieldRead m q u := by
  apply fieldRead_congr
  intro i hi
  rw [bitAt_fieldWrite h, if_neg (by omega)]

/-- mask(w) of 00_scope.md R11 keeps the low `w` bits. -/
theorem setWidth_setWidth_eq_and_mask (v : Word) (w : Nat) :
    (v.setWidth w).setWidth 32 = v &&& BitVec.ofNat 32 (2 ^ w - 1) := by
  apply BitVec.eq_of_getLsbD_eq
  intro i hi
  rw [BitVec.getLsbD_and, BitVec.getLsbD_ofNat, Nat.testBit_two_pow_sub_one,
    BitVec.getLsbD_setWidth, BitVec.getLsbD_setWidth]
  simp only [hi, decide_true, Bool.true_and, Bool.and_comm]

/-! ### The buffers after a codec access -/

@[simp] theorem mem_codecRead (buf b : Buf) (p w : Nat) (s : State) :
    (codecRead buf p w s).mem b = s.mem b := by
  obtain ⟨c, r, e, i, h⟩ := codecRead_frame buf p w s
  rw [h]
  cases b <;> rfl

theorem mem_codecWrite_of_ne {buf b : Buf} (hb : b ≠ buf) (p w : Nat) (s : State) :
    (codecWrite buf p w s).mem b = s.mem b := by
  obtain ⟨m, c, e, i, h⟩ := codecWrite_frame buf p w s
  rw [h, mem_withMem_of_ne hb]
  cases b <;> rfl

theorem mem_codecWrite_of_fits {s : State} {buf : Buf} {p w : Nat} (h : p + w ≤ 8 * s.size buf) :
    (codecWrite buf p w s).mem buf = fieldWrite (s.mem buf) p s.arg w := by
  rw [codecWrite_of_fits h, mem_withMem]

@[simp] theorem size_codecWrite (buf b : Buf) (p w : Nat) (s : State) :
    (codecWrite buf p w s).size b = s.size b := by
  obtain ⟨m, c, e, i, h⟩ := codecWrite_frame buf p w s
  rw [h]
  cases b <;> simp

/-- ARG is no part of a buffer. -/
theorem mem_with_arg (s : State) (a : Word) (b : Buf) : { s with arg := a }.mem b = s.mem b := by
  cases b <;> rfl

/-- A codec write that leaves ERRCODE = 0 wrote ARG into its field and kept the other buffer. -/
theorem mem_of_successful_write {s t : State} {i : Instr} {buf : Buf} {p w : Nat}
    (hf : writtenField i s = some (buf, p, w)) (hx : exec i s = .next t) (hok : t.errcode = 0) :
    t.mem buf = fieldWrite (s.mem buf) p s.arg w ∧ ∀ b, b ≠ buf → t.mem b = s.mem b := by
  rw [exec_of_writtenField hf] at hx
  obtain rfl := Host.Outcome.next.inj hx
  exact ⟨mem_codecWrite_of_fits (codecWrite_fits hok), fun b hb => mem_codecWrite_of_ne hb p w s⟩

/-! ### The two outcomes of a codec access -/

/-- In `s` the command `i` reads or writes the field (p, w) of `buf`. -/
def CodecAccess (i : Instr) (s : State) (buf : Buf) (p w : Nat) : Prop :=
  exec i s = .next (codecRead buf p w s) ∨ exec i s = .next (codecWrite buf p w s)

/-- RDB and WRB access the field at their own position (R143, R146). -/
theorem codecAccess_of_positional {i : Instr} {buf : Buf} {width : BitVec 6} {bitOff : BitVec 3}
    {byteOff : BitVec 16} (s : State)
    (h : i ∈ [Instr.rdb buf width bitOff byteOff, .wrb buf width bitOff byteOff]) :
    CodecAccess i s buf (8 * byteOff.toNat + bitOff.toNat) width.toNat := by
  simp only [List.mem_cons, List.not_mem_nil, or_false] at h
  rcases h with rfl | rfl
  · exact .inl rfl
  · exact .inr rfl

/-- RDC and WRC access the field at CURSOR (R150, R153). -/
theorem codecAccess_of_cursor {i : Instr} {buf : Buf} {width : BitVec 6} (s : State)
    (h : i ∈ [Instr.rdc buf width, .wrc buf width]) :
    CodecAccess i s buf s.cursor.toNat width.toNat := by
  simp only [List.mem_cons, List.not_mem_nil, or_false] at h
  rcases h with rfl | rfl
  · exact .inl rfl
  · exact .inr rfl

section
variable {i : Instr} {s t : State} {buf : Buf} {p w : Nat}

/-- Out of bounds an access reports OutOfBounds(p) and does nothing else (R141). -/
theorem CodecAccess.exec_of_overrun (h : CodecAccess i s buf p w) (ho : 8 * s.size buf < p + w) :
    exec i s = .next { s with errcode := 0x01#8, errinfo := BitVec.ofNat 32 p } := by
  rcases h with h | h
  · rw [h, codecRead_of_overrun ho]
    rfl
  · rw [h, codecWrite_of_overrun ho]
    rfl

/-- In bounds an access succeeds and puts CURSOR past the field (R142). -/
theorem CodecAccess.exec_of_fits (h : CodecAccess i s buf p w) (hf : p + w ≤ 8 * s.size buf) :
    ∃ t, exec i s = .next t ∧ t.errcode = 0 ∧ t.cursor = BitVec.ofNat 32 (p + w) := by
  rcases h with h | h
  · exact ⟨_, h, by simp [codecRead_of_fits hf], by simp [codecRead_of_fits hf]⟩
  · exact ⟨_, h, by simp [codecWrite_of_fits hf], by simp [codecWrite_of_fits hf]⟩

/-- An access that leaves ERRCODE = 0 was in bounds. -/
theorem CodecAccess.fits (h : CodecAccess i s buf p w) (hx : exec i s = .next t)
    (hok : t.errcode = 0) : p + w ≤ 8 * s.size buf := by
  by_contra hn
  rw [h.exec_of_overrun (by omega)] at hx
  obtain rfl := Host.Outcome.next.inj hx
  simp at hok

/-- CURSOR after a successful access, as a natural number: a position inside a buffer is below 2^32, so
the sum of R142 does not wrap. -/
theorem CodecAccess.cursor_toNat (h : CodecAccess i s buf p w) (hx : exec i s = .next t)
    (hok : t.errcode = 0) : t.cursor.toNat = p + w := by
  have hf := h.fits hx hok
  obtain ⟨t', hx', -, hc⟩ := h.exec_of_fits hf
  obtain rfl := Host.Outcome.next.inj (hx.symm.trans hx')
  have hsize := size_lt s buf
  rw [hc, BitVec.toNat_ofNat]
  exact Nat.mod_eq_of_lt (by omega)

end

/-! ### The statements -/

/-- Settles O15: all four commands make a codec access, whose CURSOR `CodecAccess.cursor_toNat` gives. -/
theorem successfulAccessMovesTheCursorPastTheField :
    Obligations.SuccessfulAccessMovesTheCursorPastTheField := by
  unfold Obligations.SuccessfulAccessMovesTheCursorPastTheField
  constructor
  · intro s t buf width bitOff byteOff i hi hx hok
    exact (codecAccess_of_positional s hi).cursor_toNat hx hok
  · intro s t buf width i hi hx hok
    exact (codecAccess_of_cursor s hi).cursor_toNat hx hok

/-- Settles O17: the read finds the field write in the buffer, and cutting ARG to the width and extending
it again is the mask. -/
theorem writeThenReadReturnsTheMaskedValue : Obligations.WriteThenReadReturnsTheMaskedValue := by
  unfold Obligations.WriteThenReadReturnsTheMaskedValue
  intro s t u buf width bitOff byteOff hwf _ hfits hx hmem hsize
  replace hfits : codecPos bitOff byteOff + width.toNat ≤ 8 * s.size buf := hfits
  obtain rfl : codecWrite buf (codecPos bitOff byteOff) width.toNat s = t :=
    Host.Outcome.next.inj hx
  rw [mem_codecWrite_of_fits hfits] at hmem
  rw [size_codecWrite] at hsize
  have hread := codecRead_of_fits (s := u) (hsize ▸ hfits)
  refine ⟨_, congrArg Host.Outcome.next hread, rfl, ?_⟩
  calc (fieldRead (u.mem buf) (codecPos bitOff byteOff) width.toNat).setWidth 32
    _ = (s.arg.setWidth width.toNat).setWidth 32 := by rw [hmem, fieldRead_fieldWrite_same hwf]
    _ = s.arg &&& BitVec.ofNat 32 (2 ^ width.toNat - 1) := setWidth_setWidth_eq_and_mask ..

/-- Settles O18: a write changes the bits of its field only, in its buffer only; a read changes no
buffer. -/
theorem codecWritesKeepDisjointFields : Obligations.CodecWritesKeepDisjointFields := by
  unfold Obligations.CodecWritesKeepDisjointFields
  constructor
  · intro s t i buf p w hf hwf hx hok
    obtain ⟨hmem, hother⟩ := mem_of_successful_write hf hx hok
    refine ⟨fun q u hd => ?_, hother⟩
    rw [hmem, fieldRead_fieldWrite_of_disjoint hwf _ hd]
  · intro s t buf width bitOff byteOff i hi hx b
    simp only [List.mem_cons, List.not_mem_nil, or_false] at hi
    rcases hi with rfl | rfl <;> exact Host.Outcome.next.inj hx ▸ mem_codecRead ..

/-- Settles O19: the buffer at the end is the second field write over one that the first left in
canonical form, so its own bits stand. -/
theorem laterWriteWinsOnTheOverlap : Obligations.LaterWriteWinsOnTheOverlap := by
  unfold Obligations.LaterWriteWinsOnTheOverlap
  intro s t u i j buf p w q v arg hf hwf hx hok hf' hx' hok' k _ _ hqk hkv
  obtain ⟨hmem, -⟩ := mem_of_successful_write hf hx hok
  obtain ⟨hmem', -⟩ := mem_of_successful_write hf' hx' hok'
  have hwf' : Memory.wf (t.mem buf) := hmem ▸ fieldWrite_wf hwf p s.arg w
  rw [hmem', mem_with_arg, bitAt_fieldWrite hwf', if_pos ⟨hqk, hkv⟩]

/-- Settles O14, one outcome of a codec access at a time; for RDC and WRC the position is CURSOR
itself. -/
theorem outOfBoundsAccessOnlyReports : Obligations.OutOfBoundsAccessOnlyReports := by
  unfold Obligations.OutOfBoundsAccessOnlyReports
  constructor
  · intro s buf width bitOff byteOff i hi
    have hacc := codecAccess_of_positional s hi
    refine ⟨hacc.exec_of_overrun, fun hf => ?_⟩
    obtain ⟨t, hx, hok, -⟩ := hacc.exec_of_fits hf
    exact ⟨t, hx, hok⟩
  · intro s buf width i hi
    have hacc := codecAccess_of_cursor s hi
    refine ⟨fun ho => ?_, fun hf => ?_⟩
    · rw [hacc.exec_of_overrun ho, BitVec.ofNat_toNat, BitVec.setWidth_eq]
    · obtain ⟨t, hx, hok, -⟩ := hacc.exec_of_fits hf
      exact ⟨t, hx, hok⟩

end Sys2Proof.Machine
end

section
/-! The registry checks of COMPILE (41_config_and_compile.md R190 to R192): the fields of table
entries and ValidDesc (O23), and the report of the first failing check (O24, O25). -/

namespace Sys2Proof.Machine

/-! ### Fields of table entries (10_state.md R56, R58, R59) -/

/-- A field between the fields above it and those below it. -/
theorem extractLsb'_append_mid {m n w : Nat} (hi : BitVec m) (x : BitVec w) (lo : BitVec n) :
    (hi ++ x ++ lo).extractLsb' n w = x := by
  rw [BitVec.extractLsb'_append_eq_of_le le_rfl, Nat.sub_self]
  exact BitVec.extractLsb'_append_eq_right

/-- A field above two others. -/
theorem extractLsb'_append_above_two {k m n w : Nat} (hi : BitVec k) (x : BitVec w) (y : BitVec m)
    (lo : BitVec n) : (hi ++ x ++ y ++ lo).extractLsb' (n + m) w = x := by
  rw [BitVec.extractLsb'_append_eq_of_le (Nat.le_add_right n m), Nat.add_sub_cancel_left]
  exact extractLsb'_append_mid hi x y

/-- The highest field of a word of three. -/
theorem extractLsb'_append_top {m n w : Nat} (x : BitVec w) (y : BitVec m) (lo : BitVec n) :
    (x ++ y ++ lo).extractLsb' (n + m) w = x := by
  rw [BitVec.extractLsb'_append_eq_of_le (Nat.le_add_right n m), Nat.add_sub_cancel_left]
  exact BitVec.extractLsb'_append_eq_left

/-- What the code of HOOK means (R56). -/
theorem descHook_of_code {e : TableEntry} {code : BitVec 2} (h : e.w1.extractLsb' 20 2 = code) :
    (code = 0 → e.descHook = .none) ∧ (code = 1 → e.descHook = .notifyOnGet) ∧
      (code = 2 → e.descHook = .notifyOnSet) ∧ (code = 3 → e.descHook = .validateOnSet) := by
  unfold TableEntry.descHook
  rw [h]
  refine ⟨?_, ?_, ?_, ?_⟩ <;> (rintro rfl; rfl)

/-- What the code of DIR means (R59). -/
theorem mapDir_of_code {e : TableEntry} {code : BitVec 2} (h : e.w1.extractLsb' 0 2 = code) :
    (code = 0 → e.mapDir = .dir .read) ∧ (code = 1 → e.mapDir = .dir .write) ∧
      (code = 2 → e.mapDir = .invalid) ∧ (code = 3 → e.mapDir = .endMarker) := by
  unfold TableEntry.mapDir
  rw [h]
  refine ⟨?_, ?_, ?_, ?_⟩ <;> (rintro rfl; rfl)

/-- STRUCT is bit 22 of a DESC entry's w1. -/
theorem getLsbD_struct (ignored : BitVec 9) (struct : Bool) (hook : BitVec 2) (acc : BitVec 4)
    (base : BitVec 16) :
    (ignored ++ BitVec.ofBool struct ++ hook ++ acc ++ base).getLsbD 22 = struct := by
  simp only [BitVec.getLsbD_append]
  simp

/-! ### ValidDesc -/

/-- A valid member has a defined TYPE and NSUB at least 1 (R192 c). -/
theorem validMember_iff (s : State) (m : Nat) :
    s.validMember m = true ↔
      elemType (s.entry .memb m).membType ≠ none ∧ 1 ≤ (s.entry .memb m).membNsub.toNat := by
  rw [State.validMember, Bool.and_eq_true, decide_eq_true_eq, Option.isSome_iff_ne_none]

/-- A scalar descriptor is valid iff conditions (a) and (b) of R192 hold. -/
theorem validDesc_iff_of_scalar {s : State} {i : Nat} (h : (s.entry .desc i).descStruct = false) :
    s.validDesc i = true ↔
      (s.entry .desc i).descInst ≠ 0 ∧ elemType (s.entry .desc i).descType ≠ none := by
  simp [State.validDesc, h, Option.isSome_iff_ne_none]

/-- A structured descriptor is valid iff conditions (a) and (c) of R192 hold. -/
theorem validDesc_iff_of_struct {s : State} {i : Nat} (h : (s.entry .desc i).descStruct = true) :
    s.validDesc i = true ↔
      (s.entry .desc i).descInst ≠ 0 ∧
      (s.entry .desc i).descBase.toNat + (s.entry .desc i).descNelem.toNat ≤ s.params.membMax ∧
      ∀ m, m < (s.entry .desc i).descNelem.toNat →
        elemType (s.entry .memb ((s.entry .desc i).descBase.toNat + m)).membType ≠ none ∧
        1 ≤ (s.entry .memb ((s.entry .desc i).descBase.toNat + m)).membNsub.toNat := by
  simp [State.validDesc, h, validMember_iff]

/-- Settles O23: ValidDesc by STRUCT, and each field by the part of its word that it is. -/
theorem validDescriptorConditions : Obligations.ValidDescriptorConditions := by
  unfold Obligations.ValidDescriptorConditions
  refine ⟨fun s i => ?_, ?_, ?_, ?_⟩
  · cases h : (s.entry .desc i).descStruct with
    | false => simp [validDesc_iff_of_scalar h]
    | true => simp [validDesc_iff_of_struct h]
  · rintro inst base type nelem acc hook struct ignored e rfl
    exact ⟨BitVec.extractLsb'_append_eq_right, extractLsb'_append_mid ..,
      extractLsb'_append_top .., BitVec.extractLsb'_append_eq_right, getLsbD_struct ..,
      descHook_of_code (extractLsb'_append_above_two ..)⟩
  · rintro type nsub mbitoff access ign0 slot ign1 e rfl
    exact ⟨BitVec.extractLsb'_append_eq_right, extractLsb'_append_mid ..,
      BitVec.extractLsb'_append_eq_right⟩
  · rintro inst count start dir ignored e rfl
    exact ⟨BitVec.extractLsb'_append_eq_right, extractLsb'_append_mid ..,
      extractLsb'_append_top .., mapDir_of_code (BitVec.extractLsb'_append_eq_right)⟩

/-! ### The first failing check -/

section
variable {s : State} {i n : Nat} {r : Report}

/-- What CheckRegistry reports, COMPILE reports, and it leaves no layout (R186, R223). -/
theorem exec_compile_of_registry_error (hl : s.layoutValid = false)
    (h : s.checkRegistry = .error r) :
    ∃ t, exec .compile s = .next t ∧ t.layoutValid = false ∧ t.errcode = r.error.code ∧
      t.errinfo = r.info := by
  have hplan : s.compilePlan = .error r := by rw [State.compilePlan, h]
  exact ⟨_, execCompile_of_error hl hplan, rfl, rfl, rfl⟩

/-- CheckRegistry reports the failing check of a descriptor in use if none before it fails one. -/
theorem checkRegistry_of_first_bad (hmax : s.descs ≤ s.params.descMax) (hi : i < s.descs)
    (hv : ∀ j, j < i → s.validDesc j = true)
    (ha : ∀ j, 0 < j → j < i → s.instAt (j - 1) < s.instAt j)
    (hbad : ∀ m, s.checkDescs (m + 1) i = .error r) : s.checkRegistry = .error r := by
  rw [State.checkRegistry, if_neg (by omega), if_neg (by omega)]
  exact checkDescs_of_bad (Nat.zero_le i) (by omega) (fun j _ hj => hv j hj)
    (fun j _ hj h0 => ha j h0 hj) hbad

theorem checkDescs_of_invalid (hv : s.validDesc i = false) :
    s.checkDescs (n + 1) i = .error (reportAt .invalidDescriptor i) := by
  rw [State.checkDescs, if_pos (by simp [hv])]

theorem checkDescs_of_duplicate (hv : s.validDesc i = true) (h0 : 0 < i)
    (h : s.instAt i = s.instAt (i - 1)) :
    s.checkDescs (n + 1) i = .error (reportAt .duplicateInstance i) := by
  rw [State.checkDescs, if_neg (by simp [hv]), if_pos ⟨h0, h⟩]

theorem checkDescs_of_unsorted (hv : s.validDesc i = true) (h0 : 0 < i)
    (h : s.instAt i < s.instAt (i - 1)) :
    s.checkDescs (n + 1) i = .error (reportAt .unsortedRegistry i) := by
  rw [State.checkDescs, if_neg (by simp [hv]), if_neg (by omega), if_pos ⟨h0, h⟩]

end

/-- Settles O24: the two counts CheckRegistry refuses before it looks at a descriptor. -/
theorem descriptorCountIsCheckedFirst : Obligations.DescriptorCountIsCheckedFirst := by
  unfold Obligations.DescriptorCountIsCheckedFirst
  intro s hl
  constructor
  · intro hmax
    have hreg : s.checkRegistry = .error (reportAt .invalidDescriptor s.descs) := if_pos hmax
    obtain ⟨t, hx, hlv, hcode, hinfo⟩ := exec_compile_of_registry_error hl hreg
    exact ⟨t, hx, hlv, hcode, hinfo.trans (BitVec.ofNat_toNat ..)⟩
  · intro hzero
    have hreg : s.checkRegistry = .error (reportAt .emptyRegistry 0) := by
      have hdescs : s.descs = 0 := hzero
      rw [State.checkRegistry, if_neg (by omega), if_pos hdescs]
    exact exec_compile_of_registry_error hl hreg

/-- Settles O25: the loop stops at the first failing descriptor, by the check that fails there; a
committed plan has passed CheckRegistry. -/
theorem firstBadDescriptorIsReported : Obligations.FirstBadDescriptorIsReported := by
  unfold Obligations.FirstBadDescriptorIsReported
  constructor
  · intro s i hl hmax hi hv ha
    have report : ∀ e, (∀ m, s.checkDescs (m + 1) i = .error (reportAt e i)) →
        ∃ t, exec .compile s = .next t ∧ t.layoutValid = false ∧ t.errcode = e.code ∧
          t.errinfo = BitVec.ofNat 32 i := fun e hbad =>
      exec_compile_of_registry_error hl (checkRegistry_of_first_bad hmax hi hv ha hbad)
    refine ⟨fun hbad => ?_, fun hvi h0 hdup => ?_, fun hvi h0 hlow => ?_⟩
    · exact report .invalidDescriptor fun _ => checkDescs_of_invalid hbad
    · exact report .duplicateInstance fun _ =>
        checkDescs_of_duplicate hvi h0 (congrArg BitVec.toNat hdup)
    · exact report .unsortedRegistry fun _ => checkDescs_of_unsorted hvi h0 hlow
  · intro s t hl hx hok i h0 hi
    rcases exec_compile_cases hx with ⟨hvalid, -⟩ | ⟨-, ⟨r, -, rfl⟩ | ⟨p, hplan, -⟩⟩
    · simp [hl] at hvalid
    · simp at hok
    · obtain ⟨-, -, hdesc⟩ := checkRegistry_ok (compilePlan_ok hplan).1
      exact (hdesc i hi).2 h0

end Sys2Proof.Machine
end

section
/-! What COMPILE reads (41_config_and_compile.md R224): two states that agree on its inputs compile
to the same plan (O33). -/

namespace Sys2Proof.Machine

/-- `s` and `u` agree on what COMPILE reads (R224): the tables, DESC_COUNT, both sizes and the
parameters. -/
structure SameCompileInputs (s u : State) : Prop where
  desc : s.desc = u.desc
  descCount : s.descCount = u.descCount
  memb : s.memb = u.memb
  map : s.map = u.map
  rdSize : s.rdSize = u.rdSize
  wrSize : s.wrSize = u.wrSize
  params : s.params = u.params

namespace SameCompileInputs

variable {s u : State}

/-! ### The registry -/

theorem entry_eq (h : SameCompileInputs s u) (t : Table) (i : Nat) : s.entry t i = u.entry t i := by
  cases t <;> simp only [State.entry, State.table, h.desc, h.memb, h.map]

theorem descs_eq (h : SameCompileInputs s u) : s.descs = u.descs := by
  rw [State.descs, State.descs, h.descCount]

theorem validDesc_eq (h : SameCompileInputs s u) (i : Nat) : s.validDesc i = u.validDesc i := by
  simp only [State.validDesc, State.validMember, h.entry_eq, h.params]

theorem instAt_eq (h : SameCompileInputs s u) (i : Nat) : s.instAt i = u.instAt i := by
  rw [State.instAt, State.instAt, h.entry_eq]

theorem checkDescs_eq (h : SameCompileInputs s u) (n i : Nat) :
    s.checkDescs n i = u.checkDescs n i := by
  induction n generalizing i with
  | zero => rfl
  | succ n ih =>
    rw [State.checkDescs, State.checkDescs, h.validDesc_eq, h.instAt_eq i, h.instAt_eq (i - 1), ih]

theorem checkRegistry_eq (h : SameCompileInputs s u) : s.checkRegistry = u.checkRegistry := by
  simp only [State.checkRegistry, h.descs_eq, h.params, h.checkDescs_eq]

theorem lookup_eq (h : SameCompileInputs s u) (id : BitVec 16) : s.lookup id = u.lookup id := by
  simp only [State.lookup, h.descs_eq, h.entry_eq]

/-! ### The map walk -/

theorem compilePad_eq (h : SameCompileInputs s u) (e : TableEntry) (d : Dir) (k : Nat) (p : Plan) :
    s.compilePad e d k p = u.compilePad e d k p := by
  simp only [State.compilePad, h.params]

theorem compileElem_eq (h : SameCompileInputs s u) (i k : Nat) (d : Dir) (id : BitVec 16) (el : Nat)
    (p : Plan) : s.compileElem i k d id el p = u.compileElem i k d id el p := by
  have hr : s.resolve i el = u.resolve i el := by simp only [State.resolve, h.entry_eq]
  simp only [State.compileElem, elemEntry, hr, h.entry_eq, h.params]

theorem compileElems_eq (h : SameCompileInputs s u) (i k : Nat) (d : Dir) (id : BitVec 16)
    (n el : Nat) (p : Plan) :
    s.compileElems i k d id n el p = u.compileElems i k d id n el p := by
  induction n generalizing el p with
  | zero => rfl
  | succ n ih => simp only [State.compileElems, h.compileElem_eq, ih]

theorem compileAdi_eq (h : SameCompileInputs s u) (e : TableEntry) (d : Dir) (k : Nat) (p : Plan) :
    s.compileAdi e d k p = u.compileAdi e d k p := by
  simp only [State.compileAdi, h.lookup_eq, h.entry_eq, h.compileElems_eq]

theorem walk_eq (h : SameCompileInputs s u) (n k : Nat) (p : Plan) :
    s.walk n k p = u.walk n k p := by
  induction n generalizing k p with
  | zero => simp only [State.walk, h.params]
  | succ n ih => simp only [State.walk, h.entry_eq, h.compilePad_eq, h.compileAdi_eq, ih]

/-! ### The plan and the layout -/

theorem compilePlan_eq (h : SameCompileInputs s u) : s.compilePlan = u.compilePlan := by
  simp only [State.compilePlan, State.finalChecks, h.checkRegistry_eq, h.walk_eq, h.rdSize,
    h.wrSize, h.params]

end SameCompileInputs

/-- A committed layout has the inputs it was compiled from. -/
theorem sameCompileInputs_commit (s : State) (p : Plan) : SameCompileInputs (s.commit p).ok s :=
  ⟨rfl, rfl, rfl, rfl, rfl, rfl, rfl⟩

/-- A successful SETSZ to the sizes in force keeps COMPILE's inputs and ends without a layout. -/
theorem setsz_same_sizes {t u : State}
    (hx : exec .setsz { t with arg := t.wrSize ++ t.rdSize } = .next u)
    (hok : u.errcode = 0) : u.layoutValid = false ∧ SameCompileInputs u t := by
  rcases exec_setsz_cases hx with rfl | ⟨-, -, rfl⟩
  · exact absurd hok (errorName_code_ne_zero .sizeTooLarge)
  · exact ⟨rfl, rfl, rfl, rfl, rfl, BitVec.extractLsb'_append_eq_right,
      BitVec.extractLsb'_append_eq_left, rfl⟩

/-- Settles O33: the plan is a function of the inputs, what COMPILE leaves is a function of the plan,
and SETSZ to the same sizes keeps the inputs. -/
theorem compileIsIdempotentAndReadsOnlyItsInputs :
    Obligations.CompileIsIdempotentAndReadsOnlyItsInputs := by
  unfold Obligations.CompileIsIdempotentAndReadsOnlyItsInputs
  refine ⟨fun s hl => ?_, ?_, ?_⟩
  · exact if_pos hl
  · intro s u hl hl' hdesc hcount hmemb hmap hrd hwr hparams
    have heq : s.compilePlan = u.compilePlan :=
      SameCompileInputs.compilePlan_eq ⟨hdesc, hcount, hmemb, hmap, hrd, hwr, hparams⟩
    cases hplan : s.compilePlan with
    | error r =>
      exact ⟨_, _, execCompile_of_error hl hplan, execCompile_of_error hl' (heq ▸ hplan),
        rfl, rfl, rfl, rfl, rfl, rfl, rfl, rfl⟩
    | ok p =>
      exact ⟨_, _, execCompile_of_ok hl hplan, execCompile_of_ok hl' (heq ▸ hplan),
        rfl, rfl, rfl, rfl, rfl, rfl, rfl, rfl⟩
  · intro s t u hl hx hvalid hsetsz hok
    obtain ⟨hl', hut⟩ := setsz_same_sizes hsetsz hok
    rcases exec_compile_cases hx with ⟨hs, -⟩ | ⟨-, ⟨r, -, rfl⟩ | ⟨p, hplan, rfl⟩⟩
    · simp [hl] at hs
    · simp at hvalid
    · have hu : u.compilePlan = .ok p := by
        rw [hut.compilePlan_eq, (sameCompileInputs_commit s p).compilePlan_eq, hplan]
      exact ⟨_, execCompile_of_ok hl' hu, rfl, rfl, rfl, rfl, rfl, rfl⟩

end Sys2Proof.Machine
end

section
/-! PACK and UNPACK (42_pack_unpack.md): one equation per outcome of each command (O34, O36, O38),
and over a good layout the items PACK writes (O37), the slots UNPACK stores (O39) and the events it
queues (O40). -/

namespace Sys2Proof.Machine

/-! ### The outcomes of PACK and UNPACK -/

theorem exec_pack_of_no_layout {s : State} (hl : s.layoutValid = false) :
    exec .pack s = .next (s.fail (reportAt .noLayout 0)) :=
  if_pos (by simp [hl])

theorem exec_unpack_of_no_layout {s : State} (hl : s.layoutValid = false) :
    exec .unpack s = .next (s.fail (reportAt .noLayout 0)) :=
  if_pos (by simp [hl])

theorem lacksRoom_eq_true_iff (s : State) :
    s.lacksRoom = true ↔ s.params.notifyDepth - s.nq.length < s.notifyNeed.toNat :=
  decide_eq_true_iff

theorem lacksRoom_eq_false_iff (s : State) :
    s.lacksRoom = false ↔ s.notifyNeed.toNat ≤ s.params.notifyDepth - s.nq.length := by
  rw [State.lacksRoom, decide_eq_false_iff_not, not_lt]

/-- A good layout is in force as a whole (10_state.md R44). -/
theorem activeLayout_eq {s : State} (hok : s.LayoutOk) : s.activeLayout = s.layout := by
  rw [State.activeLayout, ← hok.1, List.take_length]

section
variable {s : State} {n : Nat} (hl : s.layoutValid = true)
include hl

theorem exec_unpack_of_lacksRoom (hr : s.lacksRoom = true) :
    exec .unpack s = .next (s.fail (reportAt .notifyFull s.notifyNeed.toNat)) := by
  simp [exec, execUnpack, hl, hr]

theorem exec_unpack_of_overrun (hr : s.lacksRoom = false) (ho : s.overrun .read = some n) :
    exec .unpack s = .next (s.fatalFail (reportAt .outOfBounds n)) := by
  simp [exec, execUnpack, hl, hr, ho]

/-- Over a good layout PACK completes: no entry overruns (R254). -/
theorem exec_pack_of_layoutOk (hok : s.LayoutOk) :
    exec .pack s = .next ({ s with wrpd := packEntries s s.layout s.wrpd } : State).ok := by
  simp [exec, execPack, hl, overrun_eq_none hok, activeLayout_eq hok]

/-- Over a good layout with room UNPACK completes: no entry overruns (R254). -/
theorem exec_unpack_of_layoutOk (hok : s.LayoutOk) (hr : s.lacksRoom = false) :
    exec .unpack s = .next ({ s with
      vs := unpackEntries s.rdpd s.layout s.vs
      nq := s.nq ++ layoutEvents s.layout } : State).ok := by
  simp [exec, execUnpack, hl, hr, overrun_eq_none hok, activeLayout_eq hok]

end

/-- The bounds check of either direction answers the first data entry that ends past the buffer
(R242, R250). -/
theorem overrun_eq_some {s : State} {d : Dir} {n : Nat} {e : LayoutEntry}
    (he : s.activeLayout[n]? = some e) (hd : e.dir = d) (hk : e.kind = .data)
    (hend : 8 * s.size d.buf < e.endPos)
    (hmin : ∀ (k : Nat) (f : LayoutEntry), k < n → s.activeLayout[k]? = some f →
      f.dir = d → f.kind = .data → f.endPos ≤ 8 * s.size d.buf) :
    s.overrun d = some n := by
  have hfirst := firstOverrun_eq_some d (8 * s.size d.buf) 0 s.activeLayout n e he
    ((copies_iff e d).mpr ⟨hd, hk⟩) hend fun k f hkn hf hc =>
      hmin k f hkn hf ((copies_iff f d).mp hc).1 ((copies_iff f d).mp hc).2
  rwa [Nat.zero_add] at hfirst

/-- Settles O36: the bounds check finds the entry, and UNPACK writes the fatal report only. -/
theorem unpackStopsFatallyAtTheFirstOverrun : Obligations.UnpackStopsFatallyAtTheFirstOverrun := by
  unfold Obligations.UnpackStopsFatallyAtTheFirstOverrun
  intro s n e hl hroom he hd hk hend hmin
  exact exec_unpack_of_overrun hl ((lacksRoom_eq_false_iff s).mpr hroom)
    (overrun_eq_some he hd hk hend hmin)

/-! ### The entries of a good layout -/

/-- The items of a data entry of a good layout lie end to end, their slots inside VS (R225 d). -/
theorem data_entry_ranges {s : State} (hok : s.LayoutOk) {e : LayoutEntry} (he : e ∈ s.layout)
    (hk : e.kind = .data) :
    e.stride.toNat = e.width.toNat ∧ 1 ≤ e.width.toNat ∧
      e.slot.toNat + e.span.toNat ≤ s.params.vsSlots := by
  obtain ⟨-, -, -, -, -, -, hranges, -⟩ := hok
  have hr := hranges e he
  simp only [entryRanges, hk, Bool.and_eq_true, decide_eq_true_eq] at hr
  obtain ⟨-, ⟨⟨⟨hwidth, -⟩, hstride⟩, -⟩, hslot⟩ := hr
  exact ⟨hstride, hwidth, hslot⟩

/-- An entry's items, one after the other, fill its extent. -/
theorem covers_itemPos_add {e : LayoutEntry} (hw : e.stride.toNat = e.width.toNat) {i j : Nat}
    (hi : i < e.span.toNat) (hj : j < e.width.toNat) : e.covers (e.itemPos i + j) := by
  have hle : (i + 1) * e.width.toNat ≤ e.span.toNat * e.width.toNat := Nat.mul_le_mul_right _ hi
  rw [Nat.succ_mul] at hle
  rw [LayoutEntry.covers, LayoutEntry.endPos, LayoutEntry.extent, LayoutEntry.itemPos, hw,
    Nat.mul_comm e.width.toNat]
  omega

/-! ### What PACK writes -/

/-- After PACK each item of a write-direction data entry is in its field (R246). -/
theorem fieldRead_packEntries {s : State} {es : List LayoutEntry} {m : Memory} {p b : Nat}
    (h : Memory.wf m) (ht : tiles .write p es b = true)
    (hw : ∀ e ∈ es, e.copies .write = true → e.stride.toNat = e.width.toNat ∧ 1 ≤ e.width.toNat)
    {e : LayoutEntry} (he : e ∈ es) (hc : e.copies .write = true) {i : Nat}
    (hi : i < e.span.toNat) :
    fieldRead (packEntries s es m) (e.itemPos i) e.width.toNat =
      (s.vsSlot (e.slot.toNat + i)).setWidth e.width.toNat := by
  obtain ⟨hstride, hwidth⟩ := hw e he hc
  apply BitVec.eq_of_getLsbD_eq
  intro j hj
  have hoff : e.itemPos i + j - e.pos = j + e.width.toNat * i := by
    rw [LayoutEntry.itemPos, hstride, Nat.mul_comm]
    omega
  rw [getLsbD_fieldRead, bitAt_packEntries_inside h ht hw he hc (covers_itemPos_add hstride hi hj),
    hoff, Nat.add_mul_div_left _ _ hwidth, Nat.add_mul_mod_self_left, Nat.div_eq_of_lt hj,
    Nat.mod_eq_of_lt hj, Nat.zero_add, BitVec.getLsbD_setWidth]

/-- Settles O37: the items by `fieldRead_packEntries`; a bit outside every entry by the frame of the
loop, and a byte by its bits. -/
theorem packWritesExactlyTheMappedFields : Obligations.PackWritesExactlyTheMappedFields := by
  unfold Obligations.PackWritesExactlyTheMappedFields
  intro s hl hok hwf
  have ⟨_, _, _, htiles, _⟩ := hok
  have hw : ∀ e ∈ s.layout, e.copies .write = true →
      e.stride.toNat = e.width.toNat ∧ 1 ≤ e.width.toNat := fun e he hc =>
    have ⟨hstride, hwidth, _⟩ := data_entry_ranges hok he ((copies_iff e _).mp hc).2
    ⟨hstride, hwidth⟩
  have hbit : ∀ q, (∀ e ∈ s.layout, e.dir = .write → e.kind = .data → q < e.pos ∨ e.endPos ≤ q) →
      Memory.bitAt (packEntries s s.layout s.wrpd) q = Memory.bitAt s.wrpd q := fun q hq =>
    bitAt_packEntries_outside s.layout hwf q hw fun e he hc ⟨hlo, hhi⟩ => by
      obtain ⟨hd, hk⟩ := (copies_iff e _).mp hc
      have := hq e he hd hk
      omega
  refine ⟨packEntries s s.layout s.wrpd, ?_, packEntries_wf s.layout hwf, ?_, hbit, ?_⟩
  · exact exec_pack_of_layoutOk hl hok
  · intro e he hd hk i hi
    exact fieldRead_packEntries hwf htiles hw he ((copies_iff e _).mpr ⟨hd, hk⟩) hi
  · intro a ha
    refine read_eq_of_bitAt fun k hk8 => hbit _ fun e he hd hk => ?_
    have := ha e he hd hk
    omega

/-! ### What UNPACK stores and queues -/

theorem names_iff (e : LayoutEntry) (k : Nat) :
    e.names k ↔ e.dir = .read ∧ e.kind = .data ∧ e.slot.toNat ≤ k ∧
      k < e.slot.toNat + e.span.toNat := by
  rw [LayoutEntry.names, copies_iff, and_assoc]

/-- The entry of the highest index that names a slot gives its value (R252, R255). -/
theorem getElem?_unpackEntries_of_last_index (m : Memory) {es : List LayoutEntry} {vs : List Slot}
    {n k : Nat} {e : LayoutEntry} (hn : es[n]? = some e) (he : e.names k) (hk : k < vs.length)
    (hlast : ∀ n' f, n < n' → es[n']? = some f → ¬ f.names k) :
    (unpackEntries m es vs)[k]? = some (itemValue m e (k - e.slot.toNat)) := by
  obtain ⟨hlt, hget⟩ := List.getElem?_eq_some_iff.mp hn
  have hsplit : es = es.take n ++ e :: es.drop (n + 1) := by
    rw [← hget, List.cons_getElem_drop_succ, List.take_append_drop]
  rw [hsplit]
  refine getElem?_unpackEntries_last m _ _ e vs k he hk fun f hf => ?_
  obtain ⟨j, hj⟩ := List.mem_iff_getElem?.mp hf
  rw [List.getElem?_drop] at hj
  exact hlast (n + 1 + j) f (by omega) hj

/-- Settles O39: the last item that names a slot stands in the last entry that names it, whose value
the loop leaves there; a slot that no entry names is outside the loop. -/
theorem unpackStoresTheLastNamedFields : Obligations.UnpackStoresTheLastNamedFields := by
  unfold Obligations.UnpackStoresTheLastNamedFields
  intro s hl hok hvs hroom
  refine ⟨unpackEntries s.rdpd s.layout s.vs, s.nq ++ layoutEvents s.layout, ?_,
    unpackEntries_length .., ?_, ?_⟩
  · exact exec_unpack_of_layoutOk hl hok ((lacksRoom_eq_false_iff s).mpr hroom)
  · intro n e i hn hd hk hi hlast
    obtain ⟨-, -, hslot⟩ := data_entry_ranges hok (List.mem_of_getElem? hn) hk
    have hnames : e.names (e.slot.toNat + i) := (names_iff e _).mpr ⟨hd, hk, by omega, by omega⟩
    rw [getElem?_unpackEntries_of_last_index _ hn hnames (by omega), Nat.add_sub_cancel_left]
    · rfl
    · intro n' f hlt hf hfnames
      obtain ⟨hfd, hfk, hlo, hhi⟩ := (names_iff f _).mp hfnames
      exact hlast n' f (e.slot.toNat + i - f.slot.toNat) hf hfd hfk (by omega) (.inl hlt)
        (by omega)
  · intro k hk
    refine getElem?_unpackEntries_outside _ _ _ _ fun e he hnames => ?_
    obtain ⟨hd, hkind, hlo, hhi⟩ := (names_iff e k).mp hnames
    have := hk e he hd hkind
    omega

/-- Settles O40: the events queued are those of the maximal runs (`layoutEvents_eq_runs`), and a
good layout has NOTIFY_NEED of them. -/
theorem unpackQueuesOneEventPerOriginGroup : Obligations.UnpackQueuesOneEventPerOriginGroup := by
  unfold Obligations.UnpackQueuesOneEventPerOriginGroup
  intro s t hl hok hroom hx
  have ⟨_, _, _, _, _, _, _, _, _, hneed, _⟩ := hok
  have hnq : t.nq = s.nq ++ layoutEvents s.layout := by
    rw [exec_unpack_of_layoutOk hl hok ((lacksRoom_eq_false_iff s).mpr hroom)] at hx
    obtain rfl := Host.Outcome.next.inj hx
    rfl
  exact ⟨by rw [hnq, layoutEvents_eq_runs], by rw [hnq, List.length_append, hneed]⟩

/-! ### The reports -/

/-- Settles O34: without a layout both commands take their first branch. -/
theorem exchangeWithoutLayoutOnlyReports : Obligations.ExchangeWithoutLayoutOnlyReports := by
  unfold Obligations.ExchangeWithoutLayoutOnlyReports
  exact fun s hl => ⟨exec_pack_of_no_layout hl, exec_unpack_of_no_layout hl⟩

/-- Settles O38: without room UNPACK takes its second branch, and NOTIFY_NEED fits ERRINFO. -/
theorem unpackWithoutRoomOnlyReports : Obligations.UnpackWithoutRoomOnlyReports := by
  unfold Obligations.UnpackWithoutRoomOnlyReports
  intro s hl hroom
  rw [exec_unpack_of_lacksRoom hl ((lacksRoom_eq_true_iff s).mpr hroom), reportAt,
    BitVec.ofNat_toNat]
  rfl

end Sys2Proof.Machine
end

section
/-! The busy hazard of 70_reset_and_hazards.md R306 (O8): an access is either the read of STATUS, which
is answered whatever BUSY is, or with BUSY = 1 the fault HostHazard. -/

namespace Sys2Proof.Machine

/-- The step of a port access by either agent. -/
theorem step_eq_portAccess {s : State} {a : Access} {rest : List Event} (h : s.accesses a rest) :
    step s = portAccess a { s with sched := rest } := by
  rcases h with h | h <;> simp [step, nextEvent, h, runEvent]

/-- STATUS stands at one offset only (10_state.md section 2). -/
theorem regAt_eq_status_iff (off : Nat) : regAt off = some .status ↔ off = 0x0C := by
  refine ⟨fun h => ?_, fun h => h ▸ rfl⟩
  unfold regAt at h
  split at h <;> simp_all

/-- The access allowed while BUSY = 1 is RegRead of the offset 0x0C (10_state.md R36). -/
theorem isStatusRead_iff (a : Access) : a.isStatusRead = true ↔ a = .regRead 0x0C := by
  cases a with
  | regRead off => simp [Access.isStatusRead, regAt_eq_status_iff]
  | _ => simp [Access.isStatusRead]

/-- With BUSY = 1 an access that is no read of STATUS is a hazard (R306). -/
theorem portAccess_of_busy {s : State} {a : Access} (hb : s.busy = true) (ha : a ≠ .regRead 0x0C) :
    portAccess a s = .fault .hostHazard :=
  if_pos ⟨hb, Bool.eq_false_iff.mpr (mt (isStatusRead_iff a).mp ha)⟩

/-- A read of STATUS is answered, busy or not, and changes nothing else (10_state.md R36). -/
theorem portAccess_statusRead (s : State) :
    portAccess (.regRead 0x0C) s =
      .next { s with replies := s.status.setWidth 64 :: s.replies } :=
  if_neg fun ⟨_, hno⟩ => Bool.eq_false_iff.mp hno ((isStatusRead_iff _).mpr rfl)

/-- Bit 0 of STATUS is BUSY (10_state.md R36). -/
theorem getLsbD_zero_status (s : State) : s.status.getLsbD 0 = s.busy := by
  rw [State.status, BitVec.getLsbD_append]
  simp

/-- Settles O8: the step is the port access, which is a hazard (`portAccess_of_busy`) or the read of
STATUS (`portAccess_statusRead`), whose reply has BUSY as its bit 0. -/
theorem busyAccessIsAHazardExceptStatusReads :
    Obligations.BusyAccessIsAHazardExceptStatusReads := by
  unfold Obligations.BusyAccessIsAHazardExceptStatusReads
  intro s a rest hb hs
  rw [step_eq_portAccess hs]
  refine ⟨portAccess_of_busy (s := { s with sched := rest }) hb, ?_⟩
  rintro rfl
  have hbit : (s.status.setWidth 64).getLsbD 0 = true := by
    simp [getLsbD_zero_status, hb]
  exact ⟨s.status.setWidth 64, hbit, portAccess_statusRead { s with sched := rest }⟩

end Sys2Proof.Machine
end

section
/-! Encode and decode agree (30_encoding.md R110 to R119): every well-formed command is what its own
word decodes to (O2), and every word that decodes is the word of its command (O3). -/

namespace Sys2Proof

/-! ### The fields of an assembled word, format by format -/

section
variable {high : BitVec 16} {bitOff : BitVec 3} {width : BitVec 6} {buf : Buf} {op : BitVec 4}

/-- Format C (R112) reads back each field it was assembled from. -/
theorem decodeFormatC_assemble (mk : Buf → BitVec 6 → BitVec 3 → BitVec 16 → Instr)
    (hw : widthLegal width = true) :
    decodeFormatC mk (assemble high bitOff width buf.bit op) = .ok (mk buf width bitOff high) := by
  rw [decodeFormatC_eq_ok_iff]
  simp only [rsvField_assemble, bufField_assemble, widthField_assemble, bitOffField_assemble,
    highField_assemble, hw, and_self]

/-- Format K (R113) reads back BUF and WIDTH. -/
theorem decodeFormatK_assemble (mk : Buf → BitVec 6 → Instr) (hw : widthLegal width = true) :
    decodeFormatK mk (assemble 0 0 width buf.bit op) = .ok (mk buf width) := by
  rw [decodeFormatK_eq_ok_iff]
  simp only [rsvField_assemble, bufField_assemble, widthField_assemble, bitOffField_assemble,
    highField_assemble, hw, and_self]

/-- Format S (R114) reads back N. -/
theorem decodeFormatS_assemble (mk : BitVec 16 → Instr) :
    decodeFormatS mk (assemble high 0 0 0 op) = .ok (mk high) := by
  rw [decodeFormatS_eq_ok_iff, show (0 : BitVec 1) = Buf.rd.bit from rfl]
  simp only [rsvField_assemble, bufField_assemble, widthField_assemble, bitOffField_assemble,
    highField_assemble, and_self]

/-- Format Z (R115) accepts the word that is 0 above its OP. -/
theorem decodeFormatZ_assemble (i : Instr) :
    decodeFormatZ i (assemble 0 0 0 0 op) = .ok i := by
  rw [decodeFormatZ_eq_ok_iff, above_op_eq_zero_iff, opField_assemble, rsvField_assemble]
  exact ⟨⟨rfl, rfl⟩, rfl⟩

end

/-- Settles O2: OP selects the command's format, and the format reads back the fields. -/
theorem decodeOfEncodeGivesTheInstruction : Obligations.DecodeOfEncodeGivesTheInstruction := by
  unfold Obligations.DecodeOfEncodeGivesTheInstruction
  intro i hwf
  cases i with
  | rdb => rw [encode, decode, opField_assemble]; exact decodeFormatC_assemble _ hwf
  | wrb => rw [encode, decode, opField_assemble]; exact decodeFormatC_assemble _ hwf
  | rdc => rw [encode, decode, opField_assemble]; exact decodeFormatK_assemble _ hwf
  | wrc => rw [encode, decode, opField_assemble]; exact decodeFormatK_assemble _ hwf
  | skip => rw [encode, decode, opField_assemble]; exact decodeFormatS_assemble _
  | setsz => rw [encode, decode, opField_assemble]; exact decodeFormatZ_assemble _
  | compile => rw [encode, decode, opField_assemble]; exact decodeFormatZ_assemble _
  | pack => rw [encode, decode, opField_assemble]; exact decodeFormatZ_assemble _
  | unpack => rw [encode, decode, opField_assemble]; exact decodeFormatZ_assemble _

/-! ### A word from the fields its format uses -/

section
variable {c : Word} {op : BitVec 4} (hop : (opField c).toNat = op.toNat)
include hop

theorem assemble_of_formatC (hrsv : rsvField c = 0) :
    assemble (highField c) (bitOffField c) (widthField c) (bufField c).bit op = c := by
  rw [← BitVec.eq_of_toNat_eq hop, assemble_fields hrsv]

theorem assemble_of_formatK (hrsv : rsvField c = 0) (hoff : bitOffField c = 0)
    (hhigh : highField c = 0) : assemble 0 0 (widthField c) (bufField c).bit op = c := by
  have h := assemble_of_formatC hop hrsv
  rwa [hoff, hhigh] at h

theorem assemble_of_formatS (hrsv : rsvField c = 0) (hbuf : bufField c = .rd)
    (hwidth : widthField c = 0) (hoff : bitOffField c = 0) :
    assemble (highField c) 0 0 0 op = c := by
  have h := assemble_of_formatC hop hrsv
  rwa [hbuf, hwidth, hoff] at h

theorem assemble_of_formatZ (hz : c.extractLsb' 4 28 = 0#28) : assemble 0 0 0 0 op = c := by
  rw [← BitVec.eq_of_toNat_eq hop]
  exact ((above_op_eq_zero_iff c).mp hz).symm

end

/-- Settles O3: the fields that a format does not use are 0 in a word it accepts, so the word is
assembled from the fields it does use. -/
theorem encodeOfDecodeGivesTheWord : Obligations.EncodeOfDecodeGivesTheWord := by
  unfold Obligations.EncodeOfDecodeGivesTheWord
  intro c i h
  unfold decode at h
  split at h
  case h_1 hop =>
    obtain ⟨⟨hrsv, hwidth⟩, rfl⟩ := (decodeFormatC_eq_ok_iff ..).mp h
    exact ⟨hwidth, assemble_of_formatC hop hrsv⟩
  case h_2 hop =>
    obtain ⟨⟨hrsv, hwidth⟩, rfl⟩ := (decodeFormatC_eq_ok_iff ..).mp h
    exact ⟨hwidth, assemble_of_formatC hop hrsv⟩
  case h_3 hop =>
    obtain ⟨⟨hrsv, hwidth, hoff, hhigh⟩, rfl⟩ := (decodeFormatK_eq_ok_iff ..).mp h
    exact ⟨hwidth, assemble_of_formatK hop hrsv hoff hhigh⟩
  case h_4 hop =>
    obtain ⟨⟨hrsv, hwidth, hoff, hhigh⟩, rfl⟩ := (decodeFormatK_eq_ok_iff ..).mp h
    exact ⟨hwidth, assemble_of_formatK hop hrsv hoff hhigh⟩
  case h_5 hop =>
    obtain ⟨⟨hrsv, hbuf, hwidth, hoff⟩, rfl⟩ := (decodeFormatS_eq_ok_iff ..).mp h
    exact ⟨rfl, assemble_of_formatS hop hrsv hbuf hwidth hoff⟩
  case h_6 hop =>
    obtain ⟨⟨-, hz⟩, rfl⟩ := (decodeFormatZ_eq_ok_iff ..).mp h
    exact ⟨rfl, assemble_of_formatZ hop hz⟩
  case h_7 hop =>
    obtain ⟨⟨-, hz⟩, rfl⟩ := (decodeFormatZ_eq_ok_iff ..).mp h
    exact ⟨rfl, assemble_of_formatZ hop hz⟩
  case h_8 hop =>
    obtain ⟨⟨-, hz⟩, rfl⟩ := (decodeFormatZ_eq_ok_iff ..).mp h
    exact ⟨rfl, assemble_of_formatZ hop hz⟩
  case h_9 hop =>
    obtain ⟨⟨-, hz⟩, rfl⟩ := (decodeFormatZ_eq_ok_iff ..).mp h
    exact ⟨rfl, assemble_of_formatZ hop hz⟩
  case h_10 => cases h

end Sys2Proof
end

section
/-! What a command may write and how it may end: every command answers a next state (O11), each
writes its own components only (O57), an error is precise (O58); and with that the ENGINE's step
(O5, O9, O10) and what sets and clears FATAL (O56). -/

namespace Sys2Proof.Machine

/-- Settles O11: each branch of each command answers a next state. -/
theorem everyCommandEndsInANextState : Obligations.EveryCommandEndsInANextState := by
  unfold Obligations.EveryCommandEndsInANextState
  intro i s
  cases i with
  | rdb | wrb | rdc | wrc | skip => exact ⟨_, rfl⟩
  | setsz =>
    simp only [exec, execSetsz]
    split <;> exact ⟨_, rfl⟩
  | compile =>
    simp only [exec, execCompile]
    split
    · exact ⟨_, rfl⟩
    · split <;> exact ⟨_, rfl⟩
  | pack =>
    simp only [exec, execPack]
    split
    · exact ⟨_, rfl⟩
    · split <;> exact ⟨_, rfl⟩
  | unpack =>
    simp only [exec, execUnpack]
    split
    · exact ⟨_, rfl⟩
    · split
      · exact ⟨_, rfl⟩
      · split <;> exact ⟨_, rfl⟩

/-! ### Write sets -/

/-- SKIP adds N to CURSOR and clears the report (40_codec.md R156). -/
theorem exec_skip_cases {s t : State} {n : BitVec 16} (h : exec (.skip n) s = .next t) :
    t = ({ s with cursor := s.cursor + n.setWidth 32 } : State).ok :=
  (Host.Outcome.next.inj h).symm

/-- Settles O57, one command at a time: each outcome is the old state with the named components
replaced, so every other component is the old one. -/
theorem commandsWriteOnlyTheirOwnState : Obligations.CommandsWriteOnlyTheirOwnState := by
  unfold Obligations.CommandsWriteOnlyTheirOwnState
  intro i s t h
  cases i with
  | rdb buf width bitOff byteOff =>
    obtain ⟨c, r, e, i, hread⟩ := codecRead_frame buf (codecPos bitOff byteOff) width.toNat s
    obtain rfl := hread.symm.trans (Host.Outcome.next.inj h)
    simp [Instr.mnemonic]
  | rdc buf width =>
    obtain ⟨c, r, e, i, hread⟩ := codecRead_frame buf s.cursor.toNat width.toNat s
    obtain rfl := hread.symm.trans (Host.Outcome.next.inj h)
    simp [Instr.mnemonic]
  | wrb buf width bitOff byteOff =>
    obtain ⟨m, c, e, i, hwrite⟩ := codecWrite_frame buf (codecPos bitOff byteOff) width.toNat s
    obtain rfl := hwrite.symm.trans (Host.Outcome.next.inj h)
    cases buf <;> simp [Instr.mnemonic, writtenField]
  | wrc buf width =>
    obtain ⟨m, c, e, i, hwrite⟩ := codecWrite_frame buf s.cursor.toNat width.toNat s
    obtain rfl := hwrite.symm.trans (Host.Outcome.next.inj h)
    cases buf <;> simp [Instr.mnemonic, writtenField]
  | skip n =>
    obtain rfl := exec_skip_cases h
    simp [Instr.mnemonic]
  | setsz => rcases exec_setsz_cases h with rfl | ⟨-, -, rfl⟩ <;> simp [Instr.mnemonic]
  | compile =>
    rcases exec_compile_cases h with ⟨-, rfl⟩ | ⟨-, ⟨r, -, rfl⟩ | ⟨p, -, rfl⟩⟩ <;> simp
  | pack => rcases exec_pack_cases h with rfl | ⟨-, ⟨n, -, rfl⟩ | ⟨-, rfl⟩⟩ <;> simp
  | unpack =>
    rcases exec_unpack_cases h with rfl | rfl | ⟨-, -, ⟨n, -, rfl⟩ | ⟨-, rfl⟩⟩ <;> simp

/-! ### Errors and FATAL -/

/-- A codec access succeeds, or reports OutOfBounds at its position. -/
theorem CodecAccess.report_cases {i : Instr} {s t : State} {buf : Buf} {p w : Nat}
    (h : CodecAccess i s buf p w) (hx : exec i s = .next t) :
    (t.fatal = s.fatal ∧ t.errcode = 0) ∨ t = s.fail (reportAt .outOfBounds p) := by
  rcases Nat.lt_or_ge (8 * s.size buf) (p + w) with ho | hf
  · rw [h.exec_of_overrun ho] at hx
    exact .inr (Host.Outcome.next.inj hx).symm
  · left
    rcases h with h | h
    · obtain rfl := Host.Outcome.next.inj (h.symm.trans hx)
      simp [codecRead_of_fits hf]
    · obtain rfl := Host.Outcome.next.inj (h.symm.trans hx)
      simp [codecWrite_of_fits hf]

/-- PACK or UNPACK stopped at the first entry that overruns its direction's buffer (R242, R250). -/
def StoppedFatally (i : Instr) (s t : State) : Prop :=
  ∃ d n, i = (match d with | .read => .unpack | .write => .pack) ∧ s.overrun d = some n ∧
    t = s.fatalFail (reportAt .outOfBounds n)

/-- How a command ends (60_exceptions.md R274): without an error (COMPILE aside) and with FATAL as
it was; with a report and nothing else; or, PACK and UNPACK, with the fatal report and nothing else.
-/
theorem exec_report_cases {i : Instr} {s t : State} (h : exec i s = .next t) :
    (t.fatal = s.fatal ∧ (t.errcode = 0 ∨ i = .compile)) ∨ (∃ r, t = s.fail r) ∨
      StoppedFatally i s t := by
  have codec : ∀ {buf p w}, CodecAccess i s buf p w →
      (t.fatal = s.fatal ∧ (t.errcode = 0 ∨ i = .compile)) ∨ (∃ r, t = s.fail r) ∨
        StoppedFatally i s t := fun hacc =>
    (hacc.report_cases h).imp (fun ⟨hf, he⟩ => ⟨hf, .inl he⟩) fun hr => .inl ⟨_, hr⟩
  cases i with
  | rdb | rdc => exact codec (.inl rfl)
  | wrb | wrc => exact codec (.inr rfl)
  | skip n =>
    obtain rfl := exec_skip_cases h
    exact .inl ⟨rfl, .inl rfl⟩
  | setsz =>
    rcases exec_setsz_cases h with rfl | ⟨-, -, rfl⟩
    · exact .inr (.inl ⟨_, rfl⟩)
    · exact .inl ⟨rfl, .inl rfl⟩
  | compile =>
    refine .inl ⟨?_, .inr rfl⟩
    rcases exec_compile_cases h with ⟨-, rfl⟩ | ⟨-, ⟨r, -, rfl⟩ | ⟨p, -, rfl⟩⟩ <;> rfl
  | pack =>
    rcases exec_pack_cases h with rfl | ⟨-, ⟨n, hn, rfl⟩ | ⟨-, rfl⟩⟩
    · exact .inr (.inl ⟨_, rfl⟩)
    · exact .inr (.inr ⟨.write, n, rfl, hn, rfl⟩)
    · exact .inl ⟨rfl, .inl rfl⟩
  | unpack =>
    rcases exec_unpack_cases h with rfl | rfl | ⟨-, -, ⟨n, hn, rfl⟩ | ⟨-, rfl⟩⟩
    · exact .inr (.inl ⟨_, rfl⟩)
    · exact .inr (.inl ⟨_, rfl⟩)
    · exact .inr (.inr ⟨.read, n, rfl, hn, rfl⟩)
    · exact .inl ⟨rfl, .inl rfl⟩

/-- Settles O58: the report is all that either kind of error writes, besides FATAL in a fatal one,
whose code is OutOfBounds. -/
theorem failingCommandChangesNothingElse : Obligations.FailingCommandChangesNothingElse := by
  unfold Obligations.FailingCommandChangesNothingElse
  intro i s t h he hi
  rcases exec_report_cases h with ⟨-, hok | hc⟩ | ⟨r, rfl⟩ | ⟨d, n, -, -, rfl⟩
  · exact absurd hok he
  · exact absurd hc hi
  · exact ⟨rfl, fun hf => absurd rfl hf⟩
  · exact ⟨rfl, fun _ => rfl⟩

/-! ### The ENGINE's step -/

/-- The ENGINE has the turn when it is scheduled and when nothing is (log entry 3). -/
theorem step_of_engine_turn {s : State} {rest : List Event}
    (h : s.sched = .engine :: rest ∨ (s.sched = [] ∧ rest = [])) :
    step s = engineTurn { s with sched := rest } := by
  rcases h with h | ⟨h, rfl⟩
  · simp [step, nextEvent, h, runEvent]
  · have hself : { s with sched := [] } = s := by rw [← h]
    rw [hself]
    simp [step, nextEvent, h]

/-- With BUSY = 0 the ENGINE's turn changes nothing (log entry 18). -/
theorem engineTurn_of_idle {s : State} (hb : s.busy = false) : engineTurn s = .next s := by
  simp [engineTurn, hb]

/-- With BUSY = 1 the ENGINE's turn executes PENDING. -/
theorem engineTurn_of_busy {s : State} (hb : s.busy = true) :
    engineTurn s = execute s.pending s :=
  if_pos hb

/-- With FATAL = 1 the ENGINE's turn clears BUSY and does nothing else. -/
theorem engineTurn_of_fatal {s : State} (hf : s.fatal = true) : engineTurn s = .next s.idle := by
  cases hb : s.busy with
  | true => rw [engineTurn_of_busy hb, execute_of_fatal hf]
  | false =>
    have hidle : s.idle = s := by rw [State.idle, ← hb]
    rw [engineTurn_of_idle hb, hidle]

/-- Settles O5: with a legal word pending and FATAL = 0, execution is the command's and BUSY <- 0 on
its next state. -/
theorem engineTurnRunsTheDecodedCommand : Obligations.EngineTurnRunsTheDecodedCommand := by
  unfold Obligations.EngineTurnRunsTheDecodedCommand
  intro s i rest hb hf hd hs
  rw [step_of_engine_turn hs, engineTurn_of_busy (s := { s with sched := rest }) hb,
    execute_of_legal (s := { s with sched := rest }) hf hd]
  cases exec i { s with sched := rest } <;> rfl

/-- Settles O9: the turn is the ENGINE's, and with BUSY = 0 it is idle. -/
theorem idleBlockHoldsAllState : Obligations.IdleBlockHoldsAllState := by
  unfold Obligations.IdleBlockHoldsAllState
  intro s hb
  refine ⟨fun hs => ?_, fun rest hs => ?_⟩
  · rw [step_of_engine_turn (.inr ⟨hs, rfl⟩), engineTurn_of_idle (s := { s with sched := [] }) hb,
      ← hs]
  · rw [step_of_engine_turn (.inl hs), engineTurn_of_idle (s := { s with sched := rest }) hb]

/-- The ENGINE's turn with BUSY = 1 ends, whatever is pending: BUSY is 0 after it, and it schedules
nothing. -/
theorem engineTurn_ends {s : State} (hb : s.busy = true) :
    ∃ t, engineTurn s = .next t ∧ t.busy = false ∧ t.sched = s.sched := by
  cases hf : s.fatal with
  | true => exact ⟨_, engineTurn_of_fatal hf, rfl, rfl⟩
  | false =>
    rw [engineTurn_of_busy hb]
    cases hd : decode s.pending with
    | error e =>
      have hill : ∀ i, decode s.pending ≠ .ok i := by simp [hd]
      exact ⟨_, execute_of_illegal hf hill, rfl, rfl⟩
    | ok i =>
      obtain ⟨t, hx⟩ := everyCommandEndsInANextState i s
      obtain ⟨⟨-, -, -, -, -, -, -, -, hsched, -⟩, -⟩ := commandsWriteOnlyTheirOwnState i s t hx
      exact ⟨t.idle, by rw [execute_of_legal hf hd, hx]; rfl, rfl, hsched⟩

/-- Settles O10, by induction on the number of polls: a poll changes the schedule and the replies
only, and after the last one the ENGINE's turn ends the command. -/
theorem pollingEndsWithBusyClear : Obligations.PollingEndsWithBusyClear := by
  unfold Obligations.PollingEndsWithBusyClear
  intro n
  induction n with
  | zero =>
    intro s hb hs
    obtain ⟨t, ht, htb, hts⟩ := engineTurn_ends (s := { s with sched := [] }) hb
    have hstep : step s = .next t := (step_of_engine_turn (.inr ⟨hs, rfl⟩)).trans ht
    exact ⟨t, Laws.run_of_step (M := Sys2Proof.core) hstep, htb, hts⟩
  | succ n ih =>
    intro s hb hs
    rw [List.replicate_succ] at hs
    have hstep := (step_eq_portAccess (.inl hs)).trans (portAccess_statusRead _)
    rw [Laws.run_of_step (M := Sys2Proof.core) hstep]
    exact ih _ hb rfl

/-! ### What sets and what clears FATAL -/

/-- An overrun is a data entry of the direction that ends past its buffer (R242, R250). -/
theorem exists_overrun {s : State} {d : Dir} {n : Nat} (h : s.overrun d = some n) :
    ∃ e ∈ s.layout.take s.layoutCount.toNat,
      e.dir = d ∧ e.kind = .data ∧ 8 * s.size d.buf < e.endPos := by
  by_contra hno
  have hnone : s.overrun d = none := by
    refine (firstOverrun_eq_none ..).mpr fun e he hc => ?_
    obtain ⟨hd, hk⟩ := (copies_iff e d).mp hc
    by_contra hgt
    exact hno ⟨e, he, hd, hk, by omega⟩
  rw [hnone] at h
  cases h

/-- An ENGINE's turn that changes FATAL has run PACK or UNPACK to its fatal stop. -/
theorem engineTurn_fatal_cases {s t : State} (h : engineTurn s = .next t) :
    t.fatal = s.fatal ∨
      s.busy = true ∧ s.fatal = false ∧
        ∃ i u, decode s.pending = .ok i ∧ StoppedFatally i s u ∧ t = u.idle := by
  rcases engineTurn_cases h with ⟨-, rfl⟩ | ⟨hb, ⟨-, rfl⟩ | ⟨hf, ⟨e, -, rfl⟩ | ⟨i, u, hd, hx, rfl⟩⟩⟩
  · exact .inl rfl
  · exact .inl rfl
  · exact .inl rfl
  · rcases exec_report_cases hx with ⟨hkeep, -⟩ | ⟨r, rfl⟩ | hstop
    · exact .inl hkeep
    · exact .inl rfl
    · exact .inr ⟨hb, hf, i, u, hd, hstop, rfl⟩

/-- A port access keeps FATAL. -/
theorem portAccess_fatal {s t : State} {a : Access} (h : portAccess a s = .next t) :
    t.fatal = s.fatal := by
  obtain ⟨-, rfl⟩ := portAccess_cases h
  obtain ⟨_, _, _, _, _, _, _, _, _, _, _, _, hframe⟩ := access_frame s a (s.readValue a)
  rw [hframe]

/-- A step that changes FATAL is a reset or an ENGINE's turn that changes it. -/
theorem step_fatal_cases {s t : State} (h : step s = .next t) :
    t.fatal = s.fatal ∨ (∃ rest, s.sched = .reset :: rest ∧ t.fatal = false) ∨
      ∃ rest, engineTurn { s with sched := rest } = .next t := by
  rcases step_cases h with ⟨hs, ht⟩ | ⟨e, es, hs, ⟨-, ht⟩ | ⟨rfl, rfl⟩ | ⟨a, -, ht⟩⟩
  · exact .inr (.inr ⟨[], by rwa [← hs]⟩)
  · exact .inr (.inr ⟨es, ht⟩)
  · exact .inr (.inl ⟨es, hs, rfl⟩)
  · exact .inl (portAccess_fatal (s := { s with sched := es }) ht)

/-- Settles O56: only an ENGINE's turn or a reset changes FATAL, the former only by a fatal stop of
PACK or UNPACK, which has an overrunning entry; and with FATAL = 1 the turn clears BUSY only. -/
theorem onlyExchangeSetsAndOnlyResetClearsFatal :
    Obligations.OnlyExchangeSetsAndOnlyResetClearsFatal := by
  unfold Obligations.OnlyExchangeSetsAndOnlyResetClearsFatal
  intro s t h
  refine ⟨fun hf ht => ?_, fun hf ht => ?_, fun hf rest hs => ?_⟩
  · rcases step_fatal_cases h with hkeep | ⟨-, -, hclear⟩ | ⟨rest, hturn⟩
    · simp [hkeep, hf] at ht
    · simp [hclear] at ht
    · rcases engineTurn_fatal_cases hturn with hkeep | ⟨hb, -, i, u, hd, ⟨d, n, rfl, ho, rfl⟩, rfl⟩
      · simp [hkeep, hf] at ht
      · refine ⟨hb, rfl, ?_⟩
        cases d with
        | write => exact .inl ⟨hd, exists_overrun ho⟩
        | read => exact .inr ⟨hd, exists_overrun ho⟩
  · rcases step_fatal_cases h with hkeep | ⟨rest, hs, -⟩ | ⟨rest, hturn⟩
    · simp [hkeep, hf] at ht
    · exact ⟨rest, hs⟩
    · rcases engineTurn_fatal_cases hturn with hkeep | ⟨-, hf', -⟩
      · simp [hkeep, hf] at ht
      · simp [hf] at hf'
  · rw [step_of_engine_turn hs, engineTurn_of_fatal (s := { s with sched := rest }) hf] at h
    exact (Host.Outcome.next.inj h).symm

end Sys2Proof.Machine
end

section
/-! The invariant of every run (42_pack_unpack.md R254): the reset state meets it (O53), every step
keeps it (O54), and so no run from reset sets FATAL (O55). -/

namespace Sys2Proof.Machine

/-! ### What the layout depends on -/

/-- `t` has the layout of `s` and what it was compiled from: its counters, the sizes, the parameters
and, as long as LAYOUT_VALID = 1 locks them (10_state.md R57), the tables. -/
structure SameLayout (s t : State) : Prop where
  valid : t.layoutValid = s.layoutValid
  layout : t.layout = s.layout
  count : t.layoutCount = s.layoutCount
  rdBits : t.rdBits = s.rdBits
  wrBits : t.wrBits = s.wrBits
  need : t.notifyNeed = s.notifyNeed
  rdSize : t.rdSize = s.rdSize
  wrSize : t.wrSize = s.wrSize
  params : t.params = s.params
  locked : s.layoutValid = true →
    t.desc = s.desc ∧ t.memb = s.memb ∧ t.map = s.map ∧ t.descCount = s.descCount

theorem SameLayout.consistent {s t : State} (h : SameLayout s t) (hc : s.LayoutConsistent) :
    t.LayoutConsistent := by
  obtain ⟨hok, hno⟩ := hc
  refine ⟨fun hv => ?_, fun hv => ?_⟩
  · rw [h.valid] at hv
    obtain ⟨hdesc, hmemb, hmap, hcount⟩ := h.locked hv
    exact layoutOk_congr (hok hv) h.layout h.count h.rdBits h.wrBits h.need h.rdSize h.wrSize hdesc
      hmemb hmap hcount h.params
  · rw [h.valid] at hv
    rw [State.NoLayout, h.layout, h.count, h.rdBits, h.wrBits, h.need]
    exact hno hv

/-- Without a layout the state is consistent if it holds no entry and its counters are 0. -/
theorem layoutConsistent_of_noLayout {s : State} (hv : s.layoutValid = false) (h : s.NoLayout) :
    s.LayoutConsistent :=
  ⟨fun hv' => by simp [hv] at hv', fun _ => h⟩

/-! ### Updates that keep the invariant -/

section
variable {s : State} (h : s.Inv)
include h

/-- The invariant says nothing of the registers that are no size and no counter, nor of the model's
schedule, replies and draws. -/
theorem inv_with_registers (pending : Word) (busy : Bool) (arg result errinfo cursor : Word)
    (errcode : BitVec 8) (draws : Nat) (sched : List Event) (replies : List (BitVec 64)) :
    State.Inv { s with
      pending := pending, busy := busy, arg := arg, result := result, errinfo := errinfo
      cursor := cursor, errcode := errcode, draws := draws, sched := sched
      replies := replies } := by
  obtain ⟨hlegal, hmem, hrange, hlayout, hfatal⟩ := h
  exact ⟨hlegal, hmem, hrange,
    SameLayout.consistent (s := s) ⟨rfl, rfl, rfl, rfl, rfl, rfl, rfl, rfl, rfl,
      fun _ => ⟨rfl, rfl, rfl, rfl⟩⟩ hlayout, hfatal⟩

theorem inv_withMem {buf : Buf} {m : Memory} (hwf : Memory.wf m)
    (hbelow : Memory.below m s.params.pdMaxBytes) : (s.withMem buf m).Inv := by
  obtain ⟨hlegal, ⟨hrd, hwr, hrdb, hwrb, hlen⟩, hrange, hlayout, hfatal⟩ := h
  have hlayout' : (s.withMem buf m).LayoutConsistent :=
    SameLayout.consistent (s := s) (by cases buf <;>
      exact ⟨rfl, rfl, rfl, rfl, rfl, rfl, rfl, rfl, rfl, fun _ => ⟨rfl, rfl, rfl, rfl⟩⟩) hlayout
  cases buf with
  | rd => exact ⟨hlegal, ⟨hwf, hwr, hbelow, hwrb, hlen⟩, hrange, hlayout', hfatal⟩
  | wr => exact ⟨hlegal, ⟨hrd, hwf, hrdb, hbelow, hlen⟩, hrange, hlayout', hfatal⟩

theorem inv_with_vs {vs : List Slot} (hvs : vs.length = s.vs.length) :
    State.Inv { s with vs := vs } := by
  obtain ⟨hlegal, ⟨hrd, hwr, hrdb, hwrb, hlen, htables⟩, hrange, hlayout, hfatal⟩ := h
  exact ⟨hlegal, ⟨hrd, hwr, hrdb, hwrb, hvs.trans hlen, htables⟩, hrange,
    SameLayout.consistent (s := s) ⟨rfl, rfl, rfl, rfl, rfl, rfl, rfl, rfl, rfl,
      fun _ => ⟨rfl, rfl, rfl, rfl⟩⟩ hlayout, hfatal⟩

theorem inv_with_nq {nq : List Word} (hlen : nq.length ≤ s.params.notifyDepth)
    (hev : ∀ w ∈ nq, eventOk w = true) : State.Inv { s with nq := nq } := by
  obtain ⟨hlegal, hmem, ⟨hrs, hws, -, -⟩, hlayout, hfatal⟩ := h
  exact ⟨hlegal, hmem, ⟨hrs, hws, hlen, hev⟩,
    SameLayout.consistent (s := s) ⟨rfl, rfl, rfl, rfl, rfl, rfl, rfl, rfl, rfl,
      fun _ => ⟨rfl, rfl, rfl, rfl⟩⟩ hlayout, hfatal⟩

/-- The lock of 10_state.md R57 open, the tables take any words and DESC_COUNT any value. -/
theorem inv_with_descCount (hv : s.layoutValid = false) (n : BitVec 16) :
    State.Inv { s with descCount := n } := by
  obtain ⟨hlegal, hmem, hrange, hlayout, hfatal⟩ := h
  exact ⟨hlegal, hmem, hrange,
    SameLayout.consistent (s := s) ⟨rfl, rfl, rfl, rfl, rfl, rfl, rfl, rfl, rfl,
      fun hv' => by simp [hv] at hv'⟩ hlayout, hfatal⟩

theorem inv_withTable (hv : s.layoutValid = false) {tab : Table} {es : List TableEntry}
    (hlen : es.length = (s.table tab).length) : (s.withTable tab es).Inv := by
  obtain ⟨hlegal, ⟨hrd, hwr, hrdb, hwrb, hvs, hdesc, hmemb, hmap⟩, hrange, hlayout, hfatal⟩ := h
  have hlayout' : (s.withTable tab es).LayoutConsistent :=
    SameLayout.consistent (s := s) (by cases tab <;>
      exact ⟨rfl, rfl, rfl, rfl, rfl, rfl, rfl, rfl, rfl, fun hv' => by simp [hv] at hv'⟩) hlayout
  cases tab with
  | desc => exact ⟨hlegal, ⟨hrd, hwr, hrdb, hwrb, hvs, hlen.trans hdesc, hmemb, hmap⟩, hrange,
      hlayout', hfatal⟩
  | memb => exact ⟨hlegal, ⟨hrd, hwr, hrdb, hwrb, hvs, hdesc, hlen.trans hmemb, hmap⟩, hrange,
      hlayout', hfatal⟩
  | map => exact ⟨hlegal, ⟨hrd, hwr, hrdb, hwrb, hvs, hdesc, hmemb, hlen.trans hmap⟩, hrange,
      hlayout', hfatal⟩

/-! ### Reports and the schedule -/

theorem inv_ok : s.ok.Inv := inv_with_registers h ..

theorem inv_fail (r : Report) : (s.fail r).Inv := inv_with_registers h ..

theorem inv_idle : s.idle.Inv := inv_with_registers h ..

theorem inv_with_sched (sched : List Event) : State.Inv { s with sched := sched } :=
  inv_with_registers h ..

theorem inv_reply (v : Option (BitVec 64)) : (s.reply v).Inv := by
  cases v with
  | none => exact h
  | some v => exact inv_with_registers h ..

/-- A size is within the capacity (10_state.md R42). -/
theorem size_le_of_inv (buf : Buf) : s.size buf ≤ s.params.pdMaxBytes := by
  obtain ⟨-, -, ⟨hrs, hws, -⟩, -⟩ := h
  cases buf with
  | rd => exact hrs
  | wr => exact hws

theorem mem_ok_of_inv (buf : Buf) :
    Memory.wf (s.mem buf) ∧ Memory.below (s.mem buf) s.params.pdMaxBytes := by
  obtain ⟨-, ⟨hrd, hwr, hrdb, hwrb, -⟩, -⟩ := h
  cases buf with
  | rd => exact ⟨hrd, hrdb⟩
  | wr => exact ⟨hwr, hwrb⟩

theorem layoutOk_of_inv (hv : s.layoutValid = true) : s.LayoutOk := by
  obtain ⟨-, -, -, ⟨hok, -⟩, -⟩ := h
  exact hok hv

end

/-! ### Reset -/

@[simp] theorem drawnTable_length (draw : Nat → Nat → Word) (n : Nat) :
    (drawnTable draw n).length = n := by
  simp [drawnTable]

theorem resetWith_inv {p : Config.Params} (hp : p.Legal) (draw : Nat) (sched : List Event)
    (replies : List (BitVec 64)) : (State.resetWith p draw sched replies).Inv := by
  have hnil : Memory.wf [] := ⟨List.Pairwise.nil, fun _ hc => nomatch hc⟩
  refine ⟨hp, ⟨hnil, hnil, fun _ hc => (nomatch hc), fun _ hc => (nomatch hc), ?_⟩,
    ⟨Nat.zero_le _, Nat.zero_le _, Nat.zero_le _, fun _ hw => (nomatch hw)⟩,
    layoutConsistent_of_noLayout rfl ⟨rfl, rfl, rfl, rfl, rfl⟩, rfl⟩
  simp [State.resetWith]

/-- Settles O53: every register is 0, the memories are empty or full lists of draws. -/
theorem resetMeetsTheInvariant : Obligations.ResetMeetsTheInvariant := by
  unfold Obligations.ResetMeetsTheInvariant
  exact ⟨fun p draw sched replies hp => resetWith_inv hp draw sched replies,
    resetWith_inv (by decide) 0 [] []⟩

/-! ### Port accesses -/

/-- The effect of a port access keeps the invariant (20_memory.md R88). -/
theorem accessEffect_inv {s : State} (h : s.Inv) (a : Access) : (s.accessEffect a).Inv := by
  cases a with
  | bufRead | vsRead | tableRead | layoutRead | layoutWrite => exact h
  | regRead off =>
    simp only [State.accessEffect, State.regReadEffect]
    split
    · unfold State.popNq
      split
      · exact h
      · rename_i w ws hnq
        have ⟨_, _, ⟨_, _, hlen, hev⟩, _⟩ := h
        rw [hnq] at hlen hev
        exact inv_with_nq h (Nat.le_of_succ_le hlen) fun v hv => hev v (List.mem_cons_of_mem w hv)
    · exact h
  | regWrite off v =>
    simp only [State.accessEffect, State.regWrite]
    split
    · exact inv_with_registers h ..
    · exact inv_with_registers h ..
    · split
      · exact h
      · rename_i hv
        exact inv_with_descCount h (by simpa using hv) _
    · exact h
  | bufWrite buf i v =>
    simp only [State.accessEffect, State.bufWrite]
    split
    · rename_i hi
      obtain ⟨hwf, hbelow⟩ := mem_ok_of_inv h buf
      exact inv_withMem h (write_wf hwf i v) (write_below hbelow hi v)
    · exact h
  | vsWrite i v =>
    simp only [State.accessEffect, State.vsWrite]
    split
    · exact inv_with_vs h (List.length_set ..)
    · exact h
  | tableWrite tab i j v =>
    simp only [State.accessEffect, State.tableWrite]
    split
    · exact h
    · rename_i hv
      split
      · exact inv_withTable h (by simpa using hv) (List.length_set ..)
      · exact h

theorem portAccess_inv {s t : State} {a : Access} (h : s.Inv) (ht : portAccess a s = .next t) :
    t.Inv := by
  obtain ⟨-, rfl⟩ := portAccess_cases ht
  exact inv_reply (accessEffect_inv h a) _

/-! ### The events of a good layout -/

/-- The open group `g` is one to which the entry `before` was the last to be added: its count is the
distance of their ELEMs, so it stays below 256 (10_state.md R60; R225 e). -/
def GroupOk (g : Option (LayoutEntry × Nat)) (before : Option LayoutEntry) : Prop :=
  ∀ first count, g = some (first, count) → first.inst ≠ 0 ∧ 1 ≤ count ∧
    ∃ f, before = some f ∧ f.origin = first.origin ∧ f.elem.toNat < 255 ∧
      f.elem.toNat + 1 = first.elem.toNat + count

theorem groupOk_none (before : Option LayoutEntry) : GroupOk none before := nofun

theorem groupOk_open {e : LayoutEntry} (hi : e.inst ≠ 0) (he : e.elem.toNat < 255) :
    GroupOk (some (e, 1)) (some e) := by
  rintro first count ⟨⟩
  exact ⟨hi, le_rfl, e, rfl, rfl, he, rfl⟩

/-- In a layout in order an entry of the open group's origin has the next ELEM (R225 e). -/
theorem groupOk_next {s : State} {first e : LayoutEntry} {count : Nat}
    {before : Option LayoutEntry} (hg : GroupOk (some (first, count)) before)
    (hstep : originStep s before e = true) (ho : e.origin = first.origin)
    (he : e.elem.toNat < 255) : GroupOk (some (first, count + 1)) (some e) := by
  obtain ⟨hi, h1, f, rfl, hfo, hf, hcount⟩ := hg first count rfl
  have hfe : f.origin = e.origin := hfo.trans ho.symm
  rintro first count ⟨⟩
  refine ⟨hi, by omega, e, rfl, ho, he, ?_⟩
  simp only [originStep, hfe, lt_self_iff_false, decide_false, Bool.false_and, Bool.false_or,
    Bool.and_eq_true, decide_eq_true_eq] at hstep
  omega

theorem groupEvents_ok {first : LayoutEntry} {count : Nat} {before : Option LayoutEntry}
    (hg : GroupOk (some (first, count)) before) :
    ∀ w ∈ groupEvents first count, eventOk w = true := by
  obtain ⟨hi, h1, f, -, -, hf, hcount⟩ := hg first count rfl
  intro w hw
  unfold groupEvents at hw
  split at hw
  · obtain rfl := List.mem_singleton.mp hw
    have hc : BitVec.ofNat 8 count ≠ 0 := by
      intro hz
      have := congrArg BitVec.toNat hz
      simp only [BitVec.toNat_ofNat, BitVec.ofNat_eq_ofNat] at this
      omega
    simp only [eventOk, eventWord_inst, eventWord_count, Bool.and_eq_true, decide_eq_true_eq]
    exact ⟨hi, hc⟩
  · cases hw

theorem closeGroup_ok {g : Option (LayoutEntry × Nat)} {before : Option LayoutEntry}
    (hg : GroupOk g before) : ∀ w ∈ closeGroup g, eventOk w = true := by
  match g with
  | none => exact fun _ hw => (nomatch hw)
  | some (first, count) => exact groupEvents_ok hg

/-- Every event of entries in order names an ADI and 1 to 255 elements (10_state.md R60). -/
theorem eventsFrom_ok {s : State} (es : List LayoutEntry) {g : Option (LayoutEntry × Nat)}
    {before : Option LayoutEntry} (hg : GroupOk g before)
    (horder : originsInOrder s before es = true) (helem : ∀ e ∈ es, e.elem.toNat < 255) :
    ∀ w ∈ eventsFrom g es, eventOk w = true := by
  induction es generalizing g before with
  | nil => exact closeGroup_ok hg
  | cons e es ih =>
    rw [originsInOrder, Bool.and_eq_true] at horder
    obtain ⟨hstep, horder⟩ := horder
    have he := helem e List.mem_cons_self
    have ih := fun g' (hg' : GroupOk g' (some e)) =>
      ih hg' horder fun f hf => helem f (List.mem_cons_of_mem e hf)
    simp only [eventsFrom]
    split
    · rename_i hgrouped
      have hi : e.inst ≠ 0 := by
        simp only [LayoutEntry.grouped, Bool.and_eq_true, decide_eq_true_eq] at hgrouped
        exact hgrouped.2
      split
      · split
        · exact ih _ (groupOk_next hg hstep ‹_› he)
        · intro w hw
          rcases List.mem_append.mp hw with hw | hw
          · exact groupEvents_ok hg w hw
          · exact ih _ (groupOk_open hi he) w hw
      · exact ih _ (groupOk_open hi he)
    · intro w hw
      rcases List.mem_append.mp hw with hw | hw
      · exact closeGroup_ok hg w hw
      · exact ih _ (groupOk_none _) w hw

theorem layoutEvents_ok {s : State} (h : s.LayoutOk) :
    ∀ w ∈ layoutEvents s.layout, eventOk w = true := by
  obtain ⟨-, -, -, -, -, -, hranges, -, horder, -⟩ := h
  refine eventsFrom_ok s.layout (groupOk_none none) horder fun e he => ?_
  have hr := hranges e he
  simp only [entryRanges, Bool.and_eq_true, decide_eq_true_eq] at hr
  exact hr.1

/-! ### Commands -/

section
variable {s t : State} (h : s.Inv)
include h

theorem codecRead_inv (buf : Buf) (p w : Nat) : (codecRead buf p w s).Inv := by
  obtain ⟨c, r, e, i, hread⟩ := codecRead_frame buf p w s
  rw [hread]
  exact inv_with_registers h ..

theorem codecWrite_inv (buf : Buf) (p w : Nat) : (codecWrite buf p w s).Inv := by
  rcases Nat.lt_or_ge (8 * s.size buf) (p + w) with ho | hf
  · rw [codecWrite_of_overrun ho]
    exact inv_fail h _
  · rw [codecWrite_of_fits hf]
    obtain ⟨hwf, hbelow⟩ := mem_ok_of_inv h buf
    have hsize := size_le_of_inv h buf
    have hregs : ((s.advanceTo (p + w)).ok).Inv := inv_with_registers h ..
    exact inv_withMem hregs (fieldWrite_wf hwf p s.arg w)
      (fieldWrite_below hbelow p s.arg w (by omega))

theorem exec_setsz_inv (hx : exec .setsz s = .next t) : t.Inv := by
  rcases exec_setsz_cases hx with rfl | ⟨hrs, hws, rfl⟩
  · exact inv_fail h _
  · obtain ⟨hlegal, ⟨-, -, -, -, hlen⟩, ⟨-, -, hnq⟩, -, hfatal⟩ := h
    have hnil : Memory.wf [] := ⟨List.Pairwise.nil, fun _ hc => nomatch hc⟩
    exact ⟨hlegal, ⟨hnil, hnil, fun _ hc => (nomatch hc), fun _ hc => (nomatch hc), hlen⟩,
      ⟨hrs, hws, hnq⟩, layoutConsistent_of_noLayout rfl ⟨rfl, rfl, rfl, rfl, rfl⟩, hfatal⟩

theorem exec_compile_inv (hx : exec .compile s = .next t) : t.Inv := by
  rcases exec_compile_cases hx with ⟨-, rfl⟩ | ⟨-, ⟨r, -, rfl⟩ | ⟨p, hplan, rfl⟩⟩
  · exact inv_ok h
  · obtain ⟨hlegal, hmem, hrange, -, hfatal⟩ := h
    exact inv_fail (s := s.dropLayout) ⟨hlegal, hmem, hrange,
      layoutConsistent_of_noLayout rfl ⟨rfl, rfl, rfl, rfl, rfl⟩, hfatal⟩ r
  · obtain ⟨hlegal, hmem, hrange, -, hfatal⟩ := h
    exact inv_ok (s := s.commit p) ⟨hlegal, hmem, hrange,
      ⟨fun _ => commit_layoutOk hlegal hplan, nofun⟩, hfatal⟩

/-- Over a good layout PACK writes inside the capacity of WRPD. -/
theorem packEntries_below_max (hv : s.layoutValid = true) :
    Memory.below (packEntries s s.layout s.wrpd) s.params.pdMaxBytes := by
  have hok := layoutOk_of_inv h hv
  have hsize := size_le_of_inv h .wr
  refine packEntries_below s.layout (mem_ok_of_inv h .wr).2 (fun e he hc => ?_) fun e he hc => ?_
  · obtain ⟨hstride, -⟩ := data_entry_ranges hok he ((copies_iff e _).mp hc).2
    apply BitVec.eq_of_toNat_eq
    have := e.width.isLt
    rw [hstride, BitVec.toNat_setWidth]
    omega
  · have hend := endPos_le hok he
    rw [((copies_iff e _).mp hc).1] at hend
    exact hend.trans (Nat.mul_le_mul_left 8 hsize)

theorem exec_pack_inv (hx : exec .pack s = .next t) : t.Inv := by
  cases hv : s.layoutValid with
  | false =>
    rw [exec_pack_of_no_layout hv] at hx
    obtain rfl := Host.Outcome.next.inj hx
    exact inv_fail h _
  | true =>
    rw [exec_pack_of_layoutOk hv (layoutOk_of_inv h hv)] at hx
    obtain rfl := Host.Outcome.next.inj hx
    exact inv_ok (inv_withMem (buf := .wr) h (packEntries_wf s.layout (mem_ok_of_inv h .wr).1)
      (packEntries_below_max h hv))

theorem exec_unpack_inv (hx : exec .unpack s = .next t) : t.Inv := by
  cases hv : s.layoutValid with
  | false =>
    rw [exec_unpack_of_no_layout hv] at hx
    obtain rfl := Host.Outcome.next.inj hx
    exact inv_fail h _
  | true =>
    cases hroom : s.lacksRoom with
    | true =>
      rw [exec_unpack_of_lacksRoom hv hroom] at hx
      obtain rfl := Host.Outcome.next.inj hx
      exact inv_fail h _
    | false =>
      have hok := layoutOk_of_inv h hv
      rw [exec_unpack_of_layoutOk hv hok hroom] at hx
      obtain rfl := Host.Outcome.next.inj hx
      have ⟨_, _, _, _, _, _, _, _, _, hneed, _⟩ := hok
      have ⟨_, _, ⟨_, _, hlen, hev⟩, _⟩ := h
      rw [lacksRoom_eq_false_iff, hneed] at hroom
      have hvs := inv_with_vs h (unpackEntries_length s.rdpd s.layout s.vs)
      refine inv_ok (inv_with_nq hvs ?_ fun w hw => ?_)
      · rw [List.length_append]
        change _ ≤ s.params.notifyDepth
        omega
      · rcases List.mem_append.mp hw with hw | hw
        · exact hev w hw
        · exact layoutEvents_ok hok w hw

theorem exec_inv {i : Instr} (hx : exec i s = .next t) : t.Inv := by
  cases i with
  | rdb | rdc => exact Host.Outcome.next.inj hx ▸ codecRead_inv h ..
  | wrb | wrc => exact Host.Outcome.next.inj hx ▸ codecWrite_inv h ..
  | skip =>
    obtain rfl := exec_skip_cases hx
    exact inv_with_registers h ..
  | setsz => exact exec_setsz_inv h hx
  | compile => exact exec_compile_inv h hx
  | pack => exact exec_pack_inv h hx
  | unpack => exact exec_unpack_inv h hx

/-! ### Steps and runs -/

theorem engineTurn_inv (ht : engineTurn s = .next t) : t.Inv := by
  rcases engineTurn_cases ht with ⟨-, rfl⟩ | ⟨-, ⟨-, rfl⟩ | ⟨-, ⟨e, -, rfl⟩ | ⟨i, u, -, hx, rfl⟩⟩⟩
  · exact h
  · exact inv_idle h
  · exact inv_idle (inv_fail h _)
  · exact inv_idle (exec_inv h hx)

theorem step_inv (ht : step s = .next t) : t.Inv := by
  rcases step_cases ht with ⟨-, ht⟩ | ⟨e, es, -, ⟨-, ht⟩ | ⟨-, rfl⟩ | ⟨a, -, ht⟩⟩
  · exact engineTurn_inv h ht
  · exact engineTurn_inv (inv_with_sched h es) ht
  · exact resetWith_inv h.1 ..
  · exact portAccess_inv (inv_with_sched h es) ht

end

/-- Settles O54: a step is an ENGINE's turn, a reset or a port access, and each keeps the invariant.
-/
theorem everyStepKeepsTheInvariant : Obligations.EveryStepKeepsTheInvariant := by
  unfold Obligations.EveryStepKeepsTheInvariant
  exact fun s t h ht => step_inv h ht

theorem run_inv {n : Nat} {s t : State} (h : s.Inv)
    (ht : Host.Core.run Sys2Proof.core n s = .next t) : t.Inv := by
  induction n generalizing s with
  | zero => exact Host.Outcome.next.inj ht ▸ h
  | succ n ih =>
    obtain ⟨u, hu, ht⟩ := Laws.run_next ht
    exact ih (step_inv h hu) ht

/-- Settles O55: a run from reset keeps the invariant, whose layout ends inside its buffers. -/
theorem fatalIsUnreachableFromReset : Obligations.FatalIsUnreachableFromReset := by
  unfold Obligations.FatalIsUnreachableFromReset
  intro p draw sched replies n t hp ht
  have hinv := run_inv (resetWith_inv hp draw sched replies) ht
  have ⟨_, _, _, _, hfatal⟩ := hinv
  exact ⟨hfatal, fun hv e he => endPos_le (layoutOk_of_inv hinv hv) he⟩

end Sys2Proof.Machine
end

section
/-! COMPILE over any map list (41_config_and_compile.md R200 to R223): how it ends (O26, O31, O32),
the report of the first failing check (O59), the layout of a list that passes (O60), and the element
types (O22). -/

namespace Sys2Proof.Machine

open Sys2Proof.Config

/-! ### Element types -/

/-- Settles O22: the codes of R52 one at a time, then BITS(n), PAD(n) and the undefined codes by
their ranges. -/
theorem typeCodesHaveTheirWidthAndClass : Obligations.TypeCodesHaveTheirWidthAndClass := by
  unfold Obligations.TypeCodesHaveTheirWidthAndClass
  intro bb code
  have hzero : code = 0 ↔ code.toNat = 0 := BitVec.toNat_eq
  have hlt := code.isLt
  rw [hzero]
  unfold elemType
  generalize code.toNat = n at hlt
  split
  case h_1 => cases bb <;> simp [ElemType.isPad, ElemType.byteClass, ElemType.width, BoolBits.toNat]
  case h_15 =>
    have hn : 0x0E ≤ n := by
      simp only [imp_false] at *
      omega
    split
    · simp [ElemType.isPad, ElemType.byteClass, ElemType.width]
      split_ifs <;> omega
    · split
      · simp [ElemType.isPad, ElemType.byteClass, ElemType.width]
        split_ifs <;> omega
      · simp
        omega
  all_goals simp [ElemType.isPad, ElemType.byteClass, ElemType.width]

/-! ### How COMPILE ends -/

section
variable {s : State} (hl : s.layoutValid = false)
include hl

/-- The report of the first failing check is COMPILE's, and it leaves no layout (R186, R223). -/
theorem exec_compile_of_plan_error {r : Report} (h : s.compilePlan = .error r) :
    ∃ t, exec .compile s = .next t ∧ t.layoutValid = false ∧ t.errcode = r.error.code ∧
      t.errinfo = r.info :=
  ⟨_, execCompile_of_error hl h, rfl, rfl, rfl⟩

/-- Where no plan passes the checks, COMPILE ends with an error and no layout. -/
theorem exec_compile_of_no_plan (h : ∀ p, s.compilePlan ≠ .ok p) :
    ∃ t, exec .compile s = .next t ∧ t.layoutValid = false ∧ t.errcode ≠ 0 := by
  cases hplan : s.compilePlan with
  | ok p => exact absurd hplan (h p)
  | error r =>
    obtain ⟨t, hx, hv, he, -⟩ := exec_compile_of_plan_error hl hplan
    exact ⟨t, hx, hv, he ▸ errorName_code_ne_zero r.error⟩

end

/-- Settles O26: COMPILE accepts strictly ascending INSTANCEs only (R191). -/
theorem repeatedInstanceIsNeverAccepted : Obligations.RepeatedInstanceIsNeverAccepted := by
  unfold Obligations.RepeatedInstanceIsNeverAccepted
  intro s i j hl hij hj heq
  refine exec_compile_of_no_plan hl fun p hplan => ?_
  obtain ⟨-, -, hdesc⟩ := checkRegistry_ok (compilePlan_ok hplan).1
  have hlt := instAt_lt (fun k hk => (hdesc k hk).2) hij hj
  rw [State.instAt, State.instAt, heq] at hlt
  exact lt_irrefl _ hlt

/-- Settles O31: without a layout before, LAYOUT_VALID = 1 comes from a committed plan. -/
theorem successfulCompileGivesAValidLayout : Obligations.SuccessfulCompileGivesAValidLayout := by
  unfold Obligations.SuccessfulCompileGivesAValidLayout
  intro s t hlegal hl hx hv
  rcases exec_compile_cases hx with ⟨hv', -⟩ | ⟨-, ⟨r, -, rfl⟩ | ⟨p, hplan, rfl⟩⟩
  · simp [hl] at hv'
  · simp at hv
  · exact ⟨rfl, rfl, layoutOk_congr (commit_layoutOk hlegal hplan) rfl rfl rfl rfl rfl rfl rfl rfl
      rfl rfl rfl rfl⟩

/-- Settles O32: a failing COMPILE drops the layout and reports, another commits its plan. -/
theorem failingCompileLeavesNoLayout : Obligations.FailingCompileLeavesNoLayout := by
  unfold Obligations.FailingCompileLeavesNoLayout
  intro s hl
  cases hplan : s.compilePlan with
  | error r =>
    exact ⟨_, execCompile_of_error hl hplan, rfl,
      ⟨nofun, fun he => absurd he (errorName_code_ne_zero r.error)⟩, fun _ => ⟨rfl, rfl, rfl, rfl⟩⟩
  | ok p =>
    exact ⟨_, execCompile_of_ok hl hplan, rfl, ⟨fun _ => rfl, fun _ => rfl⟩, nofun⟩

/-! ### One step of the walk (R200 to R202) -/

section
variable {s : State} {n k : Nat} {d : Dir} {p : Plan}

theorem walk_of_endMarker (h : (s.entry .map k).mapDir = .endMarker) :
    s.walk (n + 1) k p = .ok p := by
  simp only [State.walk, h]

theorem walk_of_invalid (h : (s.entry .map k).mapDir = .invalid) :
    s.walk (n + 1) k p = .error (reportAt .invalidMapEntry k) := by
  simp only [State.walk, h]

/-- The report of an ADI entry is the walk's. -/
theorem walk_of_adi_error {r : Report} (hd : (s.entry .map k).mapDir = .dir d)
    (hi : (s.entry .map k).mapInst ≠ 0)
    (h : s.compileAdi (s.entry .map k) d k p = .error r) : s.walk (n + 1) k p = .error r := by
  simp only [State.walk, hd, if_neg hi, h]

theorem walk_of_unknown (hd : (s.entry .map k).mapDir = .dir d)
    (hi : (s.entry .map k).mapInst ≠ 0)
    (hno : ∀ i, i < s.descs → (s.entry .desc i).descInst ≠ (s.entry .map k).mapInst) :
    s.walk (n + 1) k p = .error (reportAt .unknownInstance k) := by
  have hlookup : s.lookup (s.entry .map k).mapInst = none := by
    simpa [State.lookup, List.find?_eq_none] using hno
  exact walk_of_adi_error hd hi (by simp only [State.compileAdi, hlookup])

/-- A range that goes past NELEM has no element count (R202). -/
theorem elemCount_of_past {e : TableEntry} {m : Nat}
    (h : m < e.mapStart.toNat + e.mapCount.toNat) : elemCount e m = none := by
  by_cases hc : e.mapCount = 0
  · rw [elemCount, if_pos hc, if_pos (by simpa [hc] using h)]
  · rw [elemCount, if_neg hc, if_pos h]

theorem walk_of_range_error {i : Nat} (hr : s.RegistryOk) (hd : (s.entry .map k).mapDir = .dir d)
    (hi : i < s.descs) (hinst : (s.entry .desc i).descInst = (s.entry .map k).mapInst)
    (hpast : (s.entry .desc i).descNelem.toNat <
      (s.entry .map k).mapStart.toNat + (s.entry .map k).mapCount.toNat) :
    s.walk (n + 1) k p = .error (reportAt .elementRangeError k) := by
  have ⟨_, _, hvalid, _⟩ := hr
  have hlookup := lookup_of_registryOk hr hi
  rw [hinst] at hlookup
  exact walk_of_adi_error hd (hinst ▸ descInst_ne_zero (hvalid i hi))
    (by simp only [State.compileAdi, hlookup, elemCount_of_past hpast])

/-- A walk that no terminal entry ends builds no plan (R218). -/
theorem walk_ne_ok_of_no_endMarker {p' : Plan}
    (h : ∀ j, k ≤ j → j < k + n → (s.entry .map j).mapDir ≠ .endMarker) :
    s.walk n k p ≠ .ok p' := by
  induction n generalizing k p with
  | zero => exact nofun
  | succ n ih =>
    simp only [State.walk]
    split
    · exact absurd ‹_› (h k le_rfl (by omega))
    · exact nofun
    · split
      · exact nofun
      · exact ih fun j hkj hj => h j (by omega) (by omega)

end

/-! ### A list whose elements all pass -/

section
variable {s : State} {xss : List (List MappedItem)} (hl : s.layoutValid = false)
  (hr : s.RegistryOk) (hm : ∀ j xs, xss[j]? = some xs → s.mapsTo j xs)
  (hok : s.elementsOk xss.flatten)

/-- What the list has built when the walk comes to the entry after it. -/
abbrev listPlan (s : State) (xss : List (List MappedItem)) : Plan :=
  planOf s.params.boolBits xss.flatten (mappedEvents xss)

include hr hm hok

/-- The walk from the start comes to the entry after the list with the list's plan. -/
theorem compilePlan_of_list {res : Except Report Plan} (hlen : xss.length ≤ s.params.mapMax)
    (h : s.walk (s.params.mapMax - xss.length) xss.length (listPlan s xss) = res) :
    s.compilePlan = res.bind s.finalChecks := by
  have hwalk := walk_of_mapsTo hr hm hok (s.params.mapMax - xss.length)
  rw [Nat.add_sub_of_le hlen, h] at hwalk
  simp only [State.compilePlan, checkRegistry_of_registryOk hr, hwalk]
  cases res <;> rfl

/-- Before the terminal entry the final checks decide (R220, R221). -/
theorem compilePlan_of_terminated (hlt : xss.length < s.params.mapMax)
    (hend : (s.entry .map xss.length).mapDir = .endMarker) :
    s.compilePlan = s.finalChecks (listPlan s xss) := by
  obtain ⟨n, hn⟩ := Nat.exists_eq_add_of_lt hlt
  have hsub : s.params.mapMax - xss.length = n + 1 := by omega
  exact compilePlan_of_list (res := .ok _) hr hm hok hlt.le (by rw [hsub, walk_of_endMarker hend])

include hl

/-- The report of the entry after the list is COMPILE's. -/
theorem exec_compile_of_entry_error {r : Report} (hlt : xss.length < s.params.mapMax)
    (h : ∀ n, s.walk (n + 1) xss.length (listPlan s xss) = .error r) :
    ∃ t, exec .compile s = .next t ∧ t.layoutValid = false ∧ t.errcode = r.error.code ∧
      t.errinfo = r.info := by
  obtain ⟨n, hn⟩ := Nat.exists_eq_add_of_lt hlt
  have hsub : s.params.mapMax - xss.length = n + 1 := by omega
  exact exec_compile_of_plan_error hl
    (compilePlan_of_list (res := .error r) hr hm hok hlt.le (by rw [hsub, h n]))

/-- With no entry left the walk reports MissingTerminator (R218). -/
theorem exec_compile_of_full_list (hlen : xss.length = s.params.mapMax) :
    ∃ t, exec .compile s = .next t ∧ t.layoutValid = false ∧ t.errcode = 0x0E#8 ∧
      t.errinfo = BitVec.ofNat 32 s.params.mapMax :=
  exec_compile_of_plan_error hl (r := reportAt .missingTerminator s.params.mapMax)
    (compilePlan_of_list (res := .error _) hr hm hok hlen.le (by rw [hlen, Nat.sub_self]; rfl))

/-- A terminated list that fails a final check. -/
theorem exec_compile_of_final_error {r : Report} (hlt : xss.length < s.params.mapMax)
    (hend : (s.entry .map xss.length).mapDir = .endMarker)
    (h : s.finalChecks (listPlan s xss) = .error r) :
    ∃ t, exec .compile s = .next t ∧ t.layoutValid = false ∧ t.errcode = r.error.code ∧
      t.errinfo = r.info :=
  exec_compile_of_plan_error hl ((compilePlan_of_terminated hr hm hok hlt hend).trans h)

/-- A terminated list that fits commits its plan (R222). -/
theorem exec_compile_of_terminated (hlt : xss.length < s.params.mapMax)
    (hend : (s.entry .map xss.length).mapDir = .endMarker)
    (hrd : mappedBits s.params.boolBits .read xss.flatten ≤ 8 * s.rdSize.toNat)
    (hwr : mappedBits s.params.boolBits .write xss.flatten ≤ 8 * s.wrSize.toNat)
    (hneed : mappedEvents xss ≤ s.params.notifyDepth) :
    exec .compile s = .next (s.commit (listPlan s xss)).ok := by
  refine execCompile_of_ok hl ((compilePlan_of_terminated hr hm hok hlt hend).trans ?_)
  rw [listPlan, finalChecks_planOf, if_neg (by omega), if_neg (by omega), if_neg (by omega)]

end

/-- Settles O60: the walk builds the list's plan, the final checks pass, and the plan is committed.
-/
theorem mapListCompilesToItsElements : Obligations.MapListCompilesToItsElements := by
  unfold Obligations.MapListCompilesToItsElements
  intro s xss hl hr hlt hm hok hend hrd hwr hneed
  rw [exec_compile_of_terminated hl hr hm hok hlt hend hrd hwr hneed, State.commit, planOf_entries,
    mappedLayout_length]
  rfl

/-- Settles O59: the walk comes to entry `k` with the list's plan, and there the first check that
fails answers. -/
theorem firstFailingMapCheckIsReported : Obligations.FirstFailingMapCheckIsReported := by
  unfold Obligations.FirstFailingMapCheckIsReported
  rintro s k xss hl hr rfl hle hm hok fails rdBits wrBits
  have entry : ∀ {e : ErrorName} {info : Nat}, xss.length < s.params.mapMax →
      (∀ n, s.walk (n + 1) xss.length (listPlan s xss) = .error (reportAt e info)) →
      fails e.code info := fun hlt h => exec_compile_of_entry_error hl hr hm hok hlt h
  have final : ∀ {e : ErrorName} {info : Nat}, xss.length < s.params.mapMax →
      (s.entry .map xss.length).mapDir = .endMarker →
      s.finalChecks (listPlan s xss) = .error (reportAt e info) → fails e.code info :=
    fun hlt hend h => exec_compile_of_final_error hl hr hm hok hlt hend h
  refine ⟨fun hfull => ?_, fun hlt hd => ?_, fun d hlt hd hi hno => ?_,
    fun d i hlt hd hi hinst hpast => ?_, fun xs m x hlt hmk hx hpre => ?_, fun hlt hend => ?_⟩
  · rw [hfull]
    exact exec_compile_of_full_list hl hr hm hok hfull
  · exact entry hlt fun n => walk_of_invalid hd
  · exact entry hlt fun n => walk_of_unknown hd hi hno
  · exact entry hlt fun n => walk_of_range_error hr hd hi hinst hpast
  · have bad := fun n => walk_entry_of_bad (n := n) (need := mappedEvents xss) hr hmk hx hpre
    exact ⟨fun hmis => entry hlt fun n => (bad n).1 hmis,
      fun hmis hslots => entry hlt fun n => (bad n).2.1 hmis hslots,
      fun hmis hslots hfull => entry hlt fun n => (bad n).2.2 hmis hslots hfull⟩
  · refine ⟨fun hrd => ?_, fun hrd hwr => ?_, fun hrd hwr hneed => ?_⟩
    · exact final hlt hend (by rw [finalChecks_planOf]; exact if_pos hrd)
    · exact final hlt hend (by rw [finalChecks_planOf, if_neg (by omega)]; exact if_pos hwr)
    · exact final hlt hend (by
        rw [finalChecks_planOf, if_neg (by omega), if_neg (by omega)]
        exact if_pos hneed)

end Sys2Proof.Machine
end

section
/-! COMPILE over map lists of pads and of scalar ADIs (41_config_and_compile.md R201 to R220): their
elements, and the reports and layouts they give (O27, O28, O29, O30). -/

namespace Sys2Proof.Machine

open Sys2Proof.Config

/-! ### The item of a pad -/

/-- The item of the pad that map entry `k` names in direction `d` (R201). -/
def State.padItem (s : State) (d : Dir) (k : Nat) : MappedItem where
  dir := d
  type := .pad (s.entry .map k).mapCount.toNat
  span := 1
  slot := 0
  origin := k
  inst := 0
  elem := 0
  hook := .none

section
variable {s : State} {d : Dir} {k : Nat}

theorem mapsTo_padItem (hd : (s.entry .map k).mapDir = .dir d) (hi : (s.entry .map k).mapInst = 0) :
    s.mapsTo k [s.padItem d k] :=
  ⟨d, hd, .inl ⟨hi, _, rfl, rfl⟩⟩

/-- A list of pads passes every check of an element if LAYOUT has room. -/
theorem elementsOk_of_pads {xs : List MappedItem} (hlen : xs.length ≤ s.params.layoutMax)
    (hpad : ∀ x ∈ xs, x.type.isPad = true) : s.elementsOk xs := by
  refine ⟨hlen, fun m x hx => ?_⟩
  have hp := hpad x (List.mem_of_getElem? hx)
  refine ⟨fun ⟨hb, _⟩ => ?_, fun ⟨hdata, _⟩ => ?_⟩
  · rw [(byteClass_width hb).1] at hp
    cases hp
  · rw [hdata] at hp
    cases hp

theorem elementsOk_padItem (h : 1 ≤ s.params.layoutMax) : s.elementsOk [s.padItem d k] :=
  elementsOk_of_pads h fun _ hx => List.mem_singleton.mp hx ▸ rfl

theorem mappedBits_padItem (e : Dir) :
    mappedBits s.params.boolBits e [s.padItem d k] =
      if d = e then (s.entry .map k).mapCount.toNat else 0 := by
  simp [mappedBits_singleton, State.padItem, MappedItem.bits, ElemType.width]

theorem mappedEvents_padItem : mappedEvents [[s.padItem d k]] = 0 := by
  simp [mappedEvents, State.padItem]

end

/-! ### Lists of one map entry -/

theorem mapsTo_singleton {s : State} {xs : List MappedItem} (h : s.mapsTo 0 xs) :
    ∀ j ys, [xs][j]? = some ys → s.mapsTo j ys := by
  rintro (_ | j) ys hj
  · obtain rfl : xs = ys := by simpa using hj
    exact h
  · simp at hj

/-- A list of one map entry has its bits in that entry's direction only. -/
theorem exec_compile_of_one_entry {s : State} {d : Dir} {xs : List MappedItem} {b : Nat}
    (hl : s.layoutValid = false) (hr : s.RegistryOk) (hmax : 2 ≤ s.params.mapMax)
    (hm : s.mapsTo 0 xs) (hok : s.elementsOk xs) (hend : (s.entry .map 1).mapDir = .endMarker)
    (hbits : ∀ e, mappedBits s.params.boolBits e xs = if d = e then b else 0)
    (hfits : b ≤ 8 * s.size d.buf) (hneed : mappedEvents [xs] ≤ s.params.notifyDepth) :
    exec .compile s = .next { s with
      layoutValid := true, layout := mappedLayout s.params.boolBits xs
      layoutCount := BitVec.ofNat 16 xs.length
      rdBits := if d = .read then BitVec.ofNat 32 b else 0
      wrBits := if d = .write then BitVec.ofNat 32 b else 0
      notifyNeed := BitVec.ofNat 8 (mappedEvents [xs])
      draws := s.draws + 1, errcode := 0, errinfo := 0 } := by
  have hflat : [xs].flatten = xs := List.flatten_singleton
  have hcompile := mapListCompilesToItsElements s [xs] hl hr hmax (mapsTo_singleton hm)
    (hflat.symm ▸ hok) hend
  rw [hflat, hbits, hbits] at hcompile
  cases d with
  | read => exact hcompile hfits (Nat.zero_le _) hneed
  | write => exact hcompile (Nat.zero_le _) hfits hneed

/-! ### Lists of pads -/

/-- The direction of a map entry that has one (R59). -/
def TableEntry.padDir (e : TableEntry) : Dir :=
  match e.mapDir with
  | .dir d => d
  | _ => .read

theorem mapDir_eq_padDir {e : TableEntry} (hinv : e.mapDir ≠ .invalid)
    (hend : e.mapDir ≠ .endMarker) : e.mapDir = .dir e.padDir := by
  unfold TableEntry.padDir
  split
  · assumption
  · cases h : e.mapDir <;> simp_all

/-- The first `n` map entries as pads. -/
def State.padList (s : State) (n : Nat) : List (List MappedItem) :=
  (List.range n).map fun k => [s.padItem (s.entry .map k).padDir k]

theorem padList_flatten (s : State) (n : Nat) :
    (s.padList n).flatten = (List.range n).map fun k => s.padItem (s.entry .map k).padDir k := by
  rw [List.map_eq_flatMap, State.padList, List.flatMap_def]

/-- Settles O27: without a terminal entry the walk builds no plan; and over pads that fit LAYOUT it
comes to the end of MAP with every element passed. -/
theorem mapWithoutTerminatorIsRefused : Obligations.MapWithoutTerminatorIsRefused := by
  unfold Obligations.MapWithoutTerminatorIsRefused
  intro s hl hend
  refine ⟨exec_compile_of_no_plan hl fun p hplan => ?_, fun hr hroom hpads => ?_⟩
  · obtain ⟨-, hwalk, -⟩ := compilePlan_ok hplan
    exact walk_ne_ok_of_no_endMarker (fun j _ hj => hend j (by omega)) hwalk
  · have hm : ∀ j xs, (s.padList s.params.mapMax)[j]? = some xs → s.mapsTo j xs := by
      intro j xs hj
      obtain ⟨hlt, hget⟩ := List.getElem?_eq_some_iff.mp hj
      have hjm : j < s.params.mapMax := by simpa [State.padList] using hlt
      obtain ⟨hinv, hinst⟩ := hpads j hjm
      simp only [State.padList, List.getElem_map, List.getElem_range] at hget
      exact hget ▸ mapsTo_padItem (mapDir_eq_padDir hinv (hend j hjm)) hinst
    have hok : s.elementsOk (s.padList s.params.mapMax).flatten := by
      rw [padList_flatten]
      refine elementsOk_of_pads (by simpa using hroom) fun x hx => ?_
      obtain ⟨k, -, rfl⟩ := List.mem_map.mp hx
      rfl
    exact exec_compile_of_full_list hl hr hm hok (by simp [State.padList])

/-- Settles O28: the list's only element is the pad, whose bits the final checks compare with the
buffer. -/
theorem singlePadCompilesOrOverflows : Obligations.SinglePadCompilesOrOverflows := by
  unfold Obligations.SinglePadCompilesOrOverflows
  rintro s d n hl hlegal hr hmax hd hi rfl hend
  have ⟨_, _, _, _, _, ⟨hroom, _⟩, _⟩ := hlegal
  have hm := mapsTo_padItem hd hi
  have hok : s.elementsOk [s.padItem d 0] := elementsOk_padItem hroom
  constructor
  · intro hfits
    rw [exec_compile_of_one_entry hl hr hmax hm hok hend mappedBits_padItem hfits
      (by simp [mappedEvents_padItem]), mappedEvents_padItem]
    simp [mappedLayout, mappedBits, MappedItem.layoutEntry, MappedItem.bits, State.padItem,
      ElemType.isPad, ElemType.width]
  · intro hover
    have hsat := Nat.min_eq_left (a := (s.entry .map 0).mapCount.toNat) (b := 2 ^ 31 - 1)
      (by have := (s.entry .map 0).mapCount.isLt; omega)
    have hflat : [[s.padItem d 0]].flatten = [s.padItem d 0] := rfl
    obtain ⟨-, -, -, -, -, hfinal⟩ := firstFailingMapCheckIsReported s 1 [[s.padItem d 0]] hl hr rfl
      (by omega) (mapsTo_singleton hm) hok
    obtain ⟨hrd, hwr, -⟩ := hfinal hmax hend
    simp only [hflat, mappedBits_padItem] at hrd hwr
    cases d with
    | read =>
      rw [if_pos rfl, hsat] at hrd
      exact hrd hover
    | write =>
      rw [if_pos rfl, hsat] at hwr
      exact hwr (Nat.zero_le _) hover

/-! ### The elements of a scalar ADI -/

/-- Element START + `j` of the scalar ADI of descriptor `i`, of type `t`, that map entry `k` names
in direction `d` (R203). -/
def State.scalarItem (s : State) (d : Dir) (k i : Nat) (t : ElemType) (j : Nat) : MappedItem where
  dir := d
  type := t
  span := 1
  slot := (s.entry .desc i).descBase.toNat + ((s.entry .map k).mapStart.toNat + j)
  origin := k
  inst := (s.entry .map k).mapInst
  elem := (s.entry .map k).mapStart.toNat + j
  hook := (s.entry .desc i).descHook

/-- The first `cnt` elements from START. -/
def State.scalarItems (s : State) (d : Dir) (k i : Nat) (t : ElemType) (cnt : Nat) :
    List MappedItem :=
  (List.range cnt).map (s.scalarItem d k i t)

section
variable {s : State} {d : Dir} {k i cnt : Nat} {t : ElemType}

@[simp] theorem scalarItem_dir (j : Nat) : (s.scalarItem d k i t j).dir = d := rfl

@[simp] theorem scalarItems_length : (s.scalarItems d k i t cnt).length = cnt := by
  simp [State.scalarItems]

theorem getElem?_scalarItems {j : Nat} (hj : j < cnt) :
    (s.scalarItems d k i t cnt)[j]? = some (s.scalarItem d k i t j) := by
  simp [State.scalarItems, hj]

theorem eq_scalarItem_of_getElem? {j : Nat} {x : MappedItem}
    (h : (s.scalarItems d k i t cnt)[j]? = some x) : j < cnt ∧ x = s.scalarItem d k i t j := by
  have hj : j < cnt := by simpa using (List.getElem?_eq_some_iff.mp h).1
  rw [getElem?_scalarItems hj] at h
  exact ⟨hj, (Option.some.inj h).symm⟩

theorem take_scalarItems {j : Nat} (hj : j ≤ cnt) :
    (s.scalarItems d k i t cnt).take j = s.scalarItems d k i t j := by
  rw [State.scalarItems, ← List.map_take, List.take_range, Nat.min_eq_left hj, State.scalarItems]

/-- Consecutive elements of one width fill that width each (R217). -/
theorem mappedBits_scalarItems (bb : BoolBits) (e : Dir) :
    mappedBits bb e (s.scalarItems d k i t cnt) = if d = e then cnt * t.width bb else 0 := by
  induction cnt with
  | zero => simp [State.scalarItems, mappedBits]
  | succ n ih =>
    have hsplit : s.scalarItems d k i t (n + 1) =
        s.scalarItems d k i t n ++ [s.scalarItem d k i t n] := by
      simp [State.scalarItems, List.range_succ]
    rw [hsplit, mappedBits_append, ih, mappedBits_singleton]
    by_cases h : d = e
    · simp [h, State.scalarItem, MappedItem.bits, Nat.succ_mul]
    · simp [h, State.scalarItem]

/-- They give one notification if they are read-direction, at least one, and the ADI's hook notifies
(R219). -/
theorem mappedEvents_scalarItems (hi : (s.entry .map k).mapInst ≠ 0) :
    mappedEvents [s.scalarItems d k i t cnt] =
      if d = .read ∧ 0 < cnt ∧ ((s.entry .desc i).descHook = .notifyOnSet ∨
        (s.entry .desc i).descHook = .validateOnSet) then 1 else 0 := by
  cases cnt with
  | zero => simp [State.scalarItems, mappedEvents]
  | succ n =>
    have hcons : s.scalarItems d k i t (n + 1) =
        s.scalarItem d k i t 0 :: (List.range n).map fun j => s.scalarItem d k i t (j + 1) := by
      simp [State.scalarItems, List.range_succ_eq_map]
    rw [hcons, mappedEvents, List.filter_cons, List.filter_nil]
    simp only [State.scalarItem, decide_eq_true_eq, hi, Nat.succ_pos, true_and, ne_eq,
      not_false_eq_true]
    split <;> rfl

theorem mapsTo_scalarItems (hd : (s.entry .map k).mapDir = .dir d)
    (hi : (s.entry .map k).mapInst ≠ 0) (hid : i < s.descs)
    (hinst : (s.entry .desc i).descInst = (s.entry .map k).mapInst)
    (hscalar : (s.entry .desc i).descStruct = false)
    (ht : elemType (s.entry .desc i).descType = some t)
    (hrange : s.elementRange k (s.entry .desc i).descNelem.toNat cnt) :
    s.mapsTo k (s.scalarItems d k i t cnt) := by
  refine ⟨d, hd, .inr ⟨hi, i, cnt, hid, hinst, hrange, scalarItems_length, fun m x hx => ?_⟩⟩
  obtain ⟨-, rfl⟩ := eq_scalarItem_of_getElem? hx
  exact ⟨rfl, rfl, rfl, rfl, rfl, by rw [hscalar]; exact ⟨ht, rfl, rfl⟩⟩

/-- From a byte boundary on, consecutive elements with room pass every check: a byte-class width
keeps the boundary (R214 to R216). -/
theorem elementsOk_scalarItems (hroom : cnt ≤ s.params.layoutMax)
    (hslots : (s.entry .desc i).descBase.toNat + (s.entry .map k).mapStart.toNat + cnt ≤
      s.params.vsSlots) : s.elementsOk (s.scalarItems d k i t cnt) := by
  refine ⟨scalarItems_length.trans_le hroom, fun m x hx => ?_⟩
  obtain ⟨hm, rfl⟩ := eq_scalarItem_of_getElem? hx
  refine ⟨fun ⟨hb, hmis⟩ => hmis ?_, fun ⟨_, hlack⟩ => ?_⟩
  · have hwidth := Nat.dvd_of_mod_eq_zero (byteClass_width hb).2
    rw [take_scalarItems hm.le, mappedBits_scalarItems, scalarItem_dir, if_pos rfl]
    exact Nat.mod_eq_zero_of_dvd (hwidth.mul_left m)
  · simp only [State.scalarItem] at hlack
    omega

/-- Element `j` stands at bit `j` times the width (R217). -/
theorem getElem?_mappedLayout_scalarItems (bb : BoolBits) {j : Nat} (hj : j < cnt) :
    (mappedLayout bb (s.scalarItems d k i t cnt))[j]? =
      some ((s.scalarItem d k i t j).layoutEntry bb (j * t.width bb)) := by
  rw [mappedLayout, List.getElem?_mapIdx, getElem?_scalarItems hj, Option.map_some,
    take_scalarItems hj.le, mappedBits_scalarItems, scalarItem_dir, if_pos rfl]

end

/-- Settles O29: the entry's elements, each at the end of the ones before it, are the whole list. -/
theorem scalarEntryExpandsToConsecutiveElements :
    Obligations.ScalarEntryExpandsToConsecutiveElements := by
  unfold Obligations.ScalarEntryExpandsToConsecutiveElements
  intro s d i cnt t hl hlegal hr hmax hd hend hid hinst hscalar ht hdata hcount hslots hroom hfits
  have ⟨_, _, _, _, _, _, ⟨hdepth, _⟩⟩ := hlegal
  have ⟨_, _, hvalid, _⟩ := hr
  have hi : (s.entry .map 0).mapInst ≠ 0 := hinst ▸ descInst_ne_zero (hvalid i hid)
  have hrange : s.elementRange 0 (s.entry .desc i).descNelem.toNat cnt := by
    rcases hcount with ⟨h0, hsum⟩ | ⟨h0, hcnt, hsum⟩
    · exact ⟨hsum.le, by rwa [if_pos h0]⟩
    · exact ⟨hsum, by rw [if_neg h0, hcnt]⟩
  have hm := mapsTo_scalarItems hd hi hid hinst.symm hscalar ht hrange
  have hok : s.elementsOk (s.scalarItems d 0 i t cnt) := elementsOk_scalarItems hroom hslots
  have hevents := mappedEvents_scalarItems (d := d) (i := i) (t := t) (cnt := cnt) hi
  refine ⟨mappedLayout s.params.boolBits (s.scalarItems d 0 i t cnt), ?_, by simp, fun j hj => ?_⟩
  · rw [exec_compile_of_one_entry hl hr hmax hm hok hend (mappedBits_scalarItems _) hfits
      (by rw [hevents]; split <;> omega), hevents, scalarItems_length, apply_ite (BitVec.ofNat 8)]
    rfl
  · rw [getElem?_mappedLayout_scalarItems _ hj, ← hinst]
    simp [MappedItem.layoutEntry, State.scalarItem, hdata]

/-- Settles O30: after the pad the read or write cursor is off a byte boundary, where the first
element of the entry fails. -/
theorem misalignedByteElementIsRefused : Obligations.MisalignedByteElementIsRefused := by
  unfold Obligations.MisalignedByteElementIsRefused
  intro s d i t hl hlegal hr hmax hd hi0 hodd hd1 hid hinst hscalar ht hbyte hcount hsum
  have ⟨_, _, _, _, _, ⟨hroom, _⟩, _⟩ := hlegal
  have ⟨_, _, hvalid, _⟩ := hr
  have hi : (s.entry .map 1).mapInst ≠ 0 := hinst ▸ descInst_ne_zero (hvalid i hid)
  have hm := mapsTo_scalarItems hd1 hi hid hinst.symm hscalar ht
    (cnt := (s.entry .map 1).mapCount.toNat) ⟨hsum, by rw [if_neg hcount]⟩
  have hpos : 0 < (s.entry .map 1).mapCount.toNat := by
    rw [Nat.pos_iff_ne_zero]
    exact fun hz => hcount (BitVec.eq_of_toNat_eq hz)
  have hok : s.elementsOk [s.padItem d 0] := elementsOk_padItem hroom
  obtain ⟨-, -, -, -, helem, -⟩ := firstFailingMapCheckIsReported s 1 [[s.padItem d 0]] hl hr rfl
    (by omega) (mapsTo_singleton (mapsTo_padItem hd hi0)) hok
  refine (helem _ 0 _ hmax hm (getElem?_scalarItems hpos) hok).1 ⟨hbyte, ?_⟩
  show mappedBits s.params.boolBits d [s.padItem d 0] % 8 ≠ 0
  rwa [mappedBits_padItem, if_pos rfl]

end Sys2Proof.Machine
end

section
/-! The fields that the codec commands read and write (40_codec.md R143 to R156: O12, O13, O16,
O20). -/

namespace Sys2Proof.Machine

/-! ### Reads -/

/-- RESULT of a codec read, bit by bit (20_memory.md R82; 40_codec.md R143). -/
theorem getLsbD_result (m : Memory) (p w : Nat) {i : Nat} (hi : i < 32) :
    ((fieldRead m p w).setWidth 32).getLsbD i =
      (decide (i < w) && (Memory.read m ((p + i) / 8)).getLsbD ((p + i) % 8)) := by
  rw [BitVec.getLsbD_setWidth, decide_eq_true hi, Bool.true_and, getLsbD_fieldRead, Memory.bitAt]

/-- Settles O12: both commands are the codec read of their field, in bounds. -/
theorem readCommandsReturnTheField : Obligations.ReadCommandsReturnTheField := by
  unfold Obligations.ReadCommandsReturnTheField
  refine ⟨fun s buf width bitOff byteOff hfits => ?_, fun s buf width hfits => ?_⟩
  · exact ⟨_, congrArg Host.Outcome.next (codecRead_of_fits hfits), fun i => getLsbD_result _ _ _⟩
  · exact ⟨_, congrArg Host.Outcome.next (codecRead_of_fits hfits), fun i => getLsbD_result _ _ _⟩

/-! ### Writes -/

/-- Settles O13: the buffer after the write is the field write of ARG. -/
theorem writeCommandsWriteExactlyTheField : Obligations.WriteCommandsWriteExactlyTheField := by
  unfold Obligations.WriteCommandsWriteExactlyTheField
  intro s i buf p w hf hwf hfits
  refine ⟨fieldWrite (s.mem buf) p s.arg w, ?_, fieldWrite_wf hwf p s.arg w,
    bitAt_fieldWrite hwf p s.arg w, fun a ha => ?_⟩
  · rw [exec_of_writtenField hf, codecWrite_of_fits hfits]
    rfl
  · rcases Nat.eq_zero_or_pos w with rfl | hw
    · rfl
    · exact read_fieldWrite_of_outside hwf p s.arg w a (by omega)

/-- A byte inside a byte-aligned field takes its eight bits of the value (20_memory.md R84). -/
theorem read_fieldWrite_of_aligned {n : Nat} {m : Memory} (h : Memory.wf m) {b k j : Nat}
    (v : BitVec n) (hj : j < k) :
    Memory.read (fieldWrite m (8 * b) v (8 * k)) (b + j) = v.extractLsb' (8 * j) 8 := by
  apply BitVec.eq_of_getLsbD_eq
  intro i hi
  have hbit := bitAt_fieldWrite h (8 * b) v (8 * k) (8 * (b + j) + i)
  rw [Memory.bitAt, if_pos (by omega), show (8 * (b + j) + i) / 8 = b + j by omega,
    show (8 * (b + j) + i) % 8 = i by omega,
    show 8 * (b + j) + i - 8 * b = 8 * j + i by omega] at hbit
  rw [hbit, BitVec.getLsbD_extractLsb', decide_eq_true hi, Bool.true_and]

/-- Settles O20: the field begins at bit 8·BYTEOFF and is 8k bits wide, so it is whole bytes. -/
theorem alignedFieldIsLittleEndian : Obligations.AlignedFieldIsLittleEndian := by
  unfold Obligations.AlignedFieldIsLittleEndian
  intro s buf byteOff k hwf hk hfits
  have hpos : codecPos 0 byteOff = 8 * byteOff.toNat := rfl
  have hwidth : (BitVec.ofNat 6 (8 * k)).toNat = 8 * k := by
    rw [BitVec.toNat_ofNat]
    omega
  have hmem : (codecWrite buf (codecPos 0 byteOff) (BitVec.ofNat 6 (8 * k)).toNat s).mem buf =
      fieldWrite (s.mem buf) (8 * byteOff.toNat) s.arg (8 * k) := by
    rw [hpos, hwidth]
    exact mem_codecWrite_of_fits (by omega)
  refine ⟨_, rfl, fun j hj => ?_, fun a ha => ?_⟩
  · rw [hmem, read_fieldWrite_of_aligned hwf s.arg hj]
  · rw [hmem, read_fieldWrite_of_outside hwf _ s.arg _ a (by omega)]

/-! ### SKIP -/

/-- Settles O16: the sum of CURSOR and the extended N is the sum of their values modulo 2^32. -/
theorem skipAddsToTheCursor : Obligations.SkipAddsToTheCursor := by
  unfold Obligations.SkipAddsToTheCursor
  intro s n
  have hsum : s.cursor + n.setWidth 32 = BitVec.ofNat 32 (s.cursor.toNat + n.toNat) := by
    rw [BitVec.ofNat_add, BitVec.ofNat_toNat, BitVec.ofNat_toNat, BitVec.setWidth_eq]
  rw [← hsum]
  rfl

end Sys2Proof.Machine
end

section
/-! SETSZ (41_config_and_compile.md R180, R181: O21), and reset and the state right after it
(70_reset_and_hazards.md R300 to R302: O51, O52). -/

namespace Sys2Proof.Machine

/-- Settles O21: the size check decides between the two outcomes, and an empty memory reads 0. -/
theorem setszSetsBothSizesOrOnlyReports : Obligations.SetszSetsBothSizesOrOnlyReports := by
  unfold Obligations.SetszSetsBothSizesOrOnlyReports
  intro s
  constructor
  · rintro ⟨hrd, hwr⟩
    have hsizes : ¬ (s.argReadSize.toNat > s.params.pdMaxBytes ∨
        s.argWriteSize.toNat > s.params.pdMaxBytes) := not_or.mpr ⟨hrd.not_gt, hwr.not_gt⟩
    refine ⟨_, if_neg hsizes, rfl, fun b a => ?_⟩
    cases b <;> exact read_nil a
  · exact fun hbig => if_pos hbig

/-! ### Reset -/

/-- STATUS is 0 at reset, all its flags and counts being 0 (10_state.md R36). -/
theorem status_resetWith (p : Config.Params) (draw : Nat) (sched : List Event)
    (replies : List (BitVec 64)) : (State.resetWith p draw sched replies).status = 0 := by
  simp [State.status, State.nqCount, State.errFlag, State.resetWith]

/-- Settles O51: the step is the reset, which draws VS and the tables anew and empties the buffers.
-/
theorem resetRestoresTheResetState : Obligations.ResetRestoresTheResetState := by
  unfold Obligations.ResetRestoresTheResetState
  intro s rest hs
  have hstep : step s = .next (State.assertReset { s with sched := rest }) := by
    simp [step, nextEvent, hs, runEvent]
  have hread : ∀ b a, Memory.read ((State.assertReset { s with sched := rest }).mem b) a = 0 := by
    intro b a
    cases b <;> exact read_nil a
  exact ⟨_, hstep, rfl, rfl, rfl, rfl, rfl, rfl, rfl, rfl, rfl, status_resetWith .., rfl, rfl, rfl,
    rfl, rfl, rfl, rfl, rfl, hread, by simp [State.assertReset, State.resetWith], drawnTable_length ..,
    drawnTable_length .., drawnTable_length .., rfl, rfl, rfl⟩

/-- With both sizes 0 a codec access succeeds exactly if it names no bit of the buffer (R302). -/
theorem CodecAccess.errcode_of_empty {i : Instr} {s : State} {buf : Buf} {p w : Nat}
    (h : CodecAccess i s buf p w) (hsize : s.size buf = 0) :
    (0 < p + w → ∃ t, exec i s = .next t ∧ t.errcode = 0x01#8) ∧
      (p + w = 0 → ∃ t, exec i s = .next t ∧ t.errcode = 0) := by
  refine ⟨fun hpos => ⟨_, h.exec_of_overrun (by omega), rfl⟩, fun hzero => ?_⟩
  obtain ⟨t, hx, hok, -⟩ := h.exec_of_fits (by omega)
  exact ⟨t, hx, hok⟩

/-- Settles O52: after reset both sizes, CURSOR and DESC_COUNT are 0 and there is no layout. -/
theorem rightAfterReset : Obligations.RightAfterReset := by
  unfold Obligations.RightAfterReset
  intro p draw sched replies buf
  have hsize : (State.resetWith p draw sched replies).size buf = 0 := by cases buf <;> rfl
  refine ⟨fun width bitOff byteOff i hi => ?_, fun width i hi => ?_, ?_, ?_, ?_⟩
  · exact (codecAccess_of_positional _ hi).errcode_of_empty hsize
  · have hacc := codecAccess_of_cursor (State.resetWith p draw sched replies) hi
    have hcursor : (State.resetWith p draw sched replies).cursor.toNat = 0 := rfl
    rw [hcursor] at hacc
    simpa using hacc.errcode_of_empty hsize
  · exact ⟨_, exec_pack_of_no_layout rfl, rfl⟩
  · exact ⟨_, exec_unpack_of_no_layout rfl, rfl⟩
  · obtain ⟨t, hx, -, hcode, -⟩ :=
      (descriptorCountIsCheckedFirst (State.resetWith p draw sched replies) rfl).2 rfl
    exact ⟨t, hx, hcode⟩

end Sys2Proof.Machine
end

section
/-! PACK's fatal stop (42_pack_unpack.md R242: O35) and the round trip PACK, copy, UNPACK (R256:
O41). -/

namespace Sys2Proof.Machine

theorem exec_pack_of_overrun {s : State} {n : Nat} (hl : s.layoutValid = true)
    (ho : s.overrun .write = some n) :
    exec .pack s = .next (s.fatalFail (reportAt .outOfBounds n)) := by
  simp [exec, execPack, hl, ho]

/-- Settles O35: the bounds check finds the entry, and PACK writes the fatal report only. -/
theorem packStopsFatallyAtTheFirstOverrun : Obligations.PackStopsFatallyAtTheFirstOverrun := by
  unfold Obligations.PackStopsFatallyAtTheFirstOverrun
  intro s n e hl he hd hk hend hmin
  exact exec_pack_of_overrun hl (overrun_eq_some he hd hk hend hmin)

/-- Two memories that agree on the bytes below a bound agree on every field that ends below it. -/
theorem fieldRead_of_agree {m m' : Memory} {n p w : Nat}
    (h : ∀ a, a < n → Memory.read m a = Memory.read m' a) (hend : p + w ≤ 8 * n) :
    fieldRead m p w = fieldRead m' p w := by
  apply fieldRead_congr
  intro i hi
  rw [Memory.bitAt, Memory.bitAt, h _ (by omega)]

/-- The items of the write-direction data entries of a good layout are WIDTH bits apart (R225 d). -/
theorem stride_of_copies {s : State} (hok : s.LayoutOk) {e : LayoutEntry} (he : e ∈ s.layout)
    (hc : e.copies .write = true) : e.stride.toNat = e.width.toNat ∧ 1 ≤ e.width.toNat :=
  have ⟨hstride, hwidth, _⟩ := data_entry_ranges hok he ((copies_iff e _).mp hc).2
  ⟨hstride, hwidth⟩

/-- Settles O41: the read entry's item is the write entry's field of the copy, which is the packed
value, and no later entry names its slot. -/
theorem packCopyUnpackReturnsTheValues : Obligations.PackCopyUnpackReturnsTheValues := by
  unfold Obligations.PackCopyUnpackReturnsTheValues
  intro s t m pre post ew er i hl hok hwf hvs hroom hpack hcopy hew hewd hewk hsplit herd herk hpos
    hwidth hspan hi hpost
  rw [exec_pack_of_layoutOk hl hok] at hpack
  obtain rfl := Host.Outcome.next.inj hpack
  have her : er ∈ s.layout := hsplit ▸ List.mem_append_right pre List.mem_cons_self
  obtain ⟨hstride, -, hslot⟩ := data_entry_ranges hok her herk
  have hewc : ew.copies .write = true := (copies_iff ew _).mpr ⟨hewd, hewk⟩
  obtain ⟨hstride', hwidth'⟩ := stride_of_copies hok hew hewc
  have ⟨_, _, _, htiles, _⟩ := hok
  have hitem : er.itemPos i = ew.itemPos i := by
    rw [LayoutEntry.itemPos, LayoutEntry.itemPos, hpos, hstride, hstride', hwidth]
  have hend : ew.itemPos i + ew.width.toNat ≤ 8 * s.wrSize.toNat := by
    have hle := endPos_le hok hew
    rw [hewd] at hle
    have ⟨_, hlast⟩ := covers_itemPos_add hstride' (hspan ▸ hi) (Nat.sub_one_lt_of_lt hwidth')
    change _ ≤ 8 * s.wrSize.toNat at hle
    omega
  have hvalue : itemValue m er i =
      ((s.vsSlot (ew.slot.toNat + i)).setWidth ew.width.toNat).setWidth 64 := by
    rw [itemValue, hitem, hwidth, fieldRead_of_agree hcopy hend]
    exact congrArg _ (fieldRead_packEntries hwf htiles (fun _ => stride_of_copies hok) hew hewc
      (hspan ▸ hi))
  refine ⟨_, exec_unpack_of_layoutOk hl ?_ ((lacksRoom_eq_false_iff _).mpr hroom), rfl, ?_⟩
  · exact layoutOk_congr hok rfl rfl rfl rfl rfl rfl rfl rfl rfl rfl rfl rfl
  · have hnames : er.names (er.slot.toNat + i) :=
      (names_iff er _).mpr ⟨herd, herk, by omega, by omega⟩
    show (unpackEntries m s.layout s.vs)[er.slot.toNat + i]? = _
    rw [hsplit, getElem?_unpackEntries_last m pre post er s.vs _ hnames (by omega),
      Nat.add_sub_cancel_left, hvalue]
    intro f hf hfnames
    obtain ⟨hfd, hfk, hlo, hhi⟩ := (names_iff f _).mp hfnames
    have := hpost f hf hfd hfk
    omega

end Sys2Proof.Machine
end

section
/-! Port accesses by either agent, and those to the registers (10_state.md R33 to R47; 20_memory.md
R88: O42 to O45, O49). -/

namespace Sys2Proof.Machine

/-! ### The step of a port access -/

/-- A pop of NQ leaves the queue's tail (R47). -/
theorem popNq_eq (s : State) : s.popNq = { s with nq := s.nq.tail } := by
  unfold State.popNq
  split
  · rename_i hnq
    have htail : s.nq.tail = s.nq := by rw [hnq]; rfl
    rw [htail]
  · rename_i hnq
    rw [hnq]
    rfl

section
variable {s : State} {a : Access} {rest : List Event}

theorem readValue_with_sched (s : State) (rest : List Event) (a : Access) :
    ({ s with sched := rest } : State).readValue a = s.readValue a := by
  cases a <;> rfl

/-- An access does what it does whatever is scheduled after it. -/
theorem accessEffect_with_sched (s : State) (rest : List Event) (a : Access) :
    ({ s with sched := rest } : State).accessEffect a =
      { s.accessEffect a with sched := rest } := by
  cases a with
  | regRead off =>
    simp only [State.accessEffect, State.regReadEffect]
    split
    · rw [popNq_eq, popNq_eq]
    · rfl
  | regWrite off v =>
    simp only [State.accessEffect, State.regWrite]
    split
    · rfl
    · rfl
    · split <;> rfl
    · rfl
  | bufWrite buf i v =>
    simp only [State.accessEffect, State.bufWrite]
    split
    · cases buf <;> rfl
    · rfl
  | vsWrite i v =>
    simp only [State.accessEffect, State.vsWrite]
    split <;> rfl
  | tableWrite tab i j v =>
    have hmax : ({ s with sched := rest } : State).tableMax tab = s.tableMax tab := by
      cases tab <;> rfl
    simp only [State.accessEffect, State.tableWrite, hmax]
    split
    · rfl
    · split
      · cases tab <;> rfl
      · rfl
  | _ => rfl

section
variable (hb : s.busy = false) (h : s.accesses a rest)
include hb h

/-- A read that changes nothing replies its value. -/
theorem step_of_read {v : BitVec 64} (he : s.accessEffect a = s) (hv : s.readValue a = some v) :
    step s = .next { s with sched := rest, replies := v :: s.replies } := by
  rw [step_of_accesses hb h, accessEffect_with_sched, readValue_with_sched, he, hv]
  rfl

/-- A write replies nothing. -/
theorem step_of_write {t : State} (he : s.accessEffect a = t) (hv : s.readValue a = none) :
    step s = .next { t with sched := rest } := by
  rw [step_of_accesses hb h, accessEffect_with_sched, readValue_with_sched, he, hv]
  rfl

end

/-- Two steps, the second an access by either agent. -/
theorem run_two_of_steps {u t : State} (h1 : step s = .next u) (h2 : step u = .next t) :
    Host.Core.run Sys2Proof.core 2 s = .next t := by
  rw [Laws.run_of_step (M := Sys2Proof.core) h1]
  exact Laws.run_of_step (M := Sys2Proof.core) h2

theorem accesses_of_mem {e : Event} (he : e ∈ [Event.host a, .transport a])
    (h : s.sched = e :: rest) : s.accesses a rest := by
  simp only [List.mem_cons, List.not_mem_nil, or_false] at he
  rcases he with rfl | rfl
  · exact .inl h
  · exact .inr h

end

/-! ### Registers -/

/-- The offset of a register (10_state.md section 2). -/
def Reg.offset : Reg → Nat
  | .cmd => 0x00
  | .arg => 0x04
  | .result => 0x08
  | .status => 0x0C
  | .errinfo => 0x10
  | .cursor => 0x14
  | .pdsize => 0x18
  | .descCount => 0x1C
  | .layoutCount => 0x20
  | .rdBits => 0x24
  | .wrBits => 0x28
  | .notifyNeed => 0x2C
  | .notifyPop => 0x30

/-- Each register stands at its own offset only. -/
theorem regAt_eq_some_iff (off : Nat) (r : Reg) : regAt off = some r ↔ off = r.offset := by
  constructor
  · intro h
    unfold regAt at h
    split at h <;> cases h <;> rfl
  · rintro rfl
    cases r <;> rfl

theorem regAt_offset (r : Reg) : regAt r.offset = some r :=
  (regAt_eq_some_iff _ r).mpr rfl

section
variable {s : State} {off : Nat} {rest : List Event} (hb : s.busy = false)

/-- Only the read of NOTIFY_POP has an effect (R47; 20_memory.md R89). -/
theorem regReadEffect_of_ne (h : off ≠ 0x30) : s.regReadEffect off = s := by
  unfold State.regReadEffect
  split
  · rename_i hpop
    exact absurd ((regAt_eq_some_iff off .notifyPop).mp hpop) h
  · rfl

include hb in
/-- A read of a register other than NOTIFY_POP replies its value and changes nothing. -/
theorem step_of_regRead {r : Reg} (hr : r ≠ .notifyPop) (h : s.accesses (.regRead r.offset) rest) :
    step s = .next { s with
      sched := rest, replies := (s.regValue r).setWidth 64 :: s.replies } := by
  have hoff : r.offset ≠ Reg.notifyPop.offset := fun he =>
    hr (Option.some.inj ((regAt_offset r).symm.trans ((regAt_eq_some_iff _ _).mpr he)))
  exact step_of_read hb h (regReadEffect_of_ne hoff)
    (by rw [State.readValue, State.regReadValue, regAt_offset])

/-- A write at every offset but those of CMD, ARG and DESC_COUNT is ignored. -/
theorem regWrite_of_other (h : off ∉ [0x00, 0x04, 0x1C]) (v : Word) : s.regWrite off v = s := by
  simp only [List.mem_cons, List.not_mem_nil, or_false, not_or] at h
  obtain ⟨hcmd, harg, hcount⟩ := h
  unfold State.regWrite
  split
  · exact absurd ((regAt_eq_some_iff off .cmd).mp ‹_›) hcmd
  · exact absurd ((regAt_eq_some_iff off .arg).mp ‹_›) harg
  · exact absurd ((regAt_eq_some_iff off .descCount).mp ‹_›) hcount
  · rfl

end

/-- The STATUS word bit by bit (10_state.md R36). -/
theorem getLsbD_status (s : State) (i : Nat) :
    s.status.getLsbD i =
      if i = 0 then s.busy else if i = 1 then s.errFlag else if i = 2 then s.fatal
      else if i = 3 then s.layoutValid else if i < 8 then false
      else if i < 16 then s.errcode.getLsbD (i - 8)
      else if i < 24 then s.nqCount.getLsbD (i - 16) else false := by
  by_cases hi : i < 32
  · simp only [State.status, BitVec.getLsbD_append]
    interval_cases i <;> simp
  · rw [BitVec.getLsbD_of_ge _ _ (by omega), if_neg (by omega), if_neg (by omega),
      if_neg (by omega), if_neg (by omega), if_neg (by omega), if_neg (by omega), if_neg (by omega)]

/-- Settles O42: the fields by their place in the word, the read by `portAccess_statusRead`. -/
theorem statusWordFields : Obligations.StatusWordFields := by
  unfold Obligations.StatusWordFields
  intro s
  have field : ∀ {start len : Nat} (x : BitVec len),
      (∀ i, i < len → s.status.getLsbD (start + i) = x.getLsbD i) →
      s.status.extractLsb' start len = x := fun x h =>
    BitVec.eq_of_getLsbD_eq fun i hi => by
      rw [BitVec.getLsbD_extractLsb', decide_eq_true hi, Bool.true_and, h i hi]
  refine ⟨⟨getLsbD_zero_status s, ?_, getLsbD_status s 2, getLsbD_status s 3,
    field 0 fun i hi => ?_, field s.errcode fun i hi => ?_, field s.nqCount fun i hi => ?_, field 0 fun i hi => ?_⟩,
    fun rest h => ?_⟩
  · rw [getLsbD_status]
    exact decide_eq_true_iff
  · grind [getLsbD_status]
  · grind [getLsbD_status]
  · grind [getLsbD_status]
  · grind [getLsbD_status]
  · rw [step_eq_portAccess h]
    exact portAccess_statusRead { s with sched := rest }

/-- Settles O43: CMD latches on a write and reads 0. -/
theorem commandWriteLatchesTheWord : Obligations.CommandWriteLatchesTheWord := by
  unfold Obligations.CommandWriteLatchesTheWord
  intro s c rest hb
  exact ⟨fun h => step_of_write hb h rfl rfl, fun h => step_of_regRead (r := .cmd) hb nofun h⟩

/-- PDSIZE as a number (10_state.md R42). -/
theorem pdsize_toNat (s : State) :
    s.pdsize.toNat = 2 ^ 16 * s.wrSize.toNat + s.rdSize.toNat := by
  rw [State.pdsize, BitVec.toNat_append, ← Nat.shiftLeft_add_eq_or_of_lt s.rdSize.isLt,
    Nat.shiftLeft_eq, Nat.mul_comm]

/-- DESC_COUNT takes the low half of the word while no layout locks it (10_state.md R43, R57). -/
theorem step_of_descCountWrite {s : State} {v : Word} {rest : List Event} (hb : s.busy = false)
    (hv : s.layoutValid = false) (h : s.accesses (.regWrite 0x1C v) rest) :
    step s = .next { s with sched := rest, descCount := v.extractLsb' 0 16 } :=
  step_of_write hb h (if_neg (by simp [hv])) rfl

/-- Settles O44: each offset of the list is a register's, whose value is the field, zero-extended.
-/
theorem argAndDescCountTakeWrites : Obligations.ArgAndDescCountTakeWrites := by
  unfold Obligations.ArgAndDescCountTakeWrites
  intro s rest hb
  refine ⟨fun off x hmem h => ?_, fun v h => step_of_write hb h rfl rfl,
    fun v h hv => step_of_descCountWrite hb hv h⟩
  · have read : ∀ r : Reg, r ≠ .notifyPop → off = r.offset → x = (s.regValue r).toNat →
        step s = .next { s with sched := rest, replies := BitVec.ofNat 64 x :: s.replies } := by
      rintro r hr rfl rfl
      rw [step_of_regRead hb hr h, BitVec.ofNat_toNat]
    simp only [List.mem_cons, List.not_mem_nil, or_false, Prod.mk.injEq] at hmem
    rcases hmem with ⟨rfl, rfl⟩ | ⟨rfl, rfl⟩ | ⟨rfl, rfl⟩ | ⟨rfl, rfl⟩ | ⟨rfl, rfl⟩ | ⟨rfl, rfl⟩ |
      ⟨rfl, rfl⟩ | ⟨rfl, rfl⟩ | ⟨rfl, rfl⟩ | ⟨rfl, rfl⟩
    · exact read .arg nofun rfl rfl
    · exact read .result nofun rfl rfl
    · exact read .errinfo nofun rfl rfl
    · exact read .cursor nofun rfl rfl
    · exact read .pdsize nofun rfl (pdsize_toNat s).symm
    · exact read .descCount nofun rfl (BitVec.toNat_setWidth_of_le (by decide)).symm
    · exact read .layoutCount nofun rfl (BitVec.toNat_setWidth_of_le (by decide)).symm
    · exact read .rdBits nofun rfl rfl
    · exact read .wrBits nofun rfl rfl
    · exact read .notifyNeed nofun rfl (BitVec.toNat_setWidth_of_le (by decide)).symm

/-- Settles O45: such a write finds no register that takes it, such a read none at all. -/
theorem otherRegisterWritesAreIgnored : Obligations.OtherRegisterWritesAreIgnored := by
  unfold Obligations.OtherRegisterWritesAreIgnored
  intro s off v rest hb
  refine ⟨fun hoff h => step_of_write hb h (regWrite_of_other hoff v) rfl, fun hoff h => ?_⟩
  have hnone : regAt off = none := by
    rw [Option.eq_none_iff_forall_ne_some]
    intro r hr
    rw [(regAt_eq_some_iff off r).mp hr] at hoff
    cases r <;> exact hoff (by decide)
  have hpop : off ≠ 0x30 := fun he => hoff (by simp [he])
  exact step_of_read hb h (regReadEffect_of_ne hpop)
    (by rw [State.readValue, State.regReadValue, hnone]; rfl)

/-- Settles O49: the read of NOTIFY_POP pops the queue, and no event word is 0. -/
theorem notifyPopTakesTheHead : Obligations.NotifyPopTakesTheHead := by
  unfold Obligations.NotifyPopTakesTheHead
  intro s rest hb
  have hread : s.accesses (.regRead 0x30) rest → step s = .next { s with
      sched := rest, nq := s.nq.tail, replies := s.nqHead.setWidth 64 :: s.replies } := by
    intro h
    rw [step_of_accesses hb h, accessEffect_with_sched, readValue_with_sched,
      show s.accessEffect (.regRead 0x30) = s.popNq from rfl, popNq_eq]
    rfl
  refine ⟨fun e es hnq h => ?_, fun hnq h => ?_, fun v h => ?_, fun e es hrange hnq he => ?_⟩
  · rw [hread h, State.nqHead, hnq]
    rfl
  · have htail : s.nq.tail = s.nq := by rw [hnq]; rfl
    rw [hread h, htail, State.nqHead, hnq]
    rfl
  · exact step_of_write hb h (regWrite_of_other (off := 0x30) (by decide) v) rfl
  · obtain ⟨-, -, -, hev⟩ := hrange
    have hok := hev e (by simp [hnq])
    rw [he] at hok
    exact absurd hok (by decide)

end Sys2Proof.Machine
end

section
/-! The memory ports (20_memory.md R88): reads and writes in range (O47) and out of range (O48), the
lock of the tables (10_state.md R57: O46) and the read-back of LAYOUT (R62: O50). -/

namespace Sys2Proof.Machine

/-! ### Table words -/

theorem word_eq {e : TableEntry} {j : Nat} (hj : j < 2) :
    e.word j = if j = 0 then e.w0 else e.w1 := by
  interval_cases j <;> rfl

theorem word_of_ge (e : TableEntry) {j : Nat} (hj : 2 ≤ j) : e.word j = 0 := by
  unfold TableEntry.word
  split
  · omega
  · omega
  · rfl

theorem withWord_of_ge (e : TableEntry) {j : Nat} (v : Word) (hj : 2 ≤ j) : e.withWord j v = e := by
  unfold TableEntry.withWord
  split
  · omega
  · omega
  · rfl

/-- The other word of an entry keeps its value (R88). -/
theorem word_withWord (e : TableEntry) {j j' : Nat} (v : Word) (hj : j < 2) (hj' : j' < 2) :
    (e.withWord j v).word j' = if j' = j then v else e.word j' := by
  interval_cases j <;> interval_cases j' <;> rfl

theorem table_withTable (tab : Table) (es : List TableEntry) (s : State) :
    (s.withTable tab es).table tab = es := by
  cases tab <;> rfl

theorem tableMax_withTable (tab : Table) (es : List TableEntry) (s : State) :
    (s.withTable tab es).tableMax tab = s.tableMax tab := by
  cases tab <;> rfl

section
variable {s : State} {tab : Table} {i : Nat}

theorem entry_of_getElem? {e : TableEntry} (h : (s.table tab)[i]? = some e) :
    s.entry tab i = e := by
  rw [State.entry, List.getD_eq_getElem?_getD, h, Option.getD_some]

theorem getElem?_table (h : i < (s.table tab).length) :
    (s.table tab)[i]? = some (s.entry tab i) := by
  rw [entry_of_getElem? (List.getElem?_eq_getElem h), List.getElem?_eq_getElem h]

/-- An index past the table's entries is not written (R88). -/
theorem table_set_of_ge_two {j : Nat} (v : Word) (hj : 2 ≤ j) :
    (s.table tab).set i ((s.entry tab i).withWord j v) = s.table tab := by
  rw [withWord_of_ge _ v hj]
  rcases Nat.lt_or_ge i (s.table tab).length with hi | hi
  · have hget := getElem?_table hi
    rw [List.getElem?_eq_getElem hi] at hget
    rw [← Option.some.inj hget, List.set_getElem_self]
  · exact List.set_eq_of_length_le hi

end

theorem withTable_self (tab : Table) (s : State) : s.withTable tab (s.table tab) = s := by
  cases tab <;> rfl

theorem table_length_of_memoriesOk {s : State} (h : s.MemoriesOk) (tab : Table) :
    (s.table tab).length = s.tableMax tab := by
  obtain ⟨-, -, -, -, -, hdesc, hmemb, hmap⟩ := h
  cases tab with
  | desc => exact hdesc
  | memb => exact hmemb
  | map => exact hmap

/-! ### The steps of the memory ports -/

section
variable {s : State} {rest : List Event} (hb : s.busy = false)
include hb

theorem step_of_bufRead {buf : Buf} {i : Nat} (hi : i < s.params.pdMaxBytes)
    (h : s.accesses (.bufRead buf i) rest) :
    step s = .next { s with
      sched := rest, replies := (Memory.read (s.mem buf) i).setWidth 64 :: s.replies } :=
  step_of_read hb h rfl (by rw [State.readValue, State.bufReadValue, if_pos hi])

theorem step_of_bufWrite {buf : Buf} {i : Nat} {v : Byte} (hi : i < s.params.pdMaxBytes)
    (h : s.accesses (.bufWrite buf i v) rest) :
    step s = .next
      (State.withMem buf (Memory.write (s.mem buf) i v) { s with sched := rest }) := by
  rw [step_of_write hb h (if_pos hi) rfl]
  cases buf <;> rfl

theorem step_of_vsRead {i : Nat} {x : Slot} (hi : i < s.params.vsSlots) (hx : s.vs[i]? = some x)
    (h : s.accesses (.vsRead i) rest) :
    step s = .next { s with sched := rest, replies := x :: s.replies } :=
  step_of_read hb h rfl (by
    rw [State.readValue, State.vsSlot, if_pos hi, List.getD_eq_getElem?_getD, hx, Option.getD_some])

theorem step_of_vsWrite {i : Nat} {v : Slot} (hi : i < s.params.vsSlots)
    (h : s.accesses (.vsWrite i v) rest) :
    step s = .next { s with sched := rest, vs := s.vs.set i v } :=
  step_of_write hb h (if_pos hi) rfl

theorem step_of_tableRead {tab : Table} {i j : Nat} {e : TableEntry} (hi : i < s.tableMax tab)
    (hj : j < 2) (he : (s.table tab)[i]? = some e) (h : s.accesses (.tableRead tab i j) rest) :
    step s = .next { s with
      sched := rest, replies := (if j = 0 then e.w0 else e.w1).setWidth 64 :: s.replies } :=
  step_of_read hb h rfl (by
    rw [State.readValue, State.tableReadValue, if_pos hi, entry_of_getElem? he, word_eq hj])

theorem step_of_tableWrite {tab : Table} {i j : Nat} {v : Word} (hi : i < s.tableMax tab)
    (hv : s.layoutValid = false) (h : s.accesses (.tableWrite tab i j v) rest) :
    step s = .next (State.withTable tab ((s.table tab).set i ((s.entry tab i).withWord j v))
      { s with sched := rest }) := by
  rw [step_of_write hb h ((if_neg (by simp [hv])).trans (if_pos hi)) rfl]
  cases tab <;> rfl

/-- With LAYOUT_VALID = 1 a write to a table is ignored (10_state.md R57). -/
theorem step_of_locked_tableWrite {tab : Table} {i j : Nat} {v : Word}
    (hv : s.layoutValid = true) (h : s.accesses (.tableWrite tab i j v) rest) :
    step s = .next { s with sched := rest } :=
  step_of_write hb h (if_pos hv) rfl

end

/-- A table after a write of one word, word by word (R88). -/
theorem word_of_set {es : List TableEntry} {i i' j j' : Nat} {e : TableEntry} (v : Word)
    (he : es[i]? = some e) (hj : j < 2) (hj' : j' < 2) :
    ((es.set i (e.withWord j v))[i']?.map fun e => if j' = 0 then e.w0 else e.w1) =
      if i' = i ∧ j' = j then some v
      else es[i']?.map fun e => if j' = 0 then e.w0 else e.w1 := by
  have hi := (List.getElem?_eq_some_iff.mp he).1
  rw [List.getElem?_set]
  by_cases hii : i = i'
  · subst hii
    rw [if_pos rfl, if_pos hi, he, Option.map_some, Option.map_some, ← word_eq hj', ← word_eq hj',
      word_withWord e v hj hj']
    by_cases hjj : j' = j <;> simp [hjj]
  · rw [if_neg hii, if_neg fun hc => hii hc.1.symm]

/-- Settles O46: with the layout in force a write changes nothing, without it the write takes place.
-/
theorem layoutLocksTheTables : Obligations.LayoutLocksTheTables := by
  unfold Obligations.LayoutLocksTheTables
  intro s tab i j v rest hb
  refine ⟨fun hv => ⟨step_of_locked_tableWrite hb hv, fun h => ?_,
    fun e hi he hj h => step_of_tableRead hb hi hj he h⟩, fun hv hi hlen hj h => ?_, fun hv h => ?_⟩
  · exact step_of_write hb h (if_pos hv) rfl
  · refine ⟨_, (s.entry tab i).withWord j v, step_of_tableWrite hb hi hv h, ?_, ?_⟩
    · rw [table_withTable, List.getElem?_set_self (hlen ▸ hi)]
    · rw [← word_eq hj, word_withWord _ v hj hj, if_pos rfl]
  · exact ⟨_, step_of_descCountWrite hb hv h, rfl⟩

/-! ### A write and then a read of the same element -/

section
variable {s : State} {rest : List Event} {e : Event} (hb : s.busy = false)
include hb

theorem run_bufWrite_then_read {buf : Buf} {i : Nat} {v : Byte} (hwf : Memory.wf (s.mem buf))
    (hi : i < s.params.pdMaxBytes)
    (he : e ∈ [Event.host (.bufRead buf i), .transport (.bufRead buf i)])
    (h : s.accesses (.bufWrite buf i v) (e :: rest)) :
    ∃ t, Host.Core.run Sys2Proof.core 2 s = .next t ∧ t.replies = v.setWidth 64 :: s.replies := by
  have hread := step_of_bufRead
    (s := State.withMem buf (Memory.write (s.mem buf) i v) { s with sched := e :: rest })
    (by simpa using hb) (by simpa using hi) (accesses_of_mem he (withMem_sched ..))
  refine ⟨_, run_two_of_steps (step_of_bufWrite hb hi h) hread, ?_⟩
  rw [mem_withMem, read_write hwf, if_pos rfl, withMem_replies]

theorem run_vsWrite_then_read {i : Nat} {v : Slot} (hvs : s.vs.length = s.params.vsSlots)
    (hi : i < s.params.vsSlots) (he : e ∈ [Event.host (.vsRead i), .transport (.vsRead i)])
    (h : s.accesses (.vsWrite i v) (e :: rest)) :
    ∃ t, Host.Core.run Sys2Proof.core 2 s = .next t ∧ t.replies = v :: s.replies := by
  have hread := step_of_vsRead (s := { s with sched := e :: rest, vs := s.vs.set i v }) hb hi
    (List.getElem?_set_self (hvs.symm ▸ hi)) (accesses_of_mem he rfl)
  exact ⟨_, run_two_of_steps (step_of_vsWrite hb hi h) hread, rfl⟩

theorem run_tableWrite_then_read {tab : Table} {i j : Nat} {v : Word}
    (hlen : (s.table tab).length = s.tableMax tab) (hi : i < s.tableMax tab) (hj : j < 2)
    (hv : s.layoutValid = false)
    (he : e ∈ [Event.host (.tableRead tab i j), .transport (.tableRead tab i j)])
    (h : s.accesses (.tableWrite tab i j v) (e :: rest)) :
    ∃ t, Host.Core.run Sys2Proof.core 2 s = .next t ∧ t.replies = v.setWidth 64 :: s.replies := by
  have hread := step_of_tableRead (s := State.withTable tab
    ((s.table tab).set i ((s.entry tab i).withWord j v)) { s with sched := e :: rest })
    (tab := tab) (by simpa using hb) (by rw [tableMax_withTable]; exact hi) hj
    (by rw [table_withTable, List.getElem?_set_self (hlen.symm ▸ hi)])
    (accesses_of_mem he (withTable_sched ..))
  refine ⟨_, run_two_of_steps (step_of_tableWrite hb hi hv h) hread, ?_⟩
  rw [← word_eq hj, word_withWord _ v hj hj, if_pos rfl, withTable_replies]

end

/-- Settles O47, one space at a time: the read, the write, and the read after the write. -/
theorem portWritesAreReadBack : Obligations.PortWritesAreReadBack := by
  unfold Obligations.PortWritesAreReadBack
  intro s hmem hb
  have ⟨hrd, hwr, _, _, hvs, _⟩ := hmem
  have hwf : ∀ buf, Memory.wf (s.mem buf) := fun buf => by cases buf <;> assumption
  have hlen := table_length_of_memoriesOk hmem
  refine ⟨fun buf i v rest hi => ⟨step_of_bufRead hb hi, fun h => ?_, fun e he h => ?_⟩,
    fun i v rest hi => ⟨fun h => ?_, fun h => ?_, fun e he h => ?_⟩,
    fun tab i j v rest hi hj => ⟨fun h => ?_, fun hv h => ?_, fun e hv he h => ?_⟩⟩
  · exact ⟨_, step_of_bufWrite hb hi h, fun j => read_write (hwf buf) i j v⟩
  · exact run_bufWrite_then_read hb (hwf buf) hi he h
  · have hx := List.getElem?_eq_getElem (hvs.symm ▸ hi)
    exact ⟨_, hx, step_of_vsRead hb hi hx h⟩
  · refine ⟨_, step_of_vsWrite hb hi h, List.length_set .., fun j _ => ?_⟩
    by_cases hji : j = i
    · rw [hji, if_pos rfl, List.getElem?_set_self (hvs.symm ▸ hi)]
    · rw [if_neg hji, List.getElem?_set_ne (Ne.symm hji)]
  · exact run_vsWrite_then_read hb hvs hi he h
  · have hget := getElem?_table ((hlen tab).symm ▸ hi)
    exact ⟨_, hget, step_of_tableRead hb hi hj hget h⟩
  · exact ⟨_, step_of_tableWrite hb hi hv h, List.length_set .., fun i' j' _ hj' =>
      word_of_set v (getElem?_table ((hlen tab).symm ▸ hi)) hj hj'⟩
  · exact run_tableWrite_then_read hb (hlen tab) hi hj hv he h

/-- Settles O48, one space at a time. -/
theorem outOfRangeIndicesReadZeroAndIgnoreWrites :
    Obligations.OutOfRangeIndicesReadZeroAndIgnoreWrites := by
  unfold Obligations.OutOfRangeIndicesReadZeroAndIgnoreWrites
  intro s rest hb
  constructor
  · rintro a ha h
    have key : s.accessEffect a = s ∧ s.readValue a = some 0 := by
      rcases ha with ⟨buf, i, rfl, hi⟩ | ⟨i, rfl, hi⟩ | ⟨tab, i, j, rfl, hij⟩ | ⟨i, j, rfl, hij⟩
      · exact ⟨rfl, by rw [State.readValue, State.bufReadValue, if_neg (by omega)]; rfl⟩
      · exact ⟨rfl, by rw [State.readValue, State.vsSlot, if_neg (by omega)]⟩
      · refine ⟨rfl, ?_⟩
        rw [State.readValue, State.tableReadValue]
        split
        · rw [word_of_ge _ (by omega)]
          rfl
        · rfl
      · exact ⟨rfl, by rw [State.readValue, State.layoutReadValue, if_neg (by omega)]; rfl⟩
    exact step_of_read hb h key.1 key.2
  · rintro a ha h
    have key : s.accessEffect a = s ∧ s.readValue a = none := by
      rcases ha with ⟨buf, i, v, rfl, hi⟩ | ⟨i, v, rfl, hi⟩ | ⟨tab, i, j, v, rfl, hij⟩
      · exact ⟨if_neg (by omega), rfl⟩
      · exact ⟨if_neg (by omega), rfl⟩
      · refine ⟨?_, rfl⟩
        rw [State.accessEffect, State.tableWrite]
        split
        · rfl
        · split
          · rw [table_set_of_ge_two v (by omega), withTable_self]
          · rfl
    exact step_of_write hb h key.1 key.2

/-! ### The read-back of LAYOUT -/

/-- w0 of the read-back of an entry (10_state.md R62). -/
theorem layoutEntry_word_zero (e : LayoutEntry) :
    (e.word 0).extractLsb' 0 16 = e.byte ∧ (e.word 0).extractLsb' 16 3 = e.bit ∧
      ((e.word 0).getLsbD 19 = true ↔ e.dir = .write) ∧
      ((e.word 0).getLsbD 20 = true ↔ e.kind = .noop) ∧
      (e.word 0).extractLsb' 21 2 = e.hook.code ∧ (e.word 0).extractLsb' 23 9 = 0 := by
  rw [LayoutEntry.word]
  refine ⟨BitVec.extractLsb'_append_eq_right, extractLsb'_append_mid .., ?_, ?_, ?_, ?_⟩
  · simp only [BitVec.getLsbD_append]
    cases e.dir <;> simp [Dir.bit]
  · simp only [BitVec.getLsbD_append]
    cases e.kind <;> simp [Kind.bit]
  · rw [BitVec.extractLsb'_append_eq_of_le (by decide),
      BitVec.extractLsb'_append_eq_of_le (by decide)]
    exact extractLsb'_append_above_two 0 e.hook.code e.kind.bit e.dir.bit
  · rw [BitVec.extractLsb'_append_eq_of_le (by decide),
      BitVec.extractLsb'_append_eq_of_le (by decide),
      BitVec.extractLsb'_append_eq_of_le (by decide),
      BitVec.extractLsb'_append_eq_of_le (by decide)]
    exact BitVec.extractLsb'_append_eq_left (a := 0) (b := e.hook.code)

/-- Bits that are 0 in every entry, defined or not, are 0 in every read of LAYOUT (R62). -/
theorem extractLsb'_layoutReadValue {s : State} {j start len : Nat} (hv : s.layoutValid = true)
    (hdef : ∀ e : LayoutEntry, (e.word j).extractLsb' start len = 0)
    (hundef : ∀ v, (undefinedEntryWord j v).extractLsb' start len = 0) (n : Nat) :
    (s.layoutReadValue n j).extractLsb' start len = 0 := by
  by_cases hin : n < s.params.layoutMax ∧ j < 4
  · rw [State.layoutReadValue, if_pos hin, if_pos hv]
    split
    · exact hdef _
    · exact hundef _
  · rw [State.layoutReadValue, if_neg hin]
    exact BitVec.extractLsb'_zero

/-- Settles O50: the entry in force gives its fields; any other keeps the bits that R62 fixes at 0.
-/
theorem layoutReadBackWords : Obligations.LayoutReadBackWords := by
  unfold Obligations.LayoutReadBackWords
  refine ⟨fun s n e hv hmax hcount he => ?_, fun s n hv => ?_, fun s n j v rest hb => ?_⟩
  · have hactive : s.activeLayout[n]? = some e := by
      rw [State.activeLayout, List.getElem?_take_of_lt hcount, he]
    have hword : ∀ j, j < 4 → s.layoutReadValue n j = e.word j := fun j hj => by
      rw [State.layoutReadValue, if_pos ⟨hmax, hj⟩, if_pos hv, hactive]
    rw [hword 0 (by decide), hword 1 (by decide), hword 2 (by decide), hword 3 (by decide)]
    obtain ⟨hbyte, hbit, hdir, hkind, hhook, hzero⟩ := layoutEntry_word_zero e
    refine ⟨⟨hbyte, hbit, hdir, hkind, ?_, hzero⟩, ⟨BitVec.extractLsb'_append_eq_right,
      extractLsb'_append_mid .., extractLsb'_append_top ..⟩, ⟨BitVec.extractLsb'_append_eq_right,
      BitVec.extractLsb'_append_eq_left⟩, BitVec.extractLsb'_append_eq_right,
      extractLsb'_append_mid .., extractLsb'_append_top ..⟩
    rw [hhook]
    cases e.hook <;> rfl
  · have hmask0 : (0x007FFFFF : Word).extractLsb' 23 9 = 0 := by decide
    have hmask3 : (0x00FFFFFF : Word).extractLsb' 24 8 = 0 := by decide
    refine ⟨extractLsb'_layoutReadValue hv (fun e => ?_) (fun v => ?_) n,
      extractLsb'_layoutReadValue hv (fun e => extractLsb'_append_top ..) (fun v => ?_) n⟩
    · obtain ⟨-, -, -, -, -, hzero⟩ := layoutEntry_word_zero e
      exact hzero
    · rw [undefinedEntryWord, BitVec.extractLsb'_and, hmask0]
      exact BitVec.and_zero
    · rw [undefinedEntryWord, BitVec.extractLsb'_and, hmask3]
      exact BitVec.and_zero
  · exact ⟨fun h => step_of_read hb h rfl rfl, fun h => step_of_write hb h rfl rfl⟩

end Sys2Proof.Machine
end
